-- ==== Sys2Proof/Word.lean ====
section
/-!
DEFINITION. The two widths of the block (00_scope.md R9): a byte, and the 16 bits of an address,
a checksum or a record total. All quantities are unsigned.
-/

namespace Sys2Proof

/-- A byte, bits 7 down to 0 (R9). -/
abbrev Byte := BitVec 8

/-- An address, a checksum or a record total: 16 bits (R8 ADDR_BITS, CKSUM_MOD). -/
abbrev Word := BitVec 16

end Sys2Proof
end

