-- ==== Sys2Proof/Config.lean ====
section
/-!
DEFINITION. The parameters of the block (00_scope.md R8, 10_state.md R37), fixed for an instance,
and the free values: the channel's answers (20_memory.md R66 to R70, 93 U5, U6), the tick count
of one second (93 U10) and the host's open policies (93 U11). A free value is an opaque constant
with no body, so nothing can be proved of its value.
-/

namespace Sys2Proof

/-- What the channel does at one `ChanPoll` (R66), before the unread input is looked at: a byte
arrives, no byte arrives for one timeout unit, or the read fails. After a failed read the mask
says which unread bytes are still there (R233: the faulting call's own effect is unknown). -/
inductive PollDraw where
  | arrives (b : Byte)
  | quiet
  | fault (keep : List Bool)
  deriving DecidableEq, Repr, Inhabited

/-- What the channel does at one `ChanTryWrite` (R67). After a fault the byte may have gone out all
the same (93 U6): `taken` says whether it did. -/
inductive WriteDraw where
  | written
  | busy
  | fault (taken : Bool)
  deriving DecidableEq, Repr, Inhabited

/-- What the channel does at one `ChanDrain` (R68). After a fault `left` bytes of the queued output
have left, and the mask says which of the others are still queued (93 U6). -/
inductive DrainDraw where
  | done
  | fault (left : Nat) (keep : List Bool)
  deriving DecidableEq, Repr, Inhabited

/-- What the channel does at one `ChanFlush` (R69). After a fault the masks say which bytes of the
unread input and of the queued output are still there (93 U6). -/
inductive FlushDraw where
  | done
  | fault (keepUnread keepQueued : List Bool)
  deriving DecidableEq, Repr, Inhabited

/-- What a primitive that `reset` abandoned has done to the channel (70 R260, 93 U18): nothing, or any
effect: these bytes unread, these queued, and these gone out on the line. -/
inductive AbandonDraw where
  | noEffect
  | leaves (unread queued gone : List Byte)
  deriving DecidableEq, Repr, Inhabited

/-- ECHO_TIMEOUT_POLICY (43_host_sequences.md R204, D22b). -/
inductive EchoPolicy where
  | retry | skip | fatal
  deriving DecidableEq, Repr, Inhabited

/-- EXEC_SPACE_POLICY (R208, D22d). -/
inductive SpacePolicy where
  | proceed | retry | fatal
  deriving DecidableEq, Repr, Inhabited

/-- ADDR_OVERFLOW_POLICY and RECS_OVERFLOW_POLICY (R211, D22e). -/
inductive OverflowPolicy where
  | wrap | refuse
  deriving DecidableEq, Repr, Inhabited

namespace Config

/-- MAX_DATA: most data bytes in one data record; least is 1. -/
abbrev maxData : Nat := 24

/-- HEX: the 16 upper-case symbols in order (R8, R92), by the ASCII table (30_encoding.md R91). -/
def hexSymbols : Vector Byte 16 :=
  #v[0x30, 0x31, 0x32, 0x33, 0x34, 0x35, 0x36, 0x37,
     0x38, 0x39, 0x41, 0x42, 0x43, 0x44, 0x45, 0x46]

/-- REC_START: the character `;` (R91). -/
abbrev recStart : Byte := 0x3B

/-- REC_END: one newline (R91, D20). -/
abbrev recEnd : Byte := 0x0A

/-- EXEC_SEP: one space (R91). -/
abbrev execSep : Byte := 0x20

/-- ATTN: the attention byte of initial-contact mode (R8, R97). -/
abbrev attn : Byte := 0x7F

/-- BANNER: `K`, `I`, `M`, line-feed, space, space (R8, R97). BANNER_LEN is 6. -/
def banner : Vector Byte 6 :=
  #v[0x4B, 0x49, 0x4D, 0x0A, 0x20, 0x20]

/-- POSTLOAD_ATTEMPTS (R8). -/
abbrev postloadAttempts : Nat := 10

/-- OBUF_CAP: capacity of the output buffer, 12 + 2 × MAX_DATA (R8). -/
abbrev obufCap : Nat := 12 + 2 * maxData

/-- The trigger byte `G` of the Execute Trigger (R97, a host literal). -/
abbrev trigger : Byte := 0x47

/-- FREE VALUE (log 6): T_TICKS less one. -/
opaque ticksLessOne : Nat

/-- T_TICKS: the number of TICK answers that make up TIMEOUT, an open integer of at least 1 (D5). -/
def tTicks : Nat := ticksLessOne + 1

/-- FREE VALUE (log 5): what comes at the polls before the n-th silence, after the one before it. -/
opaque freeBurst : Nat → List PollDraw

/-- The draw `k` places on, in the rest `ds` of the n-th burst, the silence after it, and so on. -/
def burstDraw : Nat → Nat → List PollDraw → PollDraw
  | 0, _, [] => .quiet
  | 0, _, d :: _ => d
  | k + 1, n, [] => burstDraw k (n + 1) (freeBurst (n + 1))
  | k + 1, n, _ :: ds => burstDraw k n ds

/-- The channel's behaviour at the k-th `ChanPoll`: free but for tick fairness (20 R70 item 1), for time
does not stop: every burst is followed by a silence (log 9). -/
def freePoll (k : Nat) : PollDraw :=
  burstDraw k 0 (freeBurst 0)

/-- FREE VALUE (log 5): the channel's behaviour at the k-th `ChanTryWrite`. -/
opaque freeWrite : Nat → WriteDraw

/-- FREE VALUE (log 5): the channel's behaviour at the k-th `ChanDrain`. -/
opaque freeDrain : Nat → DrainDraw

/-- FREE VALUE (log 5): the channel's behaviour at the k-th `ChanFlush`. -/
opaque freeFlush : Nat → FlushDraw

/-- FREE VALUE (log 12): the effect of the k-th primitive that `reset` abandons. -/
opaque freeAbandon : Nat → AbandonDraw

/-- FREE VALUE (log 15): ECHO_TIMEOUT_POLICY. -/
opaque echoPolicy : EchoPolicy

/-- FREE VALUE (log 15): EXEC_SPACE_POLICY. -/
opaque spacePolicy : SpacePolicy

/-- FREE VALUE (log 15): ADDR_OVERFLOW_POLICY. -/
opaque addrPolicy : OverflowPolicy

/-- FREE VALUE (log 15): RECS_OVERFLOW_POLICY. -/
opaque recsPolicy : OverflowPolicy

end Config

end Sys2Proof
end

