-- ==== Sys2Proof/Syntax.lean ====
section
/-!
DEFINITION. The ten commands of the block (00_scope.md R4, 30_encoding.md R101), one constructor
per row of opcode_table.json. A command word has no operand field: operands stand in the operand
registers (R100, R103).
-/

namespace Sys2Proof

/-- A command, by its mnemonic (R101). -/
inductive Instr where
  /-- encode a data record -/
  | encd
  /-- encode the end-of-load record -/
  | ence
  /-- encode the execute command -/
  | encx
  /-- await one given byte -/
  | await
  /-- await any byte -/
  | awaitany
  /-- one non-blocking write attempt -/
  | trywr
  /-- wait until all queued output has left -/
  | drain
  /-- discard unread input and unsent output -/
  | flush
  /-- handshake, initial-contact mode -/
  | hsinit
  /-- handshake, post-load confirmation mode -/
  | hspost
  deriving DecidableEq, Repr

end Sys2Proof
end

