-- ==== Sys2Proof/Machine/State.lean ====
section
/-!
DEFINITION. The state of the block (10_state.md R20, R41), of the channel outside it (R40) and of the
host that drives it (43_host_sequences.md R201), as plain data; the reasons a step can stop; and
the state after reset (70_reset_and_hazards.md R261).
-/

namespace Sys2Proof.Machine

/-- `PHASE`, the block's sequencing state (R33). `encode` is passed through inside the one step of
an encode command and stands in no state between two steps (D27, log 10). -/
inductive Phase where
  | idle | encode | wait | write | draining | flushing | hsFlush | hsAttn | hsMatch | hsQuiet
  deriving DecidableEq, Repr

/-- `MODE`: 0 = initial contact, 1 = post-load confirmation (R31). -/
inductive HsMode where
  | initial | postload
  deriving DecidableEq, Repr

/-- The codes of `RESULT` (60_exceptions.md R230); code 7 is never produced. -/
inductive ResultCode where
  | ok | timedOut | channelBusy | ioError | usageError | illegalCmd | aborted
  deriving DecidableEq, Repr

/-- The serial channel outside the block (R40): its queues, the bytes that have left on the line,
and, as the model's own fields, the draws still to come of each primitive with the count of calls
made (log 5, log 7), and those of the primitives that `reset` abandons (log 12). -/
structure Channel where
  /-- arrived and not yet delivered, oldest first -/
  unread : List Byte
  /-- taken by a write, not yet on the line, oldest first -/
  queued : List Byte
  /-- left on the line, oldest first -/
  sent : List Byte
  pollScript : List PollDraw
  writeScript : List WriteDraw
  drainScript : List DrainDraw
  flushScript : List FlushDraw
  abandonScript : List AbandonDraw
  pollCalls : Nat
  writeCalls : Nat
  drainCalls : Nat
  flushCalls : Nat
  /-- primitives that `reset` abandoned -/
  abandons : Nat
  deriving DecidableEq, Repr

/-- An upload task (R13, R205.5): a target address and a finite byte source. The address counts on
past 65535 where a task runs past it; R211 then applies when the next record is made. -/
structure Task where
  addr : Nat
  source : List Byte
  deriving DecidableEq, Repr

/-- What a caller supplies for one session (R209): chunked tasks or a relay source, and optionally an
execute address. -/
structure SessionConfig where
  tasks : List Task
  relay : Option (List Byte)
  exec : Option Word
  deriving DecidableEq, Repr

/-- The session mode of R201. -/
inductive SessionMode where
  | normalChunked | rawRelay
  deriving DecidableEq, Repr

/-- How a session ends (R213), with the ends that the open policies of R204, R208, R211 can give. -/
inductive SessionEnd where
  | success
  | loadConfirmationFailure
  | ioFault
  | usageError
  | transferError
  | echoTimeout
  | spaceTimeout
  | addressOverflow
  | recordOverflow
  | terminated
  deriving DecidableEq, Repr

/-- One operation of the host software: a register access, a macro of R200, or the check of a
`RESULT` that a macro makes. -/
inductive HostOp where
  /-- `SET reg, v` (R104) -/
  | set (reg : Nat) (v : Byte)
  /-- `RD reg` (R104) -/
  | rd (reg : Nat)
  /-- after a command: IO_ERROR ends the session (R200) -/
  | checkIo
  /-- `WRITE_ALL(w)` (R202) -/
  | writeAll (w : List Byte)
  /-- one TRYWR of the byte in `B`, inside `WRITE_ALL` -/
  | tryByte
  /-- the RESULT check after that TRYWR -/
  | checkWrite
  /-- `WRITE_ALL` of the content of `OBUF` (R203, R208) -/
  | writeObuf
  /-- `READ_DISCARD(k)` (R204) -/
  | readDiscard (k : Nat)
  /-- `READ_DISCARD` of as many bytes as `OBUF` holds (R203) -/
  | discardEcho
  /-- the RESULT check after each of its AWAITANYs -/
  | checkEcho
  /-- `LOAD_CHUNKED(tasks)` (R203) -/
  | loadChunked (tasks : List Task)
  /-- count a record and give its progress tick (R203, R212) -/
  | countRecord
  /-- the end-of-load record, if a record was sent (R203) -/
  | endOfLoad
  /-- `RAW_RELAY(source)` (R207) -/
  | rawRelay (source : List Byte)
  /-- after the TRYWR of the relayed byte `x` -/
  | relayWrote (x : Byte)
  /-- after the AWAITANY of its echo -/
  | relayEchoed (x : Byte) (wrote : Bool)
  /-- `EXEC_TRIGGER(address)` (R208) -/
  | execTrigger (address : Word)
  /-- one of its three waits for a space -/
  | awaitSpace
  /-- the RESULT check after that wait -/
  | checkSpace
  /-- the whole session (R209) -/
  | session (cfg : SessionConfig)
  /-- after HSPOST: TIMED_OUT ends the session (R209) -/
  | checkConfirm
  /-- the session's end: exit success (R209) -/
  | exitSuccess
  deriving DecidableEq, Repr

/-- The host's software state (R201) and what it has seen. -/
structure HostSide where
  /-- what the software has still to do, next first -/
  prog : List HostOp
  /-- RECS: data records transmitted in this session -/
  recs : Nat
  mode : SessionMode
  /-- progress ticks given by the host (R212) -/
  progress : Nat
  /-- `retry_tick` pulses seen (R38, R212) -/
  retries : Nat
  /-- the answer of the last register read -/
  readData : Option Byte
  ended : Option SessionEnd
  deriving DecidableEq, Repr

/-- One event from outside the block and the host software, taken by one step (log 13). -/
inductive Input where
  /-- nothing from outside: the block or the host software makes its own next move -/
  | run
  /-- a host register write (R43) -/
  | write (reg : Nat) (v : Byte)
  /-- a host register read (R43) -/
  | read (reg : Nat)
  /-- the `abort` input takes a level (60 R237) -/
  | abort (level : Bool)
  /-- `reset` is asserted and released (70 R260) -/
  | reset
  /-- a byte arrives in the channel's unread input -/
  | arrive (b : Byte)
  /-- the channel loses the i-th unread byte (20 R75) -/
  | lose (i : Nat)
  /-- the line sends the oldest queued byte (20 R72.2) -/
  | lineSend
  /-- the caller starts the one session of this life of the block (R209, 10 R42) -/
  | launch (cfg : SessionConfig)
  deriving DecidableEq, Repr

/-- The whole machine: the block (R41), its input pins, the channel and the host. -/
structure State where
  a : Word
  n : Byte
  b : Byte
  /-- `DBUF`: the cells written since reset, as (index, byte), indices strictly rising -/
  dbuf : List Host.Cell
  obuf : List Byte
  olen : BitVec 6
  result : ResultCode
  busy : Bool
  fault : Bool
  halt : Bool
  phase : Phase
  mode : HsMode
  att : BitVec 4
  idx : Fin 6
  tmr : Nat
  wild : Bool
  expb : Byte
  retryTick : Bool
  abort : Bool
  inputs : List Input
  chan : Channel
  host : HostSide
  deriving DecidableEq, Repr

/-- Why the machine stops with a fault. -/
inductive Fault where
  /-- ENCD read `DBUF[index]`, which the host has not written since reset: no defined result
  (93 U3). Raised by ENCD alone. Safe: the spec gives no outcome. -/
  | dbufUnwritten (index : Nat)
  /-- `BUSY = 1` with `PHASE` IDLE or ENCODE: no rule gives such a state a move, and no run reaches
  it. Raised by the step, and by a handshake's step in a phase that is none of its own, which is never
  called. Safe. -/
  | strayPhase
  deriving DecidableEq, Repr

/-- Why a step is refused. -/
inductive Refusal where
  /-- An instruction without a meaning in this model: none is left. -/
  | notModelled (mnemonic : String)
  /-- A host read of a register number that has no value (10 R43, 70 R265, 93 U4). Raised by the host
  register port. Safe: the read has no value and the spec asks a model to refuse it. -/
  | readNoValue (reg : Nat)
  deriving DecidableEq, Repr

/-- The channel when the machine is first reset: nothing known to be in it (log 7). -/
def Channel.initial : Channel :=
  { unread := [], queued := [], sent := []
    pollScript := [], writeScript := [], drainScript := [], flushScript := []
    abandonScript := [], pollCalls := 0, writeCalls := 0, drainCalls := 0, flushCalls := 0, abandons := 0 }

/-- The host software before any session. -/
def HostSide.initial : HostSide :=
  { prog := [], recs := 0, mode := .normalChunked, progress := 0, retries := 0
    readData := none, ended := none }

/-- The state after reset (70 R261). `A`, `N`, `B` (log 1) and `MODE`, `IDX`, `TMR`, `WILD`, `EXPB`
(log 2) have no value in the spec: DESIGN CHOICE, unsafe. -/
def State.reset : State :=
  { a := 0, n := 0, b := 0, dbuf := [], obuf := [], olen := 0
    result := .ok, busy := false, fault := false, halt := false
    phase := .idle, mode := .initial, att := 0, idx := 0, tmr := 0, wild := false, expb := 0
    retryTick := false, abort := false
    inputs := [], chan := .initial, host := .initial }

end Sys2Proof.Machine
end

