-- ==== Sys2Proof/Machine/Ops.lean ====
section
/-!
DEFINITION. The named operations over the buffers, the channel and the control state: the data
buffer's reads and writes (20_memory.md R60), the four channel primitives (R66 to R69), the ways a
command ends (60_exceptions.md R230, R233, R235 to R237), the return to the reset state (70 R260),
and the priority chain in front of every command (60 R238).
-/

namespace Sys2Proof.Machine

/-! ### The data buffer -/

/-- The value of cell `i`, none if it has not been written since reset (10 R24). -/
def Memory.read : List Host.Cell → Nat → Option Byte
  | [], _ => none
  | (k, v) :: rest, i => if k = i then some v else Memory.read rest i

/-- Cell `i` takes the value `v`; indices stay strictly rising. -/
def Memory.write : List Host.Cell → Nat → Byte → List Host.Cell
  | [], i, v => [(i, v)]
  | (k, w) :: rest, i, v =>
    if i < k then (i, v) :: (k, w) :: rest
    else if i = k then (i, v) :: rest
    else (k, w) :: Memory.write rest i v

/-- Indices strictly rising from `lo` on and below MAX_DATA. -/
def Memory.wfFrom : Nat → List Host.Cell → Bool
  | _, [] => true
  | lo, (k, _) :: rest => lo ≤ k && k < Config.maxData && Memory.wfFrom (k + 1) rest

/-- The canonical form of `DBUF`. An unlisted cell has no value, so every listed cell differs from an
unlisted one. -/
def Memory.wf (m : List Host.Cell) : Bool :=
  Memory.wfFrom 0 m

/-- `DBUF[i]` (R60: an index above 23 does not exist). -/
def State.dbufRead (s : State) (i : Nat) : Option Byte :=
  Memory.read s.dbuf i

/-- `DBUF[i] <- v`, for an index that exists. -/
def State.dbufWrite (s : State) (i : Nat) (v : Byte) : State :=
  if i < Config.maxData then { s with dbuf := Memory.write s.dbuf i v } else s

/-- `OBUF <- w ; OLEN <- len(w)`, both together (10 R25). -/
def State.setObuf (s : State) (w : List Byte) : State :=
  { s with obuf := w, olen := BitVec.ofNat 6 w.length }

/-! ### The channel -/

/-- The elements a mask keeps, in order; a mask that ends early keeps nothing more. -/
def keepBy {α : Type} : List Bool → List α → List α
  | true :: m, x :: xs => x :: keepBy m xs
  | false :: m, _ :: xs => keepBy m xs
  | _, _ => []

/-- The answers of `ChanPoll` (R66). -/
inductive PollAnswer where
  | rx (b : Byte)
  | tick
  | rxFault
  deriving DecidableEq, Repr

/-- The answers of `ChanTryWrite` (R67). -/
inductive WriteAnswer where
  | written
  | busy
  | wFault
  deriving DecidableEq, Repr

/-- The answers of `ChanDrain` (R68) and `ChanFlush` (R69): `DONE`, or `DFAULT` / `FFAULT`. -/
inductive DoneAnswer where
  | done
  | failed
  deriving DecidableEq, Repr

/-- The channel with this unread input. -/
def Channel.setUnread (c : Channel) (u : List Byte) : Channel :=
  { c with unread := u }

/-- The channel with this queued output. -/
def Channel.setQueued (c : Channel) (q : List Byte) : Channel :=
  { c with queued := q }

/-- The channel with these bytes sent on the line. -/
def Channel.setSent (c : Channel) (z : List Byte) : Channel :=
  { c with sent := z }

/-- The machine with this channel. -/
def State.withChan (s : State) (c : Channel) : State :=
  { s with chan := c }

/-- The machine with this host side. -/
def State.withHost (s : State) (h : HostSide) : State :=
  { s with host := h }

/-- The machine with these outside events still to come. -/
def State.withInputs (s : State) (es : List Input) : State :=
  { s with inputs := es }

/-- The next draw of a primitive: the script's next, or the free one once the script is at its end. -/
def nextDraw {α : Type} (script : List α) (free : Nat → α) (k : Nat) : α :=
  match script with
  | d :: _ => d
  | [] => free k

/-- What the channel does at this `ChanPoll`. -/
def Channel.pollDraw (c : Channel) : PollDraw :=
  nextDraw c.pollScript Config.freePoll c.pollCalls

/-- What the channel does at this `ChanTryWrite`. -/
def Channel.writeDraw (c : Channel) : WriteDraw :=
  nextDraw c.writeScript Config.freeWrite c.writeCalls

/-- What the channel does at this `ChanDrain`. -/
def Channel.drainDraw (c : Channel) : DrainDraw :=
  nextDraw c.drainScript Config.freeDrain c.drainCalls

/-- What the channel does at this `ChanFlush`. -/
def Channel.flushDraw (c : Channel) : FlushDraw :=
  nextDraw c.flushScript Config.freeFlush c.flushCalls

/-- A poll is counted and its draw used up. -/
def Channel.polled (c : Channel) : Channel :=
  { c with pollScript := c.pollScript.tail, pollCalls := c.pollCalls + 1 }

/-- A write attempt is counted and its draw used up. -/
def Channel.tried (c : Channel) : Channel :=
  { c with writeScript := c.writeScript.tail, writeCalls := c.writeCalls + 1 }

/-- A drain is counted and its draw used up. -/
def Channel.drainTried (c : Channel) : Channel :=
  { c with drainScript := c.drainScript.tail, drainCalls := c.drainCalls + 1 }

/-- A flush is counted and its draw used up. -/
def Channel.flushTried (c : Channel) : Channel :=
  { c with flushScript := c.flushScript.tail, flushCalls := c.flushCalls + 1 }

/-- What a primitive abandoned by this `reset` has done. -/
def Channel.abandonDraw (c : Channel) : AbandonDraw :=
  nextDraw c.abandonScript Config.freeAbandon c.abandons

/-- An abandoned primitive is counted and its draw used up. -/
def Channel.abandoned (c : Channel) : Channel :=
  { c with abandonScript := c.abandonScript.tail, abandons := c.abandons + 1 }

/-- Deliver the oldest unread byte, or a TICK if there is none (R66, R72.3). -/
def Channel.deliver (c : Channel) : PollAnswer × Channel :=
  match c.unread with
  | x :: rest => (.rx x, c.setUnread rest)
  | [] => (.tick, c)

/-- `ChanPoll()` (R66): bytes are delivered in the order they arrived. -/
def Channel.poll (c : Channel) : PollAnswer × Channel :=
  match c.pollDraw with
  | .arrives b => (c.polled.setUnread (c.unread ++ [b])).deliver
  | .quiet => c.polled.deliver
  | .fault keep => (.rxFault, c.polled.setUnread (keepBy keep c.unread))

/-- `ChanTryWrite(b)` (R67): WRITTEN appends the byte to the queued output; BUSY writes nothing. -/
def Channel.tryWrite (c : Channel) (b : Byte) : WriteAnswer × Channel :=
  match c.writeDraw with
  | .written => (.written, c.tried.setQueued (c.queued ++ [b]))
  | .busy => (.busy, c.tried)
  | .fault taken => (.wFault, c.tried.setQueued (if taken then c.queued ++ [b] else c.queued))

/-- `ChanDrain()` (R68): DONE when every queued byte has left on the line, in order. -/
def Channel.drain (c : Channel) : DoneAnswer × Channel :=
  match c.drainDraw with
  | .done => (.done, (c.drainTried.setSent (c.sent ++ c.queued)).setQueued [])
  | .fault left keep =>
    (.failed, (c.drainTried.setSent (c.sent ++ c.queued.take left)).setQueued
      (keepBy keep (c.queued.drop left)))

/-- `ChanFlush()` (R69): DONE empties both queues; what was in them is lost. -/
def Channel.flush (c : Channel) : DoneAnswer × Channel :=
  match c.flushDraw with
  | .done => (.done, (c.flushTried.setUnread []).setQueued [])
  | .fault keepUnread keepQueued =>
    (.failed, (c.flushTried.setUnread (keepBy keepUnread c.unread)).setQueued
      (keepBy keepQueued c.queued))

/-- A primitive in progress is abandoned, with an unknown effect on the channel (70 R260, 93 U18). What
has left on the line before stays so. -/
def Channel.abandon (c : Channel) : Channel :=
  match c.abandonDraw with
  | .noEffect => c.abandoned
  | .leaves u q z => ((c.abandoned.setUnread u).setQueued q).setSent (c.sent ++ z)

/-- The line sends the oldest queued byte, if there is one (R72.2). -/
def Channel.sendOne (c : Channel) : Channel :=
  match c.queued with
  | x :: rest => (c.setQueued rest).setSent (c.sent ++ [x])
  | [] => c

/-! ### The start and the ends of a command -/

/-- A command starts: `BUSY <- 1` and its first phase (10 R26, R28, R33). -/
def State.start (s : State) (p : Phase) : State :=
  { s with busy := true, phase := p }

/-- `PHASE <- p` (00 R10). -/
def State.toPhase (s : State) (p : Phase) : State :=
  { s with phase := p }

/-- `finish(code)`: the command ends (00 R10, 10 R33). -/
def State.finish (s : State) (code : ResultCode) : State :=
  { s with result := code, busy := false, phase := .idle }

/-- `raise IoError` (60 R233): sticky. -/
def State.raiseIo (s : State) : State :=
  { s with fault := true, result := .ioError, phase := .idle, busy := false }

/-- `raise UsageError` (60 R235): not sticky. -/
def State.raiseUsage (s : State) : State :=
  { s with result := .usageError, phase := .idle, busy := false }

/-- A command written with `FAULT = 1`: only `RESULT` changes (60 R234). -/
def State.refuseFaulted (s : State) : State :=
  { s with result := .ioError }

/-- An unassigned code (60 R236, 30 R102): only `RESULT` changes. -/
def State.raiseIllegal (s : State) : State :=
  { s with result := .illegalCmd }

/-- `abort` taken (60 R237): one flush, its answer ignored, `HALT` set, a running command ABORTED. -/
def State.takeAbort (s : State) : State :=
  { s with
    chan := s.chan.flush.2
    halt := true
    result := if s.busy then .aborted else s.result
    busy := false
    phase := .idle }

/-- Between commands, with `HALT = 0`, `abort` is sampled before anything else but `reset` (60 R237,
R238). -/
def State.abortDue (s : State) : Bool :=
  s.abort && !s.halt && !s.busy

/-- A channel primitive may be in progress: the flush of `abort`, or the next call of the running command.
Step 2 of post-load mode has none (42 R174). -/
def State.callDue (s : State) : Bool :=
  s.abortDue || s.busy &&
    match s.phase with
    | .idle | .encode => false
    | .hsAttn => s.mode = .initial
    | .wait | .write | .draining | .flushing | .hsFlush | .hsMatch | .hsQuiet => true

/-- `reset` (70 R260 to R262): the block takes the reset values, and the session ends with it (10 R42):
the host's software state is that of a new process. The channel is not touched, but for the unknown
effect of a primitive in progress; the `abort` pin and the events still to come stay. -/
def State.blockReset (s : State) : State :=
  { State.reset with
    inputs := s.inputs
    abort := s.abort
    chan := if s.callDue then s.chan.abandon else s.chan }

/-- The caller's progress indicator sees one pulse of `retry_tick` (43 R212). -/
def HostSide.seeRetry (h : HostSide) : HostSide :=
  { h with retries := h.retries + 1 }

/-- One pulse of `retry_tick`, seen by the caller's progress indicator (10 R38, 42 R181). -/
def State.pulse (s : State) : State :=
  { s with retryTick := true, host := s.host.seeRetry }

/-! ### In front of a command, and in front of a primitive call -/

/-- What a machine step answers. -/
abbrev Result : Type := Host.Outcome State Fault Refusal

/-- The priority chain for a value written to `CMD` (60 R238 items 2 to 5): HALT ignores it, abort is
sampled between commands, BUSY ignores it, FAULT answers IO_ERROR; then the command's own start. -/
def State.accept (s : State) (begins : State → Result) : Result :=
  if s.halt then .next s
  else if s.abort && !s.busy then .next s.takeAbort
  else if s.busy then .next s
  else if s.fault then .next s.refuseFaulted
  else begins s

/-- In front of a channel primitive call of a running command: with `HALT = 1` no channel action is
performed (10 R30); otherwise `abort` is sampled (60 R237), and then the call is made. -/
def State.sampled (s : State) (call : State → Result) : Result :=
  if s.halt then .next s
  else if s.abort then .next s.takeAbort
  else call s

/-- The command that is running (10 R33, R36, R31), none when the block is idle. -/
def State.running (s : State) : Option Instr :=
  if s.busy then
    match s.phase with
    | .wait => if s.wild then some .awaitany else some .await
    | .write => some .trywr
    | .draining => some .drain
    | .flushing => some .flush
    | .hsFlush | .hsAttn | .hsMatch | .hsQuiet =>
      match s.mode with
      | .initial => some .hsinit
      | .postload => some .hspost
    | .idle | .encode => none
  else none

/-! ### The shared wait -/

/-- The entry of `await_byte(Exact(e))` (41_channel.md R150): selector and whole budget loaded. -/
def State.loadExact (s : State) (e : Byte) : State :=
  { s with wild := false, expb := e, tmr := Config.tTicks }

/-- The entry of `await_byte(Wildcard)` (R150). -/
def State.loadWild (s : State) : State :=
  { s with wild := true, tmr := Config.tTicks }

/-- One TICK is charged to the budget of the wait (R150). -/
def State.spendTick (s : State) : State :=
  { s with tmr := s.tmr - 1 }

/-- One turn of the loop of `await_byte` (R150): `abort` is sampled, then one poll. A byte that does
not match is dropped and costs no budget; a TICK costs one and ends the wait at 0. -/
def State.pollOnce (s : State) (onMatch onTimeout : State → State) : Result :=
  s.sampled fun s =>
    let t := s.withChan s.chan.poll.2
    match s.chan.poll.1 with
    | .rxFault => .next t.raiseIo
    | .rx b => if s.wild || b == s.expb then .next (onMatch t) else .next t
    | .tick => if t.spendTick.tmr = 0 then .next (onTimeout t.spendTick) else .next t.spendTick

end Sys2Proof.Machine
end

