-- ==== Sys2Proof/Machine/ByteChannel.lean ====
section
/-!
DEFINITION. The Timed Byte Channel commands AWAIT, AWAITANY, TRYWR, DRAIN, FLUSH (41_channel.md R150
to R155). A meaning run while its own command is in progress makes that command's next primitive
call; otherwise it is the write of the command's code to `CMD` and starts the command (10 R26).
-/

namespace Sys2Proof.Machine

/-- The poll of AWAIT and AWAITANY: matched is OK, the budget spent is TIMED_OUT (R151, R152). -/
def State.awaitPoll (s : State) : Result :=
  s.pollOnce (·.finish .ok) (·.finish .timedOut)

/-- The start of AWAIT: `B` is latched into `EXPB` (R151). -/
def State.startAwait (s : State) : State :=
  (s.loadExact s.b).start .wait

/-- The start of AWAITANY (R152). -/
def State.startAwaitany (s : State) : State :=
  s.loadWild.start .wait

/-- AWAIT (R151). -/
def execAwait (s : State) : Result :=
  if s.running = some .await then s.awaitPoll
  else s.accept fun s => .next s.startAwait

/-- AWAITANY (R152). -/
def execAwaitany (s : State) : Result :=
  if s.running = some .awaitany then s.awaitPoll
  else s.accept fun s => .next s.startAwaitany

/-- The one call of TRYWR (R153): `B` cannot change while the command runs (70 R270). -/
def State.writeOnce (s : State) : Result :=
  s.sampled fun s =>
    let t := s.withChan (s.chan.tryWrite s.b).2
    match (s.chan.tryWrite s.b).1 with
    | .written => .next (t.finish .ok)
    | .busy => .next (t.finish .channelBusy)
    | .wFault => .next t.raiseIo

/-- TRYWR (R153). -/
def execTrywr (s : State) : Result :=
  if s.running = some .trywr then s.writeOnce
  else s.accept fun s => .next (s.start .write)

/-- The one call of DRAIN (R154). -/
def State.drainOnce (s : State) : Result :=
  s.sampled fun s =>
    let t := s.withChan s.chan.drain.2
    match s.chan.drain.1 with
    | .done => .next (t.finish .ok)
    | .failed => .next t.raiseIo

/-- DRAIN (R154). -/
def execDrain (s : State) : Result :=
  if s.running = some .drain then s.drainOnce
  else s.accept fun s => .next (s.start .draining)

/-- The one call of FLUSH (R155). -/
def State.flushOnce (s : State) : Result :=
  s.sampled fun s =>
    let t := s.withChan s.chan.flush.2
    match s.chan.flush.1 with
    | .done => .next (t.finish .ok)
    | .failed => .next t.raiseIo

/-- FLUSH (R155). -/
def execFlush (s : State) : Result :=
  if s.running = some .flush then s.flushOnce
  else s.accept fun s => .next (s.start .flushing)

end Sys2Proof.Machine
end

