-- ==== Sys2Proof/Machine/Operands.lean ====
section
/-!
DEFINITION. The operands of the commands (30_encoding.md R103): the halves of `A`, the count in `N`
with its legal range, and the data bytes of ENCD read from `DBUF`.
-/

namespace Sys2Proof.Machine

/-- `hi8(a) = a[15:8]` (00 R9). -/
def hi8 (a : Word) : Byte :=
  a.extractLsb' 8 8

/-- `lo8(a) = a[7:0]` (00 R9). -/
def lo8 (a : Word) : Byte :=
  a.extractLsb' 0 8

/-- The count of ENCD is in its legal range 1 to 24 (10 R22). -/
def State.countLegal (s : State) : Bool :=
  1 ≤ s.n.toNat && s.n.toNat ≤ Config.maxData

/-- `k` cells from index `i` on, or the first index that holds no value. -/
def Memory.readRange (m : List Host.Cell) (i : Nat) : Nat → Except Nat (List Byte)
  | 0 => .ok []
  | k + 1 =>
    match Memory.read m i with
    | none => .error i
    | some v =>
      match Memory.readRange m (i + 1) k with
      | .ok vs => .ok (v :: vs)
      | .error j => .error j

/-- The data bytes of ENCD: `DBUF[0]` to `DBUF[N-1]` (10 R24). -/
def State.dataBytes (s : State) : Except Nat (List Byte) :=
  Memory.readRange s.dbuf 0 s.n.toNat

end Sys2Proof.Machine
end

