-- ==== Sys2Proof/Machine/Record.lean ====
section
/-!
DEFINITION. The wire formats the block produces (30_encoding.md R90 to R96): pure functions from the
operands to bytes.
-/

namespace Sys2Proof.Machine

/-- `HEX[x]`, the symbol of a nibble (R92). -/
def hexDigit (x : BitVec 4) : Byte :=
  Config.hexSymbols.get x.toFin

/-- `hex2(b)`: two symbols, high nibble first (R92). -/
def hex2 (b : Byte) : List Byte :=
  [hexDigit (b.extractLsb' 4 4), hexDigit (b.extractLsb' 0 4)]

/-- `hex4(a)`: four symbols, high byte first (R92). -/
def hex4 (a : Word) : List Byte :=
  hex2 (hi8 a) ++ hex2 (lo8 a)

/-- The checksum field: the integer sum of count, address bytes and data bytes, modulo 65536 (R94). -/
def checksum (a : Word) (ds : List Byte) : Word :=
  BitVec.ofNat 16 (ds.length + (hi8 a).toNat + (lo8 a).toNat + (ds.map BitVec.toNat).sum)

/-- The data record `;CCAAAADD…DDSSSS\n` (R93). -/
def dataRecord (a : Word) (ds : List Byte) : List Byte :=
  [Config.recStart] ++ hex2 (BitVec.ofNat 8 ds.length) ++ hex4 a ++ ds.flatMap hex2
    ++ hex4 (checksum a ds) ++ [Config.recEnd]

/-- The end-of-load record `;00HHLLHHLL\n`: the total twice, no computed checksum (R95). -/
def endOfLoadRecord (t : Word) : List Byte :=
  [Config.recStart] ++ hex2 0 ++ hex4 t ++ hex4 t ++ [Config.recEnd]

/-- The execute command `HHLL` and one space (R96). -/
def executeCommand (a : Word) : List Byte :=
  hex4 a ++ [Config.execSep]

end Sys2Proof.Machine
end

