-- ==== Sys2Proof/Machine/Codec.lean ====
section
/-!
DEFINITION. The Hex Record Codec commands ENCD, ENCE, ENCX (40_codec.md R130 to R133). They make no
channel call, sample no `abort` inside, and are one step each (92 D27).
-/

namespace Sys2Proof.Machine

/-- ENCD (R131): a count outside 1 to 24 is refused; a data cell without a value faults (93 U3). -/
def execEncd (s : State) : Result :=
  s.accept fun s =>
    if s.countLegal then
      match s.dataBytes with
      | .ok ds => .next ((s.setObuf (dataRecord s.a ds)).finish .ok)
      | .error i => .fault (.dbufUnwritten i)
    else .next s.raiseUsage

/-- ENCE (R132). -/
def execEnce (s : State) : Result :=
  s.accept fun s => .next ((s.setObuf (endOfLoadRecord s.a)).finish .ok)

/-- ENCX (R133). -/
def execEncx (s : State) : Result :=
  s.accept fun s => .next ((s.setObuf (executeCommand s.a)).finish .ok)

end Sys2Proof.Machine
end

