-- ==== Sys2Proof/Machine/Handshake.lean ====
section
/-!
DEFINITION. The Monitor Handshake commands HSINIT and HSPOST (42_handshake.md R170 to R183): the four
steps of an attempt and the loop around them, one channel primitive call at a time (R179).
-/

namespace Sys2Proof.Machine

/-- `BANNER[i]` (30_encoding.md R97). -/
def bannerByte (i : Fin 6) : Byte :=
  Config.banner.get i

/-- The start of a handshake command: `MODE` from bit 0 of its code, `ATT <- 0` (R177, R178). -/
def State.startHandshake (s : State) (m : HsMode) : State :=
  { s with busy := true, mode := m, att := 0, phase := .hsFlush }

/-- A failed attempt restarts at step 1, with one `retry_tick` (R171 (b), R181). -/
def State.retry (s : State) : State :=
  s.pulse.toPhase .hsFlush

/-- `PHASE <- HS_MATCH ; IDX <- i` (R175). -/
def State.atBanner (s : State) (i : Fin 6) : State :=
  { s with idx := i, phase := .hsMatch }

/-- The entry of step 3: the wait for `BANNER[0]` (R175). -/
def State.enterMatch (s : State) : State :=
  (s.loadExact (bannerByte 0)).atBanner 0

/-- The awaited banner byte came (R175): the next wait, or step 4 after the sixth. -/
def State.bannerMatched (s : State) : State :=
  if s.idx = 5 then s.loadWild.toPhase .hsQuiet
  else (s.loadExact (bannerByte (s.idx + 1))).atBanner (s.idx + 1)

/-- Step 1: flush (R172). -/
def State.hsStepFlush (s : State) : Result :=
  s.sampled fun s =>
    let t := s.withChan s.chan.flush.2
    match s.chan.flush.1 with
    | .done => .next (t.toPhase .hsAttn)
    | .failed => .next t.raiseIo

/-- Step 2 in initial-contact mode: one try to send 0x7F; BUSY is ignored (R173). -/
def State.hsStepAttnInitial (s : State) : Result :=
  s.sampled fun s =>
    let t := s.withChan (s.chan.tryWrite Config.attn).2
    match (s.chan.tryWrite Config.attn).1 with
    | .written | .busy => .next t.enterMatch
    | .wFault => .next t.raiseIo

/-- `ATT <- ATT + 1` (R174). -/
def State.countAttempt (s : State) : State :=
  { s with att := s.att + 1 }

/-- Step 2 in post-load mode: the attempt is counted, the 11th refused; no channel call (R174). -/
def State.hsStepAttnPostload (s : State) : Result :=
  let t := s.countAttempt
  if t.att.toNat > Config.postloadAttempts then .next (t.finish .timedOut)
  else .next t.enterMatch

/-- The next step of a running handshake, by its phase (R179). In a phase that is none of a handshake's
there is no step to make; the commands below call this only while a handshake runs. -/
def State.hsStep (s : State) : Result :=
  match s.phase with
  | .hsFlush => s.hsStepFlush
  | .hsAttn =>
    match s.mode with
    | .initial => s.hsStepAttnInitial
    | .postload => s.hsStepAttnPostload
  | .hsMatch => s.pollOnce State.bannerMatched State.retry
  | .hsQuiet => s.pollOnce State.retry (·.finish .ok)
  | .idle | .encode | .wait | .write | .draining | .flushing => .fault .strayPhase

/-- HSINIT (R177). -/
def execHsinit (s : State) : Result :=
  if s.running = some .hsinit then s.hsStep
  else s.accept fun s => .next (s.startHandshake .initial)

/-- HSPOST (R178). -/
def execHspost (s : State) : Result :=
  if s.running = some .hspost then s.hsStep
  else s.accept fun s => .next (s.startHandshake .postload)

end Sys2Proof.Machine
end

