-- ==== Sys2Proof/Machine/Dispatch.lean ====
section
/-!
DEFINITION. One arm per command: the meaning it calls.
-/

namespace Sys2Proof.Machine

def exec (i : Instr) (s : State) : Host.Outcome State Fault Refusal :=
  match i with
  -- Hex Record Codec
  | .encd => Sys2Proof.Machine.execEncd s
  | .ence => Sys2Proof.Machine.execEnce s
  | .encx => Sys2Proof.Machine.execEncx s
  -- Timed Byte Channel
  | .await => Sys2Proof.Machine.execAwait s
  | .awaitany => Sys2Proof.Machine.execAwaitany s
  | .trywr => Sys2Proof.Machine.execTrywr s
  | .drain => Sys2Proof.Machine.execDrain s
  | .flush => Sys2Proof.Machine.execFlush s
  -- Monitor Handshake
  | .hsinit => Sys2Proof.Machine.execHsinit s
  | .hspost => Sys2Proof.Machine.execHspost s

end Sys2Proof.Machine
end

