-- ==== Sys2Proof/WellFormed.lean ====
section
/-!
DEFINITION. The command word as the two fields of 30_encoding.md R100, and the checks that make a
word one of the ten assigned ones (R101, R102). An `Instr` itself carries no operand, so every
`Instr` is well formed; what can be ill formed is a word.
-/

namespace Sys2Proof

/-- An 8-bit command word split into its fields (R100). -/
structure CmdWord where
  /-- bits 7:4 -/
  unit : BitVec 4
  /-- bits 3:0 -/
  fn : BitVec 4
  deriving DecidableEq, Repr

/-- The fields of a byte written to `CMD`. -/
def CmdWord.ofByte (c : Byte) : CmdWord :=
  { unit := c.extractLsb' 4 4, fn := c.extractLsb' 0 4 }

/-- The byte that holds two fields. -/
def CmdWord.toByte (w : CmdWord) : Byte :=
  w.unit ++ w.fn

/-- Units 0 (codec), 1 (channel) and 2 (handshake) are assigned, 3 to 15 are not (R100). -/
def CmdWord.unitAssigned (w : CmdWord) : Bool :=
  w.unit.toNat < 3

/-- The functions assigned within a unit (R101): 1 to 3, 0 to 4, 0 to 1. -/
def CmdWord.fnAssigned (w : CmdWord) : Bool :=
  match w.unit.toNat with
  | 0 => 1 ≤ w.fn.toNat && w.fn.toNat ≤ 3
  | 1 => w.fn.toNat ≤ 4
  | _ => w.fn.toNat ≤ 1

/-- A word that encodes a command (R102: every other value is unassigned). -/
def CmdWord.wf (w : CmdWord) : Bool :=
  w.unitAssigned && w.fnAssigned

end Sys2Proof
end

