-- ==== Sys2Proof/Decode.lean ====
section
/-!
DEFINITION. The decoder of command words and, after it, the encoder (30_encoding.md R100 to R102).
The decoder matches all 8 bits; every word outside the table is rejected by name.
-/

namespace Sys2Proof

/-- One row of the opcode map (R101). -/
structure OpcodeRow where
  code : Byte
  instr : Instr
  deriving DecidableEq, Repr

/-- The opcode map of R101, a row per command in the table's order. -/
def opcodeTable : List OpcodeRow :=
  [ ⟨0x01, .encd⟩, ⟨0x02, .ence⟩, ⟨0x03, .encx⟩,
    ⟨0x10, .await⟩, ⟨0x11, .awaitany⟩, ⟨0x12, .trywr⟩, ⟨0x13, .drain⟩, ⟨0x14, .flush⟩,
    ⟨0x20, .hsinit⟩, ⟨0x21, .hspost⟩ ]

/-- Why bytes are no command. -/
inductive DecodeError where
  /-- no byte was given -/
  | noWord
  /-- the value is one of the 246 unassigned ones (R102) -/
  | unassigned (code : Byte)
  deriving DecidableEq, Repr

/-- The first row whose code is `c`. -/
def lookupCode (c : Byte) : List OpcodeRow → Option Instr
  | [] => none
  | r :: rest => if r.code = c then some r.instr else lookupCode c rest

/-- The command that the value `c` written to `CMD` encodes, if it is assigned. -/
def decodeByte (c : Byte) : Option Instr :=
  lookupCode c opcodeTable

/-- The decoder over bytes: the command and the bytes after it, or the reason there is none. -/
def decode : List Byte → Except DecodeError (Instr × List Byte)
  | [] => .error .noWord
  | c :: rest =>
    match decodeByte c with
    | some i => .ok (i, rest)
    | none => .error (.unassigned c)

/-- The fields of a command's word (R101). -/
def encodeFields : Instr → CmdWord
  | .encd => ⟨0x0, 0x1⟩
  | .ence => ⟨0x0, 0x2⟩
  | .encx => ⟨0x0, 0x3⟩
  | .await => ⟨0x1, 0x0⟩
  | .awaitany => ⟨0x1, 0x1⟩
  | .trywr => ⟨0x1, 0x2⟩
  | .drain => ⟨0x1, 0x3⟩
  | .flush => ⟨0x1, 0x4⟩
  | .hsinit => ⟨0x2, 0x0⟩
  | .hspost => ⟨0x2, 0x1⟩

/-- The command code of a command. -/
def encodeByte (i : Instr) : Byte :=
  (encodeFields i).toByte

/-- The words of a command: one byte. -/
def encode (i : Instr) : List Byte :=
  [encodeByte i]

/-- The command the decoder reads from `w` numbered as opcode_table.json numbers its bits: one 8-bit
word, bit 0 the least significant. -/
def decodeTableWord (nbits w : Nat) : Option Instr :=
  if nbits = 8 ∧ w < 256 then
    match decode [BitVec.ofNat 8 w] with
    | .ok (i, _) => some i
    | .error _ => none
  else none

end Sys2Proof
end

