-- ==== Sys2Proof/Machine/Flags.lean ====
section
/-!
DEFINITION. The flag and result bytes the host reads: `STAT` (10_state.md R30, R43) and `RESULT`
(R27, 60_exceptions.md R230).
-/

namespace Sys2Proof.Machine

/-- The number of a result code (R230). -/
def ResultCode.code : ResultCode → BitVec 3
  | .ok => 0
  | .timedOut => 1
  | .channelBusy => 2
  | .ioError => 3
  | .usageError => 4
  | .illegalCmd => 5
  | .aborted => 6

/-- `RESULT` as a byte: bits 2:0 the code, bits 7:3 zero (R43). -/
def State.resultByte (s : State) : Byte :=
  s.result.code.setWidth 8

/-- `STAT`: bit 0 BUSY, bit 1 FAULT, bit 2 HALT, bits 7:3 zero (R30, R43). -/
def State.statByte (s : State) : Byte :=
  (0 : BitVec 5) ++ BitVec.ofBool s.halt ++ BitVec.ofBool s.fault ++ BitVec.ofBool s.busy

/-- `OLEN` as a byte: bits 5:0 the length, bits 7:6 zero (R43). -/
def State.olenByte (s : State) : Byte :=
  s.olen.setWidth 8

end Sys2Proof.Machine
end

