-- ==== Sys2Proof/Machine/HostPort.lean ====
section
/-!
DEFINITION. The host register port (10_state.md R39, R43): the value a register number reads as, and
the effect of a write. The write of `CMD` starts a command and is routed by Route.lean.
-/

namespace Sys2Proof.Machine

/-- The number of `CMD` on the host register port. -/
abbrev cmdReg : Nat := 0x00

/-- What register number `r` reads as (R43); none where the read has no value (70 R265, 93 U4): `CMD`,
`RESULT` while `BUSY = 1`, a `DBUF` cell never written, `OBUF[i]` with `i ≥ OLEN`, an unassigned
number. -/
def State.regRead (s : State) (r : Nat) : Option Byte :=
  if r = 0x01 then some s.statByte
  else if r = 0x02 then if s.busy then none else some s.resultByte
  else if r = 0x03 then some s.b
  else if r = 0x04 then some (lo8 s.a)
  else if r = 0x05 then some (hi8 s.a)
  else if r = 0x06 then some s.n
  else if r = 0x07 then some s.olenByte
  else if 0x20 ≤ r ∧ r < 0x20 + Config.maxData then s.dbufRead (r - 0x20)
  else if 0x40 ≤ r ∧ r < 0x40 + s.olen.toNat then s.obuf[r - 0x40]?
  else none

/-- The block after a host write of `v` to register number `r`, other than `CMD` (R43). A write to a
read-only or unassigned number has no effect; while `BUSY = 1` every write is ignored (70 R270). -/
def State.regWrite (s : State) (r : Nat) (v : Byte) : State :=
  if s.busy then s
  else if r = 0x03 then { s with b := v }
  else if r = 0x04 then { s with a := hi8 s.a ++ v }
  else if r = 0x05 then { s with a := v ++ lo8 s.a }
  else if r = 0x06 then { s with n := v }
  else if 0x20 ≤ r ∧ r < 0x20 + Config.maxData then s.dbufWrite (r - 0x20) v
  else s

/-- The host takes the answer of a register read. -/
def HostSide.takeRead (h : HostSide) (v : Byte) : HostSide :=
  { h with readData := some v }

/-- A host read: its answer, or the refusal where the read has no value. -/
def State.portRead (s : State) (r : Nat) : Result :=
  match s.regRead r with
  | some v => .next (s.withHost (s.host.takeRead v))
  | none => .refused (.readNoValue r)

end Sys2Proof.Machine
end

