-- ==== Sys2Proof/Machine/HostSoftware.lean ====
section
/-!
DEFINITION. The host software (43_host_sequences.md): what one operation of it does, when the block is
idle. A macro of R200 is expanded into the operations its rule gives, put in front of what is left
to do; a register access goes through the host register port. The results a macro tests are those of
`RESULT` (R200: after every command the host reads `RESULT`).
-/

namespace Sys2Proof.Machine

/-- The host software with this left to do. -/
def HostSide.setProg (h : HostSide) (ops : List HostOp) : HostSide :=
  { h with prog := ops }

/-- The session ends: nothing is left to do (R213). -/
def HostSide.finish (h : HostSide) (e : SessionEnd) : HostSide :=
  { h with prog := [], ended := some e }

/-- One progress tick (R212). -/
def HostSide.tickProgress (h : HostSide) : HostSide :=
  { h with progress := h.progress + 1 }

/-- One more data record has been transmitted (R201). -/
def HostSide.countRecord (h : HostSide) : HostSide :=
  { h with recs := h.recs + 1 }

/-- The session mode (R201). -/
def HostSide.setMode (h : HostSide) (m : SessionMode) : HostSide :=
  { h with mode := m }

/-- A session begins: `RECS = 0` (70 R264), its mode set, not ended. -/
def HostSide.begin (h : HostSide) (m : SessionMode) : HostSide :=
  { h with recs := 0, mode := m, ended := none }

/-- The caller starts the session. One session belongs to one life of the block, from reset to reset
(10 R42, 70 R260), so while one runs or after it has ended nothing starts (log 15). -/
def HostSide.launch (h : HostSide) (cfg : SessionConfig) : HostSide :=
  if h.prog.isEmpty && h.ended.isNone then h.setProg [.session cfg] else h

/-- These operations come next. -/
def State.push (s : State) (ops : List HostOp) : State :=
  s.withHost (s.host.setProg (ops ++ s.host.prog))

/-- The session ends. -/
def State.endSession (s : State) (e : SessionEnd) : State :=
  s.withHost (s.host.finish e)

/-- One progress tick. -/
def State.tickProgress (s : State) : State :=
  s.withHost s.host.tickProgress

/-- The write of a command's code to `CMD`. -/
def issue (i : Instr) : HostOp :=
  .set cmdReg (encodeByte i)

/-- `SET A, a`. -/
def setA (a : Word) : List HostOp :=
  [.set 0x04 (lo8 a), .set 0x05 (hi8 a)]

/-- `SET DBUF[i], bytes[0]`, `SET DBUF[i+1], bytes[1]`, and so on. -/
def setData : Nat → List Byte → List HostOp
  | _, [] => []
  | i, x :: xs => .set (0x20 + i) x :: setData (i + 1) xs

/-- After a command: a halted block means the process was told to terminate (60 R237), IO_ERROR ends
the session at once (R200, R213); otherwise the software goes on. That the software notices `HALT` here
and nowhere else is the model's choice (log 26). -/
def State.afterCommand (s : State) (goOn : State → State) : State :=
  if s.halt then s.endSession .terminated
  else if s.result = .ioError then s.endSession .ioFault
  else goOn s

/-- A count or an address past 65535, under its open policy (R211): the 16-bit value, or none. The model
counts on without a bound and applies the policy here, when the record is made: its choice (log 25). -/
def fitWord (x : Nat) (policy : OverflowPolicy) : Option Word :=
  if x < 65536 then some (BitVec.ofNat 16 x)
  else
    match policy with
    | .wrap => some (BitVec.ofNat 16 x)
    | .refuse => none

/-- The operations that encode and send a record whose operands are set, and read its echo away
(R203): encode, write all, drain, read back. -/
def sendRecord (i : Instr) : List HostOp :=
  [issue i, .checkIo, .writeObuf, issue .drain, .checkIo, .discardEcho]

/-- `LOAD_CHUNKED(tasks)`, one chunk of the first task (R203): a chunk of 0 bytes is not encoded (R205.3),
a chunk shorter than 24 bytes ends the task. -/
def State.loadChunk (s : State) : List Task → State
  | [] => s.push [.endOfLoad]
  | t :: rest =>
    let chunk := t.source.take Config.maxData
    let len := chunk.length
    let more : HostOp :=
      if len < Config.maxData then .loadChunked rest
      else .loadChunked ({ addr := t.addr + len, source := t.source.drop Config.maxData } :: rest)
    if len = 0 then s.push [more]
    else
      match fitWord t.addr Config.addrPolicy with
      | none => s.endSession .addressOverflow
      | some a =>
        s.push (setA a ++ [.set 0x06 (BitVec.ofNat 8 len)] ++ setData 0 chunk
          ++ sendRecord .encd ++ [.countRecord, more])

/-- `RAW_RELAY(source)`, one byte of it (R207). -/
def State.relayByte (s : State) : List Byte → State
  | [] => s
  | x :: rest => s.push [.set 0x03 x, issue .trywr, .relayWrote x, .rawRelay rest]

/-- `EXEC_TRIGGER(address)` (R208). -/
def execTriggerOps (a : Word) : List HostOp :=
  [issue .flush, .checkIo] ++ setA a
    ++ [issue .encx, .checkIo, .writeObuf, issue .drain, .checkIo,
        .awaitSpace, .awaitSpace, .awaitSpace, .writeAll [Config.trigger]]

/-- A contradictory configuration: relay mode together with chunked tasks (R210). -/
def SessionConfig.contradictory (cfg : SessionConfig) : Bool :=
  cfg.relay.isSome && !cfg.tasks.isEmpty

/-- The whole session (R209), its usage error rejected before any channel operation (R210). -/
def State.startSession (s : State) (cfg : SessionConfig) : State :=
  if cfg.contradictory then s.endSession .usageError
  else
    let load : HostOp × SessionMode :=
      match cfg.relay with
      | some source => (.rawRelay source, .rawRelay)
      | none => (.loadChunked cfg.tasks, .normalChunked)
    let trigger : List HostOp :=
      match cfg.exec with
      | some a => [.execTrigger a]
      | none => []
    (s.withHost (s.host.begin load.2)).push
      ([issue .hsinit, .checkIo, load.1, issue .hspost, .checkConfirm] ++ trigger ++ [.exitSuccess])

/-- What one operation of the host software does to the state, for every operation that is no register
access. The model's choices: `endOfLoad` tests the true count of records and not the wrapped one (log 25);
`exitSuccess` does not look at `HALT`, so a session halted after its last result check ends as success
(log 26). -/
def State.softwareOp (s : State) : HostOp → State
  | .set _ _ => s
  | .rd _ => s
  | .checkIo => s.afterCommand id
  | .writeAll [] => s
  | .writeAll (x :: w) => s.push [.set 0x03 x, .tryByte, .writeAll w]
  | .tryByte => s.push [issue .trywr, .checkWrite]
  | .checkWrite => s.afterCommand fun s => if s.result = .ok then s else s.push [.tryByte]
  | .writeObuf => s.push [.writeAll s.obuf]
  | .readDiscard 0 => s
  | .readDiscard (k + 1) => s.push [issue .awaitany, .checkEcho, .readDiscard k]
  | .discardEcho => s.push [.readDiscard s.obuf.length]
  | .checkEcho => s.afterCommand fun s =>
      if s.result = .timedOut then
        match Config.echoPolicy with
        | .retry => s.push [issue .awaitany, .checkEcho]
        | .skip => s
        | .fatal => s.endSession .echoTimeout
      else s
  | .loadChunked tasks =>
      if s.host.mode = .rawRelay then s.endSession .usageError else s.loadChunk tasks
  | .countRecord =>
      (s.withHost s.host.countRecord).tickProgress
  | .endOfLoad =>
      if s.host.recs = 0 then s
      else
        match fitWord s.host.recs Config.recsPolicy with
        | none => s.endSession .recordOverflow
        | some t => s.push (setA t ++ sendRecord .ence)
  | .rawRelay source =>
      if s.host.recs = 0 then
        (s.withHost (s.host.setMode .rawRelay)).relayByte source
      else s.endSession .usageError
  | .relayWrote x => s.afterCommand fun s =>
      s.push [issue .awaitany, .relayEchoed x (s.result = .ok)]
  | .relayEchoed x wrote => s.afterCommand fun s =>
      if !wrote && s.result = .timedOut then s.endSession .transferError
      else if x = Config.recEnd then s.tickProgress
      else s
  | .execTrigger a => s.push (execTriggerOps a)
  | .awaitSpace => s.push [.set 0x03 Config.execSep, issue .await, .checkSpace]
  | .checkSpace => s.afterCommand fun s =>
      if s.result = .timedOut then
        match Config.spacePolicy with
        | .proceed => s
        | .retry => s.push [.awaitSpace]
        | .fatal => s.endSession .spaceTimeout
      else s
  | .session cfg => s.startSession cfg
  | .checkConfirm => s.afterCommand fun s =>
      if s.result = .timedOut then s.endSession .loadConfirmationFailure else s
  | .exitSuccess => s.endSession .success

end Sys2Proof.Machine
end

