-- ==== Sys2Proof/Machine/Route.lean ====
section
/-!
DEFINITION. What the next step is: which of reset, abort, an outside event, the running command or the
host software moves (60_exceptions.md R238; log 13), and which command's meaning, if any, is to be
run. The step itself only calls this and `exec`.
-/

namespace Sys2Proof.Machine

/-- What the next step is: an outcome that needs no command's meaning, or a command to run in a state. -/
inductive Route where
  | done (o : Result)
  | run (i : Instr) (s : State)

/-- A host write of `c` to `CMD` (10 R26): ignored while `BUSY = 1` (70 R270); an assigned code starts
its command; an unassigned one is ILLEGAL_CMD behind the same priorities (60 R238). -/
def State.writeCmd (s : State) (c : Byte) : Route :=
  if s.busy then .done (.next s)
  else
    match decodeByte c with
    | some i => .run i s
    | none => .done (s.accept fun s => .next s.raiseIllegal)

/-- A host register write (10 R43). -/
def State.portWrite (s : State) (r : Nat) (v : Byte) : Route :=
  if r = cmdReg then s.writeCmd v else .done (.next (s.regWrite r v))

/-- One operation of the host software. -/
def State.hostMove (s : State) (op : HostOp) : Route :=
  match op with
  | .set r v => s.portWrite r v
  | .rd r => .done (s.portRead r)
  | op => .done (.next (s.softwareOp op))

/-- The machine's own move: the running command's next step while `BUSY = 1`, else the host software's
next operation, else nothing. -/
def State.ownMove (s : State) : Route :=
  if s.busy then
    match s.running with
    | some i => .run i s
    | none => .done (.fault .strayPhase)
  else
    match s.host.prog with
    | op :: rest => (s.withHost (s.host.setProg rest)).hostMove op
    | [] => .done (.next s)

/-- An outside event, other than `reset`. -/
def State.takeInput (s : State) (e : Input) : Route :=
  match e with
  | .run => s.ownMove
  | .write r v => s.portWrite r v
  | .read r => .done (s.portRead r)
  | .abort level => .done (.next { s with abort := level })
  | .reset => .done (.next s.blockReset)
  | .arrive b => .done (.next (s.withChan (s.chan.setUnread (s.chan.unread ++ [b]))))
  | .lose k => .done (.next (s.withChan (s.chan.setUnread (s.chan.unread.eraseIdx k))))
  | .lineSend => .done (.next (s.withChan s.chan.sendOne))
  | .launch cfg => .done (.next (s.withHost (s.host.launch cfg)))

/-- `retry_tick` is asserted for one step only (10 R38). -/
def State.clearPulse (s : State) : State :=
  { s with retryTick := false }

/-- The next step of a state whose `retry_tick` has been taken back. -/
def State.nextMove (s : State) : Route :=
  match s.inputs with
  | .reset :: rest => .done (.next (s.withInputs rest).blockReset)
  | [] => if s.abortDue then .done (.next s.takeAbort) else s.ownMove
  | e :: rest =>
    if s.abortDue then .done (.next s.takeAbort) else (s.withInputs rest).takeInput e

/-- The next step. -/
def route (s : State) : Route :=
  s.clearPulse.nextMove

end Sys2Proof.Machine
end

