-- ==== Sys2Proof/Machine/Step.lean ====
section
/-!
DEFINITION. One step of the machine, and the state in which the next step runs a given command.
-/

namespace Sys2Proof.Machine

/-- One step: what `route` says, and where that is a command, its meaning. -/
def step (s : State) : Host.Outcome State Fault Refusal :=
  match route s with
  | .done o => o
  | .run i t => exec i t

/-- The block fetches nothing (20_memory.md R76): a command comes as a host write to `CMD`. So the
command word is placed as the next outside event, and the very next step takes it (log 13). A
command is one 8-bit word, so `nbits` (8 in every row of the table) is not needed. -/
def State.withFetchWord (s : State) (_nbits w : Nat) : State :=
  s.withInputs (.write cmdReg (BitVec.ofNat 8 w) :: s.inputs)

end Sys2Proof.Machine
end

