-- ==== Sys2Proof/Safety.lean ====
section
/-!
DEFINITION. The terms the statements use: when a command written now starts, when a running command
makes its next primitive call, what a step leaves alone, and the invariant of the machine.
-/

namespace Sys2Proof.Machine

/-- A command written now starts (10 R26, 60 R238): not halted, no abort to take, idle, no fault. -/
def State.Ready (s : State) : Prop :=
  s.halt = false ∧ s.abort = false ∧ s.busy = false ∧ s.fault = false

/-- `i` is running and nothing stops its next step: not halted, no abort asserted. -/
def State.Running (s : State) (i : Instr) : Prop :=
  s.running = some i ∧ s.halt = false ∧ s.abort = false

/-- The operand registers and every cell of `DBUF` read as before (10 R21 to R24). -/
def State.SameOperands (s t : State) : Prop :=
  t.a = s.a ∧ t.n = s.n ∧ t.b = s.b ∧ ∀ i, t.dbufRead i = s.dbufRead i

/-- `OBUF` and `OLEN` are as before (10 R25). -/
def State.SameOutput (s t : State) : Prop :=
  t.obuf = s.obuf ∧ t.olen = s.olen

/-- The sequencing registers of the waits and of the handshake, other than `PHASE`, are as before
(10 R31, R32, R34 to R36). -/
def State.SameSequencing (s t : State) : Prop :=
  t.mode = s.mode ∧ t.att = s.att ∧ t.idx = s.idx ∧ t.tmr = s.tmr ∧ t.wild = s.wild ∧ t.expb = s.expb

/-- The pins, the events still to come and the host are as before. -/
def State.SameOutside (s t : State) : Prop :=
  t.abort = s.abort ∧ t.inputs = s.inputs ∧ t.host = s.host

/-- The number of channel primitive calls made so far, of all four kinds. -/
def Channel.calls (c : Channel) : Nat :=
  c.pollCalls + c.writeCalls + c.drainCalls + c.flushCalls

/-- The next step takes a host write of `v` to register number `r`: an outside event, or on an idle block the
software's next operation. -/
def State.hostWrites (s : State) (r : Nat) (v : Byte) : Prop :=
  (∃ rest, s.inputs = .write r v :: rest) ∨
  ((s.inputs = [] ∨ ∃ rest, s.inputs = .run :: rest) ∧ s.busy = false ∧
    ∃ ops, s.host.prog = .set r v :: ops)

/-- The next step takes a host read of register number `r`. -/
def State.hostReads (s : State) (r : Nat) : Prop :=
  (∃ rest, s.inputs = .read r :: rest) ∨
  ((s.inputs = [] ∨ ∃ rest, s.inputs = .run :: rest) ∧ s.busy = false ∧
    ∃ ops, s.host.prog = .rd r :: ops)

/-- From `s` to `t` the handshake command `i` fails an attempt and restarts at step 1 (42 R171 (b)). -/
def State.restarts (s : State) (i : Instr) (t : State) : Bool :=
  s.running = some i && (s.phase = .hsMatch || s.phase = .hsQuiet) && t.phase = .hsFlush

/-- The 19 byte values an encode command can put in `OBUF` (30 R99). -/
def wireSymbol (x : Byte) : Bool :=
  x = Config.recStart || x = Config.recEnd || x = Config.execSep
    || (0x30 ≤ x.toNat && x.toNat ≤ 0x39) || (0x41 ≤ x.toNat && x.toNat ≤ 0x46)

/-- The lengths of `OBUF` that occur (10 R25). -/
def legalLength (l : Nat) : Prop :=
  l = 0 ∨ l = 5 ∨ l = 12 ∨ (14 ≤ l ∧ l ≤ Config.obufCap ∧ l % 2 = 0)

/-- A phase in which an `await_byte` is in progress (10 R33, R35). -/
def Phase.waiting : Phase → Bool
  | .wait | .hsMatch | .hsQuiet => true
  | _ => false

/-- A phase of a handshake (10 R33). -/
def Phase.handshake : Phase → Bool
  | .hsFlush | .hsAttn | .hsMatch | .hsQuiet => true
  | _ => false

/-- The invariant of the machine: what holds at reset and after every step. -/
structure State.Inv (s : State) : Prop where
  /-- `DBUF` keeps its canonical form -/
  dbufWf : Memory.wf s.dbuf = true
  /-- `OLEN` is the length of `OBUF` (10 R25) -/
  olenIsLength : s.olen.toNat = s.obuf.length
  /-- only the lengths of 10 R25 occur -/
  lengthLegal : legalLength s.obuf.length
  /-- `OBUF` holds wire symbols only (30 R99) -/
  obufClean : ∀ x ∈ s.obuf, wireSymbol x = true
  /-- `BUSY = 0` exactly in `PHASE` IDLE (10 R33) -/
  busyIffPhase : s.busy = true ↔ s.phase ≠ .idle
  /-- an encode command is one step (92 D27) -/
  noEncodePhase : s.phase ≠ .encode
  /-- no command runs with `FAULT` or `HALT` set (10 R29, R30) -/
  busyClean : s.busy = true → s.fault = false ∧ s.halt = false
  /-- the sticky fault shows in `RESULT` (60 R233, R234) -/
  faultResult : s.fault = true → s.result = .ioError
  /-- `ATT` is at most 11 (10 R32) -/
  attBound : s.att.toNat ≤ Config.postloadAttempts + 1
  /-- a wait in progress has a budget left, never more than the whole (10 R35) -/
  budget : s.phase.waiting = true → 1 ≤ s.tmr ∧ s.tmr ≤ Config.tTicks
  /-- step 3 awaits `BANNER[IDX]` (42 R175) -/
  matchSelector : s.phase = .hsMatch → s.wild = false ∧ s.expb = bannerByte s.idx
  /-- step 4 awaits any byte (42 R176) -/
  quietSelector : s.phase = .hsQuiet → s.wild = true
  /-- `ATT` is never written in initial-contact mode (10 R32) -/
  initialAtt : s.phase.handshake = true → s.mode = .initial → s.att = 0
  /-- at most ten attempts reach step 3 (42 R174) -/
  postloadAtt : s.phase.handshake = true → s.att.toNat ≤ Config.postloadAttempts
  /-- an attempt of post-load mode that has passed step 2 is counted (42 R174) -/
  countedAttempt : (s.phase = .hsMatch ∨ s.phase = .hsQuiet) → s.mode = .postload → 1 ≤ s.att.toNat
  /-- `retry_tick` is asserted only at the step that restarts an attempt (42 R181) -/
  pulseRestarts : s.retryTick = true → s.phase = .hsFlush

/-- `k` steps in a row, stopping at the first that gives no next state. -/
def run : Nat → State → Result
  | 0, s => .next s
  | k + 1, s =>
    match step s with
    | .next t => run k t
    | .fault r => .fault r
    | .refused r => .refused r

/-- The channel after `k` polls in a row, their answers ignored. -/
def Channel.afterPolls : Nat → Channel → Channel
  | 0, c => c
  | k + 1, c => Channel.afterPolls k c.poll.2

/-- A draw of `ChanPoll` that leaves the wait in progress: silence for one timeout unit, or a byte the
wait does not match (41 R150). -/
def State.leavesWaiting (s : State) : PollDraw → Bool
  | .quiet => true
  | .arrives x => !(s.wild || x == s.expb)
  | .fault _ => false

/-- The silences among draws, each one TICK (20 R66). -/
def quiets (ds : List PollDraw) : Nat :=
  ds.count .quiet

/-- The TICKs that one attempt of a handshake can still consume, and those of the attempts after it:
at most 7T - 6 an attempt (42 R183). -/
def State.tickBudget (s : State) : Nat :=
  let t := Config.tTicks
  let later := (Config.postloadAttempts - s.att.toNat) * (7 * t - 6)
  match s.phase with
  | .hsFlush | .hsAttn => later
  | .hsMatch => (s.tmr - 1) + (5 - s.idx.val) * (t - 1) + t + later
  | .hsQuiet => s.tmr + later
  | _ => 0

end Sys2Proof.Machine
end

