-- ==== Sys2Proof/Certificates/Slice0/Obligations.lean ====
section
/-!
DEFINITION. The statements for the provers, file by file of the spec. A statement about a next state
writes out the fields that change; every field not named there is unchanged.
-/

open Sys2Proof Sys2Proof.Machine

/-! ### Encodings (30_encoding.md) -/

/-- R100, R101: a command is one byte; decoding its encoding gives it back, and bytes decode to it
only if they begin with its encoding. -/
def Obligations.DecodeEncodeAgree : Prop :=
  (∀ (i : Instr) (rest : List Byte), decode (encode i ++ rest) = .ok (i, rest)) ∧
  (∀ (bs rest : List Byte) (i : Instr), decode bs = .ok (i, rest) → bs = encode i ++ rest)

/-- R101: words written out from the opcode map decode to their commands (sanity). -/
def Obligations.MapWordsDecode : Prop :=
  decode [0b00000001] = .ok (.encd, []) ∧ decode [0b00000010] = .ok (.ence, []) ∧
  decode [0b00000011] = .ok (.encx, []) ∧
  decode [0b00010000] = .ok (.await, []) ∧ decode [0b00010001] = .ok (.awaitany, []) ∧
  decode [0b00010010] = .ok (.trywr, []) ∧ decode [0b00010011] = .ok (.drain, []) ∧
  decode [0b00010100] = .ok (.flush, []) ∧
  decode [0b00100000] = .ok (.hsinit, []) ∧ decode [0b00100001] = .ok (.hspost, [])

/-- R102: the values without a command are exactly 0x00, 0x04 to 0x0F, 0x15 to 0x1F, 0x22 to 0xFF,
and each is rejected by name. -/
def Obligations.UnassignedCodesRejected : Prop :=
  ∀ (c : Byte) (rest : List Byte),
    (c.toNat = 0 ∨ (0x04 ≤ c.toNat ∧ c.toNat ≤ 0x0F) ∨ (0x15 ≤ c.toNat ∧ c.toNat ≤ 0x1F) ∨
      0x22 ≤ c.toNat) ↔ decode (c :: rest) = .error (.unassigned c)

/-- R92: the symbols `0` to `9`, `A` to `F` of the 16 nibble values; a byte is two of them, high
nibble first, a 16-bit value four, high byte first; two bytes with the same pair are the same. The
code points are those of R91 (log 17). -/
def Obligations.HexSymbolsUpperCase : Prop :=
  (∀ x : BitVec 4, (hexDigit x).toNat = if x.toNat < 10 then 0x30 + x.toNat else 0x37 + x.toNat) ∧
  (∀ (hi lo : BitVec 4), hex2 (hi ++ lo) = [hexDigit hi, hexDigit lo]) ∧
  (∀ (hi lo : Byte), hex4 (hi ++ lo) = hex2 hi ++ hex2 lo) ∧
  (∀ b c : Byte, hex2 b = hex2 c → b = c)

/-- R93, R94: the data record, field by field, for a count of 1 to 24, and its checksum, the sum of
the count, the two address bytes and the data bytes modulo 65536. -/
def Obligations.DataRecordLayout : Prop :=
  ∀ (a : Word) (ds : List Byte), 1 ≤ ds.length → ds.length ≤ 24 →
    let w := dataRecord a ds
    let n := ds.length
    w.length = 12 + 2 * n ∧
    w[0]? = some 0x3B ∧
    (w.drop 1).take 2 = hex2 (BitVec.ofNat 8 n) ∧
    (w.drop 3).take 2 = hex2 (hi8 a) ∧ (w.drop 5).take 2 = hex2 (lo8 a) ∧
    (∀ i (h : i < n), (w.drop (7 + 2 * i)).take 2 = hex2 ds[i]) ∧
    (w.drop (7 + 2 * n)).take 2 = hex2 (hi8 (checksum a ds)) ∧
    (w.drop (9 + 2 * n)).take 2 = hex2 (lo8 (checksum a ds)) ∧
    w[11 + 2 * n]? = some 0x0A ∧
    (checksum a ds).toNat = (n + a.toNat / 256 + a.toNat % 256 + (ds.map BitVec.toNat).sum) % 65536

/-- R134 item 2, the spec's own inference: within the legal counts the reduction modulo 65536 never
changes the sum, which lies between 1 and 0x19FE. -/
def Obligations.ChecksumNeverWraps : Prop :=
  ∀ (a : Word) (ds : List Byte), 1 ≤ ds.length → ds.length ≤ 24 →
    let sum := ds.length + a.toNat / 256 + a.toNat % 256 + (ds.map BitVec.toNat).sum
    (checksum a ds).toNat = sum ∧ 1 ≤ sum ∧ sum ≤ 0x19FE

/-- R134 item 3, the spec's own inference: the checksum does not depend on the order of the data
bytes. -/
def Obligations.ChecksumIgnoresOrder : Prop :=
  ∀ (a : Word) (ds es : List Byte), ds.Perm es → checksum a ds = checksum a es

/-- R135, third property, the spec's own inference: the encoding loses nothing; a record determines
its address and its data. -/
def Obligations.RecordDeterminesContent : Prop :=
  ∀ (a a' : Word) (ds ds' : List Byte), 1 ≤ ds.length → ds.length ≤ 24 →
    1 ≤ ds'.length → ds'.length ≤ 24 →
    dataRecord a ds = dataRecord a' ds' → a = a' ∧ ds = ds'

/-- R98, the spec's own inference: a record's only newline is its last byte, where its count says it
ends. -/
def Obligations.RecordEndsAtFirstNewline : Prop :=
  ∀ (a : Word) (ds : List Byte), 1 ≤ ds.length → ds.length ≤ 24 →
    ∀ i, (dataRecord a ds)[i]? = some 0x0A ↔ i = 11 + 2 * ds.length

/-- R99, the spec's own inference: every byte an encode command puts in `OBUF` is one of the 19 wire
symbols and has bit 7 clear. -/
def Obligations.EncodersWriteSevenBitSymbols : Prop :=
  ∀ (i : Instr) (s t : State), i = .encd ∨ i = .ence ∨ i = .encx → s.Ready →
    exec i s = .next t → t.result = .ok →
    ∀ x ∈ t.obuf, wireSymbol x = true ∧ x.toNat < 128

/-! ### Codec commands (40_codec.md) -/

/-- R131, R235: ENCD. With a count of 1 to 24 and its data cells written, `OBUF` is the record,
`OLEN` is 12 + 2N, the result OK; with any other count only the result changes, to USAGE_ERROR; with
`FAULT` set only the result changes, to IO_ERROR. -/
def Obligations.EncdEncodesOrRefuses : Prop :=
  (∀ s : State, s.halt = false → s.abort = false → s.busy = false → s.fault = true →
    exec .encd s = .next { s with result := .ioError }) ∧
  ∀ s : State, s.Ready →
    (∀ ds : List Byte, 1 ≤ s.n.toNat → s.n.toNat ≤ 24 → ds.length = s.n.toNat →
      (∀ i (h : i < ds.length), s.dbufRead i = some ds[i]) →
      let sum : Word := BitVec.ofNat 16
        (s.n.toNat + (hi8 s.a).toNat + (lo8 s.a).toNat + (ds.map BitVec.toNat).sum)
      exec .encd s = .next { s with
        obuf := [0x3B] ++ hex2 s.n ++ hex2 (hi8 s.a) ++ hex2 (lo8 s.a) ++ ds.flatMap hex2
          ++ hex2 (hi8 sum) ++ hex2 (lo8 sum) ++ [0x0A]
        olen := BitVec.ofNat 6 (12 + 2 * s.n.toNat)
        result := .ok, busy := false, phase := .idle }) ∧
    (s.n.toNat = 0 ∨ 24 < s.n.toNat →
      exec .encd s = .next { s with result := .usageError, busy := false, phase := .idle })

/-- 93 U3 and log 3: with a legal count, ENCD stops at the first data cell that holds no value, and
names it. -/
def Obligations.EncdStopsOnUnwrittenCell : Prop :=
  ∀ (s : State) (k : Nat), s.Ready → s.n.toNat ≤ 24 → k < s.n.toNat → s.dbufRead k = none →
    (∀ j, j < k → s.dbufRead j ≠ none) → exec .encd s = .fault (.dbufUnwritten k)

/-- R132, R95: ENCE renders the total in `A` twice; no checksum is computed. With `FAULT` set only
the result changes, to IO_ERROR. -/
def Obligations.EnceRendersTotalTwice : Prop :=
  (∀ s : State, s.halt = false → s.abort = false → s.busy = false → s.fault = true →
    exec .ence s = .next { s with result := .ioError }) ∧
  ∀ s : State, s.Ready →
    exec .ence s = .next { s with
      obuf := [0x3B, 0x30, 0x30] ++ hex2 (hi8 s.a) ++ hex2 (lo8 s.a)
        ++ hex2 (hi8 s.a) ++ hex2 (lo8 s.a) ++ [0x0A]
      olen := 12, result := .ok, busy := false, phase := .idle }

/-- R133, R96: ENCX renders the address in `A` and one space. With `FAULT` set only the result
changes, to IO_ERROR. -/
def Obligations.EncxRendersAddress : Prop :=
  (∀ s : State, s.halt = false → s.abort = false → s.busy = false → s.fault = true →
    exec .encx s = .next { s with result := .ioError }) ∧
  ∀ s : State, s.Ready →
    exec .encx s = .next { s with
      obuf := hex2 (hi8 s.a) ++ hex2 (lo8 s.a) ++ [0x20]
      olen := 5, result := .ok, busy := false, phase := .idle }

/-- R130 (a), (c), (d), (f): the frame of the encode commands. With no abort to take they make no
channel call and write nothing but `OBUF`, `OLEN`, `RESULT`, `BUSY`, `PHASE`; on a result that is
not OK they leave `OBUF` and `OLEN` too. -/
def Obligations.EncodeCommandsFrame : Prop :=
  ∀ (i : Instr) (s t : State), i = .encd ∨ i = .ence ∨ i = .encx →
    s.halt = false → s.abort = false → exec i s = .next t →
    s.SameOperands t ∧ s.SameSequencing t ∧ s.SameOutside t ∧
    t.chan = s.chan ∧ t.fault = s.fault ∧ t.halt = s.halt ∧ t.retryTick = s.retryTick ∧
    (t.result ≠ .ok → s.SameOutput t)

/-! ### Writing `CMD` (10_state.md R26, 60_exceptions.md R238) -/

/-- A step runs the decoded command: a value written to `CMD` on an idle block with no abort to
take, from outside or by the host software, is exec of the command it decodes to; while a command
runs, a step with no outside event is exec of that command. Around it the step takes back
`retry_tick` and uses up the event or operation. That events are taken in order and the machine
moves by itself without one is log 13, that the host software moves while the block is idle log 16,
that exec is both the start and the next step log 20, and the length of the pulse log 19: the
model's choices. -/
def Obligations.StepRunsTheDecodedCommand : Prop :=
  ∀ (s : State) (c : Byte) (i : Instr),
    (∀ rest, s.inputs = .write cmdReg c :: rest → decode [c] = .ok (i, []) →
      s.busy = false → (s.abort = true → s.halt = true) →
      step s = exec i { s with retryTick := false, inputs := rest }) ∧
    (∀ ops, s.inputs = [] → s.host.prog = .set cmdReg c :: ops → decode [c] = .ok (i, []) →
      s.busy = false → (s.abort = true → s.halt = true) →
      step s = exec i { s with retryTick := false, host := { s.host with prog := ops } }) ∧
    (s.inputs = [] → s.running = some i → step s = exec i { s with retryTick := false }) ∧
    (∀ rest, s.inputs = .run :: rest → s.running = some i →
      step s = exec i { s with retryTick := false, inputs := rest })

/-- R30, R238 item 2: with `HALT = 1` a value written to `CMD` is ignored, whatever it is; no step
calls the channel or starts a command; and no step but a reset clears `HALT`. -/
def Obligations.HaltStopsTheBlock : Prop :=
  ∀ s : State, s.halt = true →
    (∀ (c : Byte) (rest : List Input), s.inputs = .write cmdReg c :: rest →
      step s = .next { s with retryTick := false, inputs := rest }) ∧
    (∀ t, step s = .next t →
      t.chan.calls = s.chan.calls ∧ (t.busy = true → s.busy = true) ∧
      (s.inputs.head? ≠ some .reset → t.halt = true))

/-- R234: with `FAULT = 1` any value written to `CMD` starts nothing and gives IO_ERROR; no step but
a reset clears `FAULT`; `abort` still makes its flush and halts the block. That the abort is taken
before any pending event but a reset, and that the event stays, is R237 and R238 as logs 11 and 13
read them. -/
def Obligations.FaultIsSticky : Prop :=
  ∀ s : State, s.fault = true →
    (∀ (c : Byte) (rest : List Input), s.halt = false → s.abort = false → s.busy = false →
      s.inputs = .write cmdReg c :: rest →
      step s = .next { s with retryTick := false, inputs := rest, result := .ioError }) ∧
    (∀ t, step s = .next t → s.inputs.head? ≠ some .reset → t.fault = true) ∧
    (s.halt = false → s.abort = true → s.busy = false → s.inputs.head? ≠ some .reset →
      step s = .next { s with
        retryTick := false, chan := s.chan.flush.2, halt := true, phase := .idle })

/-- R236, R102: each of the 246 values 0x00, 0x04 to 0x0F, 0x15 to 0x1F, 0x22 to 0xFF changes
`RESULT` to ILLEGAL_CMD and nothing else. -/
def Obligations.IllegalCommandOnlySetsResult : Prop :=
  ∀ (s : State) (c : Byte) (rest : List Input), s.Ready →
    s.inputs = .write cmdReg c :: rest →
    (c.toNat = 0 ∨ (0x04 ≤ c.toNat ∧ c.toNat ≤ 0x0F) ∨ (0x15 ≤ c.toNat ∧ c.toNat ≤ 0x1F) ∨
      0x22 ≤ c.toNat) →
    step s = .next { s with retryTick := false, inputs := rest, result := .illegalCmd }

/-- R270: while `BUSY = 1` a host write, to whatever register, is ignored and not queued. -/
def Obligations.BusyIgnoresHostWrites : Prop :=
  ∀ (s : State) (r : Nat) (v : Byte) (rest : List Input), s.busy = true →
    s.inputs = .write r v :: rest →
    step s = .next { s with retryTick := false, inputs := rest }

/-! ### Timed Byte Channel (20_memory.md, 41_channel.md) -/

/-- R66, R72.3: a poll delivers the oldest byte that has arrived and takes it out of the unread
input; a TICK is answered only with nothing to deliver. R70 item 1, tick fairness: from every
channel, polled on and on, a TICK comes. That a TICK needs an empty queue is the model's reading
(log 7); fairness is the spec's assumption of the channel, in the model the form of its free draws
(log 9). -/
def Obligations.PollDeliversInOrder : Prop :=
  (∀ c : Channel,
    (∀ b, c.poll.1 = .rx b →
      (c.pollDraw = .quiet ∧ c.unread = b :: c.poll.2.unread) ∨
      ∃ new, c.pollDraw = .arrives new ∧ c.unread ++ [new] = b :: c.poll.2.unread) ∧
    (c.poll.1 = .tick → c.unread = [] ∧ c.poll.2.unread = []) ∧
    c.poll.2.queued = c.queued ∧ c.poll.2.sent = c.sent ∧ c.poll.2.pollCalls = c.pollCalls + 1) ∧
  ∀ c : Channel, ∃ k, (c.afterPolls k).poll.1 = .tick

/-- R151 with R150: AWAIT latches `B`, loads the whole budget, and samples `abort` before every
poll. A byte equal to `EXPB` ends it OK; another byte is dropped at no cost; a TICK costs one and
the last one ends it TIMED_OUT; a fault is IO_ERROR and sticky. -/
def Obligations.AwaitTurns : Prop :=
  (∀ s : State, s.Ready → exec .await s = .next { s with
    wild := false, expb := s.b, tmr := Config.tTicks, busy := true, phase := .wait }) ∧
  (∀ s : State, s.running = some .await → s.halt = false → s.abort = true →
    exec .await s = .next { s with
      chan := s.chan.flush.2, halt := true, result := .aborted, busy := false, phase := .idle }) ∧
  ∀ s : State, s.Running .await →
    (s.chan.poll.1 = .rx s.expb → exec .await s = .next { s with
      chan := s.chan.poll.2, result := .ok, busy := false, phase := .idle }) ∧
    (∀ b, s.chan.poll.1 = .rx b → b ≠ s.expb →
      exec .await s = .next { s with chan := s.chan.poll.2 }) ∧
    (s.chan.poll.1 = .tick → 1 < s.tmr → exec .await s = .next { s with
      chan := s.chan.poll.2, tmr := s.tmr - 1 }) ∧
    (s.chan.poll.1 = .tick → s.tmr = 1 → exec .await s = .next { s with
      chan := s.chan.poll.2, tmr := 0, result := .timedOut, busy := false, phase := .idle }) ∧
    (s.chan.poll.1 = .rxFault → exec .await s = .next { s with
      chan := s.chan.poll.2, fault := true, result := .ioError, busy := false, phase := .idle })

/-- R152 with R150: AWAITANY loads the whole budget and samples `abort` before every poll. The first
byte, whatever it is, ends it OK. -/
def Obligations.AwaitanyTurns : Prop :=
  (∀ s : State, s.Ready → exec .awaitany s = .next { s with
    wild := true, tmr := Config.tTicks, busy := true, phase := .wait }) ∧
  (∀ s : State, s.running = some .awaitany → s.halt = false → s.abort = true →
    exec .awaitany s = .next { s with
      chan := s.chan.flush.2, halt := true, result := .aborted, busy := false, phase := .idle }) ∧
  ∀ s : State, s.Running .awaitany →
    (∀ b, s.chan.poll.1 = .rx b → exec .awaitany s = .next { s with
      chan := s.chan.poll.2, result := .ok, busy := false, phase := .idle }) ∧
    (s.chan.poll.1 = .tick → 1 < s.tmr → exec .awaitany s = .next { s with
      chan := s.chan.poll.2, tmr := s.tmr - 1 }) ∧
    (s.chan.poll.1 = .tick → s.tmr = 1 → exec .awaitany s = .next { s with
      chan := s.chan.poll.2, tmr := 0, result := .timedOut, busy := false, phase := .idle }) ∧
    (s.chan.poll.1 = .rxFault → exec .awaitany s = .next { s with
      chan := s.chan.poll.2, fault := true, result := .ioError, busy := false, phase := .idle })

/-- R153, R67: TRYWR samples `abort`, then makes one write attempt of `B`. WRITTEN queues exactly
that byte; BUSY writes nothing; a fault is IO_ERROR and sticky, and the byte may or may not have
gone out (93 U6). -/
def Obligations.TrywrAttemptsOnce : Prop :=
  (∀ s : State, s.Ready → exec .trywr s = .next { s with
    busy := true, phase := .write }) ∧
  (∀ s : State, s.running = some .trywr → s.halt = false → s.abort = true →
    exec .trywr s = .next { s with
      chan := s.chan.flush.2, halt := true, result := .aborted, busy := false, phase := .idle }) ∧
  ∀ s : State, s.Running .trywr →
    (s.chan.writeDraw = .written → exec .trywr s = .next { s with
      chan := { s.chan.tried with queued := s.chan.queued ++ [s.b] }
      result := .ok, busy := false, phase := .idle }) ∧
    (s.chan.writeDraw = .busy → exec .trywr s = .next { s with
      chan := s.chan.tried, result := .channelBusy, busy := false, phase := .idle }) ∧
    (∀ taken, s.chan.writeDraw = .fault taken → exec .trywr s = .next { s with
      chan := { s.chan.tried with
        queued := if taken then s.chan.queued ++ [s.b] else s.chan.queued }
      fault := true, result := .ioError, busy := false, phase := .idle })

/-- R154, R68: DRAIN samples `abort`, then ends OK when every queued byte has left on the line, in
the order written, and touches no other side of the channel; a fault is IO_ERROR and sticky. -/
def Obligations.DrainSendsAllQueued : Prop :=
  (∀ s : State, s.Ready → exec .drain s = .next { s with
    busy := true, phase := .draining }) ∧
  (∀ s : State, s.running = some .drain → s.halt = false → s.abort = true →
    exec .drain s = .next { s with
      chan := s.chan.flush.2, halt := true, result := .aborted, busy := false, phase := .idle }) ∧
  ∀ s : State, s.Running .drain →
    (s.chan.drainDraw = .done → exec .drain s = .next { s with
      chan := { s.chan.drainTried with sent := s.chan.sent ++ s.chan.queued, queued := [] }
      result := .ok, busy := false, phase := .idle }) ∧
    (∀ left keep, s.chan.drainDraw = .fault left keep → exec .drain s = .next { s with
      chan := s.chan.drain.2
      fault := true, result := .ioError, busy := false, phase := .idle })

/-- R155, R69: FLUSH samples `abort`, then ends OK with both queues empty and nothing sent; a fault
is IO_ERROR and sticky. -/
def Obligations.FlushEmptiesBothQueues : Prop :=
  (∀ s : State, s.Ready → exec .flush s = .next { s with
    busy := true, phase := .flushing }) ∧
  (∀ s : State, s.running = some .flush → s.halt = false → s.abort = true →
    exec .flush s = .next { s with
      chan := s.chan.flush.2, halt := true, result := .aborted, busy := false, phase := .idle }) ∧
  ∀ s : State, s.Running .flush →
    (s.chan.flushDraw = .done → exec .flush s = .next { s with
      chan := { s.chan.flushTried with unread := [], queued := [] }
      result := .ok, busy := false, phase := .idle }) ∧
    (∀ ku kq, s.chan.flushDraw = .fault ku kq → exec .flush s = .next { s with
      chan := s.chan.flush.2
      fault := true, result := .ioError, busy := false, phase := .idle })

/-- R156 items 3 and 4: the frame of the channel commands. They write no operand register, no
buffer, none of `ATT`, `MODE`, `IDX`, nothing outside; with no abort to take, the awaits touch no
transmit side and make no other call than a poll, and the others make no poll. R156 is the spec's
own inference. -/
def Obligations.ChannelCommandsFrame : Prop :=
  ∀ (i : Instr) (s t : State),
    i = .await ∨ i = .awaitany ∨ i = .trywr ∨ i = .drain ∨ i = .flush → exec i s = .next t →
    s.SameOperands t ∧ s.SameOutput t ∧ s.SameOutside t ∧
    t.mode = s.mode ∧ t.att = s.att ∧ t.idx = s.idx ∧ t.retryTick = s.retryTick ∧
    (s.abort = false →
      t.halt = s.halt ∧
      (i = .await ∨ i = .awaitany →
        t.chan.queued = s.chan.queued ∧ t.chan.sent = s.chan.sent ∧
        t.chan.writeCalls = s.chan.writeCalls ∧ t.chan.drainCalls = s.chan.drainCalls ∧
        t.chan.flushCalls = s.chan.flushCalls) ∧
      (i = .trywr ∨ i = .drain ∨ i = .flush →
        t.chan.pollCalls = s.chan.pollCalls ∧ t.tmr = s.tmr ∧ t.wild = s.wild ∧
        t.expb = s.expb))

/-- R156 items 1 and 2, R150 items 3, 4: a wait over a whole script. While fewer TICKs than the
budget have come and no byte has matched, the wait goes on; the first matching byte then ends it OK,
having consumed exactly the draws up to it. R156 is the spec's own inference; the draws are the
model's form of the channel's answers (logs 5, 7). -/
def Obligations.WaitEndsAtFirstMatch : Prop :=
  ∀ (s : State) (ds rest : List PollDraw) (b : Byte),
    s.busy = true → s.phase = .wait → s.halt = false → s.abort = false → s.inputs = [] →
    s.chan.unread = [] → s.chan.pollScript = ds ++ .arrives b :: rest →
    (∀ d ∈ ds, s.leavesWaiting d = true) → quiets ds < s.tmr →
    (s.wild || b == s.expb) = true →
    ∃ t, run (ds.length + 1) s = .next t ∧
      t.result = .ok ∧ t.busy = false ∧ t.phase = .idle ∧ t.fault = s.fault ∧
      t.tmr = s.tmr - quiets ds ∧
      t.chan.pollScript = rest ∧ t.chan.unread = [] ∧
      t.chan.pollCalls = s.chan.pollCalls + ds.length + 1 ∧
      t.chan.writeCalls = s.chan.writeCalls ∧ t.chan.flushCalls = s.chan.flushCalls

/-- R156 items 1 and 2, R150 items 3 and 7: with no matching byte before it, the TICK that spends
the budget ends the wait TIMED_OUT, and every byte before it has been dropped; and by tick fairness
every AWAIT and AWAITANY ends, whatever the channel answers. R156 is the spec's own inference; the
draws are the model's form of the channel's answers (logs 5, 7), their fairness log 9. -/
def Obligations.WaitTimesOutAtLastTick : Prop :=
  (∀ (s : State) (ds rest : List PollDraw),
    s.busy = true → s.phase = .wait → s.halt = false → s.abort = false → s.inputs = [] →
    s.chan.unread = [] → s.chan.pollScript = ds ++ .quiet :: rest →
    (∀ d ∈ ds, s.leavesWaiting d = true) → quiets ds + 1 = s.tmr →
    ∃ t, run (ds.length + 1) s = .next t ∧
      t.result = .timedOut ∧ t.busy = false ∧ t.phase = .idle ∧ t.fault = s.fault ∧
      t.chan.pollScript = rest ∧ t.chan.unread = [] ∧
      t.chan.pollCalls = s.chan.pollCalls + ds.length + 1) ∧
  ∀ s : State, s.Inv → s.running = some .await ∨ s.running = some .awaitany → s.inputs = [] →
    ∃ n t, run n s = .next t ∧ t.busy = false

/-! ### Monitor Handshake (42_handshake.md) -/

/-- R177, R178, R172: HSINIT and HSPOST load `MODE`, clear `ATT` and begin at step 1; step 1, in
both modes: DONE leaves both queues empty and goes on to step 2; a fault ends the command. -/
def Obligations.HandshakeStepOneFlushes : Prop :=
  (∀ s : State, s.Ready →
    exec .hsinit s = .next { s with mode := .initial, att := 0, busy := true, phase := .hsFlush } ∧
    exec .hspost s = .next { s with mode := .postload, att := 0, busy := true, phase := .hsFlush }) ∧
  ∀ (i : Instr) (s : State), i = .hsinit ∨ i = .hspost → s.Running i → s.phase = .hsFlush →
    (s.chan.flushDraw = .done → exec i s = .next { s with
      chan := { s.chan.flushTried with unread := [], queued := [] }, phase := .hsAttn }) ∧
    (∀ ku kq, s.chan.flushDraw = .fault ku kq → exec i s = .next { s with
      chan := s.chan.flush.2
      fault := true, result := .ioError, busy := false, phase := .idle })

/-- R173: step 2 of initial-contact mode. One attempt to write 0x7F; WRITTEN and BUSY both go on to
the wait for `K`; a fault ends the command. -/
def Obligations.HandshakeSendsAttention : Prop :=
  ∀ s : State, s.Running .hsinit → s.phase = .hsAttn →
    (s.chan.writeDraw = .written → exec .hsinit s = .next { s with
      chan := { s.chan.tried with queued := s.chan.queued ++ [0x7F] }
      idx := 0, wild := false, expb := 0x4B, tmr := Config.tTicks, phase := .hsMatch }) ∧
    (s.chan.writeDraw = .busy → exec .hsinit s = .next { s with
      chan := s.chan.tried
      idx := 0, wild := false, expb := 0x4B, tmr := Config.tTicks, phase := .hsMatch }) ∧
    (∀ taken, s.chan.writeDraw = .fault taken → exec .hsinit s = .next { s with
      chan := (s.chan.tryWrite 0x7F).2
      fault := true, result := .ioError, busy := false, phase := .idle })

/-- R174: step 2 of post-load mode. The attempt is counted; up to ten go on to step 3, the 11th pass
ends the command TIMED_OUT with `ATT = 11`; the channel is not called, and so `abort`, at whatever
level, is not sampled (log 11). -/
def Obligations.HandshakeCountsAttempts : Prop :=
  ∀ s : State, s.running = some .hspost → s.halt = false → s.phase = .hsAttn →
    (s.att.toNat ≤ 9 → exec .hspost s = .next { s with
      att := s.att + 1
      idx := 0, wild := false, expb := 0x4B, tmr := Config.tTicks, phase := .hsMatch }) ∧
    (s.att = 10 → exec .hspost s = .next { s with
      att := 11, result := .timedOut, busy := false, phase := .idle })

/-- R175: step 3, in both modes. It begins with the wait for `K`; the awaited byte moves on to the
next of `K I M LF space space` with a fresh budget, after the sixth to step 4; another byte is
dropped; the TICK that spends the budget restarts the attempt; a fault ends the command. A restart
also raises the caller's count of `retry_tick` pulses, which is the model's (log 19). -/
def Obligations.HandshakeMatchesBanner : Prop :=
  (∀ (i : Instr) (s t : State), i = .hsinit ∨ i = .hspost → s.Running i → s.phase = .hsAttn →
    exec i s = .next t → t.phase = .hsMatch →
    t.idx = 0 ∧ t.wild = false ∧ t.expb = 0x4B ∧ t.tmr = Config.tTicks) ∧
  ∀ (i : Instr) (s : State), i = .hsinit ∨ i = .hspost → s.Running i → s.phase = .hsMatch →
    s.wild = false →
    (s.chan.poll.1 = .rx s.expb → ∀ h : s.idx.val < 5, exec i s = .next { s with
      chan := s.chan.poll.2
      idx := ⟨s.idx.val + 1, by omega⟩
      expb := #v[(0x4B : Byte), 0x49, 0x4D, 0x0A, 0x20, 0x20][s.idx.val + 1]'(by omega)
      tmr := Config.tTicks }) ∧
    (s.chan.poll.1 = .rx s.expb → s.idx.val = 5 → exec i s = .next { s with
      chan := s.chan.poll.2, wild := true, tmr := Config.tTicks, phase := .hsQuiet }) ∧
    (∀ b, s.chan.poll.1 = .rx b → b ≠ s.expb →
      exec i s = .next { s with chan := s.chan.poll.2 }) ∧
    (s.chan.poll.1 = .tick → 1 < s.tmr → exec i s = .next { s with
      chan := s.chan.poll.2, tmr := s.tmr - 1 }) ∧
    (s.chan.poll.1 = .tick → s.tmr = 1 → exec i s = .next { s with
      chan := s.chan.poll.2, tmr := 0, retryTick := true
      host := { s.host with retries := s.host.retries + 1 }, phase := .hsFlush }) ∧
    (s.chan.poll.1 = .rxFault → exec i s = .next { s with
      chan := s.chan.poll.2, fault := true, result := .ioError, busy := false, phase := .idle })

/-- R176: step 4, in both modes. It begins with a wildcard wait of the whole budget; a byte,
whatever it is, restarts the attempt; silence for the whole budget ends the command OK; a fault ends
it with IO_ERROR. A restart also raises the caller's count of `retry_tick` pulses, which is the
model's (log 19). -/
def Obligations.HandshakeAwaitsSilence : Prop :=
  (∀ (i : Instr) (s t : State), i = .hsinit ∨ i = .hspost → s.Running i → s.phase = .hsMatch →
    exec i s = .next t → t.phase = .hsQuiet → t.wild = true ∧ t.tmr = Config.tTicks) ∧
  ∀ (i : Instr) (s : State), i = .hsinit ∨ i = .hspost → s.Running i → s.phase = .hsQuiet →
    s.wild = true →
    (∀ b, s.chan.poll.1 = .rx b → exec i s = .next { s with
      chan := s.chan.poll.2, retryTick := true
      host := { s.host with retries := s.host.retries + 1 }, phase := .hsFlush }) ∧
    (s.chan.poll.1 = .tick → 1 < s.tmr → exec i s = .next { s with
      chan := s.chan.poll.2, tmr := s.tmr - 1 }) ∧
    (s.chan.poll.1 = .tick → s.tmr = 1 → exec i s = .next { s with
      chan := s.chan.poll.2, tmr := 0, result := .ok, busy := false, phase := .idle }) ∧
    (s.chan.poll.1 = .rxFault → exec i s = .next { s with
      chan := s.chan.poll.2, fault := true, result := .ioError, busy := false, phase := .idle })

/-- R181: `retry_tick` is asserted by a step exactly when that step decides that an attempt fails: a
wait of step 3 or step 4 in progress goes back to step 1. It is advisory: what a step does never
depends on it. The one-step pulse is log 19. -/
def Obligations.RetryTickMarksFailedAttempts : Prop :=
  (∀ s t : State, step s = .next t →
    (t.retryTick = true ↔
      s.busy = true ∧ (s.phase = .hsMatch ∨ s.phase = .hsQuiet) ∧ t.phase = .hsFlush)) ∧
  ∀ (s : State) (v : Bool), step { s with retryTick := v } = step s

/-- R177: HSINIT never ends TIMED_OUT; it ends OK, IO_ERROR or ABORTED. -/
def Obligations.HsinitNeverTimesOut : Prop :=
  ∀ s t : State, s.running = some .hsinit → exec .hsinit s = .next t → t.busy = false →
    t.result = .ok ∨ t.result = .ioError ∨ t.result = .aborted

/-- R178, R174: HSPOST sends no byte at any step. -/
def Obligations.HspostSendsNothing : Prop :=
  ∀ s t : State, exec .hspost s = .next t →
    t.chan.writeCalls = s.chan.writeCalls ∧ t.chan.drainCalls = s.chan.drainCalls ∧
    t.chan.sent = s.chan.sent ∧ ∀ x ∈ t.chan.queued, x ∈ s.chan.queued

/-- The frame of the handshake commands: they write no operand register and no buffer, make no
drain, and nothing outside but the caller's count of `retry_tick` pulses, which goes up by one
exactly with a restart, the step that asserts `retry_tick`; with no abort to take, `HALT` stays. The
caller's count is log 19. -/
def Obligations.HandshakeCommandsFrame : Prop :=
  ∀ (i : Instr) (s t : State), i = .hsinit ∨ i = .hspost → exec i s = .next t →
    s.SameOperands t ∧ s.SameOutput t ∧ t.abort = s.abort ∧ t.inputs = s.inputs ∧
    t.chan.drainCalls = s.chan.drainCalls ∧ t.chan.sent = s.chan.sent ∧
    (s.abort = false → t.halt = s.halt) ∧
    (if s.restarts i t then
      t.host = { s.host with retries := s.host.retries + 1 } ∧ t.retryTick = true
    else t.host = s.host ∧ t.retryTick = s.retryTick)

/-- R178, R183, source property S5: on a silent channel HSPOST fails after exactly ten attempts: 11
flushes, 10 × T_TICKS polls, no write, ten `retry_tick` pulses, `ATT = 11`; and HSPOST always ends,
whatever the channel answers. The draws are the model's form of the channel's answers (logs 5, 7),
their fairness log 9. -/
def Obligations.HspostFailsOnSilence : Prop :=
  (∀ (s : State) (polls : List PollDraw) (flushes : List FlushDraw),
    s.busy = true → s.phase = .hsFlush → s.mode = .postload → s.att = 0 → s.halt = false →
    s.abort = false → s.inputs = [] → s.chan.unread = [] →
    s.chan.pollScript = List.replicate (10 * Config.tTicks) .quiet ++ polls →
    s.chan.flushScript = List.replicate 11 .done ++ flushes →
    ∃ t, run (10 * (Config.tTicks + 2) + 2) s = .next t ∧
      t.result = .timedOut ∧ t.att = 11 ∧ t.busy = false ∧ t.phase = .idle ∧
      t.fault = s.fault ∧ t.halt = false ∧
      t.chan.flushCalls = s.chan.flushCalls + 11 ∧
      t.chan.pollCalls = s.chan.pollCalls + 10 * Config.tTicks ∧
      t.chan.writeCalls = s.chan.writeCalls ∧
      t.host.retries = s.host.retries + 10 ∧
      t.chan.pollScript = polls ∧ t.chan.flushScript = flushes) ∧
  ∀ s : State, s.Inv → s.running = some .hspost → s.inputs = [] →
    ∃ n t, run n s = .next t ∧ t.busy = false

/-- R177, R180: a clean occurrence of the banner, in initial-contact mode: flush, the attention byte
written or refused, the six bytes, then silence for T_TICKS TICKs, is success, in the first attempt.
The draws are the model's form of the channel's answers (logs 5, 7). -/
def Obligations.HsinitSucceedsOnCleanBanner : Prop :=
  ∀ (s : State) (polls : List PollDraw) (flushes : List FlushDraw) (w : WriteDraw)
    (writes : List WriteDraw),
    s.busy = true → s.phase = .hsFlush → s.mode = .initial → s.halt = false →
    s.abort = false → s.inputs = [] →
    s.chan.flushScript = .done :: flushes → s.chan.writeScript = w :: writes →
    (w = .written ∨ w = .busy) →
    s.chan.pollScript = [.arrives 0x4B, .arrives 0x49, .arrives 0x4D, .arrives 0x0A,
      .arrives 0x20, .arrives 0x20] ++ List.replicate Config.tTicks .quiet ++ polls →
    ∃ t, run (8 + Config.tTicks) s = .next t ∧
      t.result = .ok ∧ t.busy = false ∧ t.phase = .idle ∧ t.att = s.att ∧
      t.fault = s.fault ∧ t.host.retries = s.host.retries ∧
      t.chan.queued = (if w = .written then [0x7F] else []) ∧
      t.chan.pollScript = polls ∧ t.chan.pollCalls = s.chan.pollCalls + 6 + Config.tTicks

/-- R180: noise before and inside the banner is tolerated. In step 3, draws with fewer TICKs than
the budget and without the awaited byte leave the attempt where it is; the awaited byte then moves
it on with a fresh budget. R180 is the spec's own inference; the draws are the model's form of the
channel's answers (logs 5, 7). -/
def Obligations.HandshakeToleratesNoise : Prop :=
  ∀ (s : State) (ds rest : List PollDraw),
    s.busy = true → s.phase = .hsMatch → s.wild = false → s.halt = false → s.abort = false →
    s.inputs = [] → s.chan.unread = [] →
    s.chan.pollScript = ds ++ .arrives s.expb :: rest →
    (∀ d ∈ ds, s.leavesWaiting d = true) → quiets ds < s.tmr →
    ∃ t, run (ds.length + 1) s = .next t ∧
      t.busy = true ∧ t.tmr = Config.tTicks ∧ t.att = s.att ∧ t.mode = s.mode ∧
      t.host.retries = s.host.retries ∧ t.retryTick = false ∧
      t.chan.pollScript = rest ∧ t.chan.unread = [] ∧
      (if s.idx.val = 5 then t.phase = .hsQuiet ∧ t.wild = true
        else t.phase = .hsMatch ∧ t.wild = false ∧ t.idx.val = s.idx.val + 1 ∧
          t.expb = bannerByte t.idx)

/-- R183: the TICKs a post-load handshake can still consume. They start at 10 × (7T - 6), no step
raises them, and every TICK consumed lowers them by at least one. R183 is the spec's own inference;
the measure is the model's. -/
def Obligations.HspostTickBudgetBounds : Prop :=
  (∀ s t : State, s.Ready → exec .hspost s = .next t →
    t.tickBudget = 10 * (7 * Config.tTicks - 6)) ∧
  (∀ s t : State, s.Inv → s.running = some .hspost → s.abort = false →
    exec .hspost s = .next t →
    t.tickBudget ≤ s.tickBudget ∧
    (s.phase.waiting = true → s.chan.poll.1 = .tick → t.tickBudget + 1 ≤ s.tickBudget))

/-! ### Results, faults, abort (60_exceptions.md) -/

/-- R237: `abort` between commands: one flush, its answer ignored, `HALT` set; `RESULT` and `FAULT`
stay, and no pending event is used up. That the abort comes before other events is log 11. -/
def Obligations.AbortBetweenCommands : Prop :=
  ∀ s : State, s.abort = true → s.halt = false → s.busy = false →
    s.inputs.head? ≠ some .reset →
    step s = .next { s with
      retryTick := false, chan := s.chan.flush.2, halt := true, phase := .idle }

/-- R237: `abort` sampled in front of a primitive call of a running command: one flush, no other
call, `HALT` set, the command ends ABORTED, `FAULT` stays. In step 2 of post-load mode there is no
call and no sample. That step 2 takes no sample is log 11. -/
def Obligations.AbortEndsRunningCommand : Prop :=
  ∀ (s : State) (i : Instr), s.running = some i → s.abort = true → s.halt = false →
    ¬ (s.phase = .hsAttn ∧ s.mode = .postload) →
    exec i s = .next { s with
      chan := s.chan.flush.2, halt := true, result := .aborted, busy := false, phase := .idle } ∧
    s.chan.flush.2.flushCalls = s.chan.flushCalls + 1 ∧
    s.chan.flush.2.pollCalls = s.chan.pollCalls ∧ s.chan.flush.2.writeCalls = s.chan.writeCalls ∧
    s.chan.flush.2.drainCalls = s.chan.drainCalls

/-- R234, R240: once `FAULT` is 1 and the block idle, no step but the abort's flush calls the
channel, and none starts a command. -/
def Obligations.FaultStopsChannelAndStarts : Prop :=
  ∀ s t : State, step s = .next t → s.fault = true → s.busy = false → s.abort = false →
    t.chan.calls = s.chan.calls ∧ t.busy = false

/-- D27, R71: a step makes at most one channel primitive call. -/
def Obligations.OneChannelCallPerStep : Prop :=
  ∀ s t : State, step s = .next t → t.chan.calls ≤ s.chan.calls + 1

/-- R21 to R24: no command writes `A`, `N`, `B` or `DBUF`. R25: no command but an encode command
that ends OK writes `OBUF` or `OLEN`, and it writes both. -/
def Obligations.CommandsKeepOperandsAndOutput : Prop :=
  ∀ (i : Instr) (s t : State), exec i s = .next t →
    s.SameOperands t ∧
    (s.SameOutput t ∨
      (i = .encd ∨ i = .ence ∨ i = .encx) ∧ t.result = .ok ∧ t.olen.toNat = t.obuf.length)

/-! ### Invariant -/

/-- From every state that meets the invariant, a step gives a state that meets it. -/
def Obligations.StepKeepsTheMachineSound : Prop :=
  ∀ s t : State, s.Inv → step s = .next t → t.Inv

/-- The invariant holds at reset. -/
def Obligations.ResetIsSound : Prop :=
  State.reset.Inv

/-- In a state that meets the invariant a step never faults but by an ENCD, just written, with a
legal count and a data cell that holds no value, and refuses only a host read of a register number
without a value. Both stops are the treatments of 93 U3 and U4 (logs 3, 4). -/
def Obligations.StepStopsOnlyByName : Prop :=
  ∀ s : State, s.Inv →
    (∃ t, step s = .next t) ∨
    (∃ k, step s = .fault (.dbufUnwritten k) ∧ s.hostWrites cmdReg 0x01 ∧
      k < s.n.toNat ∧ s.n.toNat ≤ 24 ∧ s.dbufRead k = none) ∨
    (∃ r, step s = .refused (.readNoValue r) ∧ s.hostReads r ∧ s.regRead r = none)

/-! ### Reset (70_reset_and_hazards.md) -/

/-- R260 to R262, R42: what the `reset` input leaves, from every state: the values R261 states;
nothing of the session (the host's software state is that of a new process); no channel primitive is
called, and with none in progress the channel is as it was. A primitive in progress has an unknown
effect, but bytes that have left stay so. That reset is one event, that a primitive may be in
progress where one is due, and that the model's counts, the `abort` pin and the events still to come
stay, is log 12. -/
def Obligations.ResetInputRestoresBlock : Prop :=
  ∀ (s : State) (rest : List Input), s.inputs = .reset :: rest →
    ∃ t, step s = .next t ∧ t.phase = .idle ∧ t.busy = false ∧ t.fault = false ∧
      t.halt = false ∧ t.result = .ok ∧ t.olen = 0 ∧ t.obuf = [] ∧ t.att = 0 ∧
      t.retryTick = false ∧ (∀ i, t.dbufRead i = none) ∧ t.inputs = rest ∧ t.abort = s.abort ∧
      t.host = .initial ∧ t.chan.calls = s.chan.calls ∧ s.chan.sent <+: t.chan.sent ∧
      (s.callDue = false → t.chan = s.chan)

/-! ### Host register port (10_state.md R43) -/

/-- R43: what each readable register number reads as; and a host read of a number with a value
answers it to the host and changes nothing else (R71). The clauses for `B`, `A` and `N` also hold of
registers the host has not written, where R265 gives no value: there the value is the model's (log
1). -/
def Obligations.RegisterMapReads : Prop :=
  (∀ s : State,
    (∃ v, s.regRead 0x01 = some v ∧ v.getLsbD 0 = s.busy ∧ v.getLsbD 1 = s.fault ∧
      v.getLsbD 2 = s.halt ∧ v.toNat < 8) ∧
    (s.busy = false → s.regRead 0x02 = some (match s.result with
      | .ok => 0 | .timedOut => 1 | .channelBusy => 2 | .ioError => 3 | .usageError => 4
      | .illegalCmd => 5 | .aborted => 6)) ∧
    s.regRead 0x03 = some s.b ∧
    s.regRead 0x04 = some (s.a.extractLsb' 0 8) ∧ s.regRead 0x05 = some (s.a.extractLsb' 8 8) ∧
    s.regRead 0x06 = some s.n ∧
    s.regRead 0x07 = some (BitVec.ofNat 8 s.olen.toNat) ∧
    (∀ i, i < 24 → s.regRead (0x20 + i) = s.dbufRead i) ∧
    (∀ i, i < s.olen.toNat → s.regRead (0x40 + i) = s.obuf[i]?)) ∧
  ∀ (s : State) (r : Nat) (v : Byte) (rest : List Input), s.inputs = .read r :: rest →
    s.abortDue = false → s.regRead r = some v →
    step s = .next { s with
      retryTick := false, inputs := rest, host := { s.host with readData := some v } }

/-- R43, R265: a read with no value, `CMD`, `RESULT` while `BUSY = 1`, an unassigned number, a
`DBUF` cell never written, `OBUF[i]` with `i ≥ OLEN`, is refused by name. The refusal is the
treatment of 93 U4 (logs 3, 4). -/
def Obligations.ReadsWithoutValueAreRefused : Prop :=
  ∀ (s : State) (r : Nat) (rest : List Input), s.inputs = .read r :: rest →
    s.abortDue = false →
    (r = 0 ∨ (r = 2 ∧ s.busy = true) ∨ (8 ≤ r ∧ r < 0x20) ∨
      (0x20 ≤ r ∧ r < 0x38 ∧ s.dbufRead (r - 0x20) = none) ∨ (0x38 ≤ r ∧ r < 0x40) ∨
      0x40 + s.olen.toNat ≤ r) →
    step s = .refused (.readNoValue r)

/-- R43, R21 to R24: a step that takes a host write to an operand register or a `DBUF` cell of an
idle block changes that register or cell alone; a write to any other number but `CMD` changes
nothing. That read-only numbers take no write is log 14, the order of events log 13. -/
def Obligations.RegisterMapWrites : Prop :=
  ∀ (s : State) (r : Nat) (v : Byte) (rest : List Input), s.inputs = .write r v :: rest →
    s.busy = false → s.abortDue = false →
    let u : State := { s with retryTick := false, inputs := rest }
    (r = 0x03 → step s = .next { u with b := v }) ∧
    (r = 0x06 → step s = .next { u with n := v }) ∧
    (r = 0x04 → ∃ a', step s = .next { u with a := a' } ∧
      a'.toNat = s.a.toNat / 256 * 256 + v.toNat) ∧
    (r = 0x05 → ∃ a', step s = .next { u with a := a' } ∧
      a'.toNat = v.toNat * 256 + s.a.toNat % 256) ∧
    (∀ i, i < 24 → r = 0x20 + i → ∃ m, step s = .next { u with dbuf := m } ∧
      { u with dbuf := m }.dbufRead i = some v ∧
      ∀ j, j ≠ i → { u with dbuf := m }.dbufRead j = s.dbufRead j) ∧
    (r = 0x01 ∨ r = 0x02 ∨ (0x07 ≤ r ∧ r < 0x20) ∨ 0x38 ≤ r → step s = .next u)

/-! ### Host software (43_host_sequences.md) -/

/-- R202: after each TRYWR of `WRITE_ALL`, OK goes on, CHANNEL_BUSY tries the same byte again,
IO_ERROR ends the session. The form of the host software is the model's (logs 15, 16). -/
def Obligations.WriteAllRetriesBusyBytes : Prop :=
  ∀ (s : State) (ops : List HostOp), s.inputs = [] → s.busy = false → s.halt = false →
    s.abort = false → s.host.prog = .checkWrite :: ops →
    (s.result = .ok → step s = .next { s with
      retryTick := false, host := { s.host with prog := ops } }) ∧
    (s.result = .channelBusy → step s = .next { s with
      retryTick := false, host := { s.host with prog := .tryByte :: ops } }) ∧
    (s.result = .ioError → step s = .next { s with
      retryTick := false, host := { s.host with prog := [], ended := some .ioFault } })

/-- R207: in raw relay the session dies only when the write did not happen and no echo came. The
form of the host software is the model's (logs 15, 16). -/
def Obligations.RelayDiesOnlyWhenBothFail : Prop :=
  ∀ (s : State) (x : Byte) (wrote : Bool) (ops : List HostOp), s.inputs = [] → s.busy = false →
    s.halt = false → s.abort = false → s.host.prog = .relayEchoed x wrote :: ops →
    s.result ≠ .ioError →
    (wrote = false ∧ s.result = .timedOut → step s = .next { s with
      retryTick := false, host := { s.host with prog := [], ended := some .transferError } }) ∧
    (wrote = true ∨ s.result ≠ .timedOut → step s = .next { s with
      retryTick := false
      host := { s.host with
        prog := ops, progress := if x = 0x0A then s.host.progress + 1 else s.host.progress } })

/-- R203, R205 items 1 to 3: one chunk of a task. The chunk and what is left rebuild the source; a
chunk has 1 to 24 bytes, fewer than 24 only at the end; the next chunk's address is advanced by its
length; a task with nothing left is dropped without a record. The form of the host software is the
model's (logs 15, 16). -/
def Obligations.ChunkingRebuildsTheSource : Prop :=
  ∀ (s : State) (t : Task) (tasks : List Task), t.addr < 65536 →
    (t.source = [] → s.loadChunk (t :: tasks) = s.push [.loadChunked tasks]) ∧
    (t.source ≠ [] → ∃ chunk left, t.source = chunk ++ left ∧
      1 ≤ chunk.length ∧ chunk.length ≤ 24 ∧ (chunk.length < 24 → left = []) ∧
      s.loadChunk (t :: tasks) = s.push
        ([.set 0x04 (lo8 (BitVec.ofNat 16 t.addr)), .set 0x05 (hi8 (BitVec.ofNat 16 t.addr)),
          .set 0x06 (BitVec.ofNat 8 chunk.length)] ++
         (chunk.mapIdx fun i x => .set (0x20 + i) x) ++
         [.set cmdReg 0x01, .checkIo, .writeObuf, .set cmdReg 0x13, .checkIo, .discardEcho,
          .countRecord,
          if chunk.length < 24 then .loadChunked tasks
          else .loadChunked (⟨t.addr + chunk.length, left⟩ :: tasks)]))

/-- R210: a session given both chunked tasks and a relay source ends at once as a usage error, with
no register access and no channel call. The form of the host software is log 15. That it also holds
with `HALT = 1` is log 26. -/
def Obligations.UsageErrorBeforeAnyChannelCall : Prop :=
  ∀ (s : State) (cfg : SessionConfig) (ops : List HostOp), s.inputs = [] → s.busy = false →
    (s.abort = true → s.halt = true) → s.host.prog = .session cfg :: ops →
    cfg.relay.isSome = true → cfg.tasks ≠ [] →
    step s = .next { s with
      retryTick := false, host := { s.host with prog := [], ended := some .usageError } }

/-- R209: the session. Contact, load, confirmation, the execute trigger if there is an address,
success; a confirmation that timed out ends it as a load-confirmation failure. The form of the host
software is the model's (logs 15, 16). -/
def Obligations.SessionFollowsTheFlow : Prop :=
  ∀ s : State, s.inputs = [] → s.busy = false → s.halt = false → s.abort = false →
    (∀ (cfg : SessionConfig) (ops : List HostOp), s.host.prog = .session cfg :: ops →
      (cfg.relay = none ∨ cfg.tasks = []) →
      ∃ m load trigger, step s = .next { s with
        retryTick := false
        host := { s.host with
          recs := 0, mode := m, ended := none
          prog := [.set cmdReg 0x20, .checkIo, load, .set cmdReg 0x21, .checkConfirm] ++ trigger
            ++ [.exitSuccess] ++ ops } } ∧
        (∀ source, cfg.relay = some source → m = .rawRelay ∧ load = .rawRelay source) ∧
        (cfg.relay = none → m = .normalChunked ∧ load = .loadChunked cfg.tasks) ∧
        (∀ a, cfg.exec = some a → trigger = [.execTrigger a]) ∧
        (cfg.exec = none → trigger = [])) ∧
    (∀ ops, s.host.prog = .checkConfirm :: ops → s.result = .timedOut →
      step s = .next { s with
        retryTick := false
        host := { s.host with prog := [], ended := some .loadConfirmationFailure } }) ∧
    (∀ ops, s.host.prog = .exitSuccess :: ops →
      step s = .next { s with
        retryTick := false, host := { s.host with prog := [], ended := some .success } })

/-- R208: the execute trigger. Flush, encode and write the execute command, drain, three waits for a
space, then the byte `G`. The form of the host software is the model's (logs 15, 16). That it also
holds with `HALT = 1` is log 26. -/
def Obligations.ExecuteTriggerSequence : Prop :=
  ∀ (s : State) (a : Word) (ops : List HostOp), s.inputs = [] → s.busy = false →
    (s.abort = true → s.halt = true) → s.host.prog = .execTrigger a :: ops →
    step s = .next { s with
      retryTick := false
      host := { s.host with
        prog := [.set cmdReg 0x14, .checkIo, .set 0x04 (a.extractLsb' 0 8),
          .set 0x05 (a.extractLsb' 8 8), .set cmdReg 0x03, .checkIo, .writeObuf, .set cmdReg 0x13,
          .checkIo, .awaitSpace, .awaitSpace, .awaitSpace, .writeAll [0x47]] ++ ops } }
end

