-- ==== Sys2Proof/Laws/State.lean ====
section
/-!
SUPPORT. What each named update of the state, of the channel and of the host does to each field: one
lemma a field and update, each true by unfolding, so that no later proof unfolds a record update.
-/

namespace Sys2Proof.Machine

/-! ### `State.withChan` -/

@[simp] theorem State.withChan_a (s : State) (c : Channel) :
    (s.withChan c).a = s.a := rfl

@[simp] theorem State.withChan_n (s : State) (c : Channel) :
    (s.withChan c).n = s.n := rfl

@[simp] theorem State.withChan_b (s : State) (c : Channel) :
    (s.withChan c).b = s.b := rfl

@[simp] theorem State.withChan_dbuf (s : State) (c : Channel) :
    (s.withChan c).dbuf = s.dbuf := rfl

@[simp] theorem State.withChan_obuf (s : State) (c : Channel) :
    (s.withChan c).obuf = s.obuf := rfl

@[simp] theorem State.withChan_olen (s : State) (c : Channel) :
    (s.withChan c).olen = s.olen := rfl

@[simp] theorem State.withChan_result (s : State) (c : Channel) :
    (s.withChan c).result = s.result := rfl

@[simp] theorem State.withChan_busy (s : State) (c : Channel) :
    (s.withChan c).busy = s.busy := rfl

@[simp] theorem State.withChan_fault (s : State) (c : Channel) :
    (s.withChan c).fault = s.fault := rfl

@[simp] theorem State.withChan_halt (s : State) (c : Channel) :
    (s.withChan c).halt = s.halt := rfl

@[simp] theorem State.withChan_phase (s : State) (c : Channel) :
    (s.withChan c).phase = s.phase := rfl

@[simp] theorem State.withChan_mode (s : State) (c : Channel) :
    (s.withChan c).mode = s.mode := rfl

@[simp] theorem State.withChan_att (s : State) (c : Channel) :
    (s.withChan c).att = s.att := rfl

@[simp] theorem State.withChan_idx (s : State) (c : Channel) :
    (s.withChan c).idx = s.idx := rfl

@[simp] theorem State.withChan_tmr (s : State) (c : Channel) :
    (s.withChan c).tmr = s.tmr := rfl

@[simp] theorem State.withChan_wild (s : State) (c : Channel) :
    (s.withChan c).wild = s.wild := rfl

@[simp] theorem State.withChan_expb (s : State) (c : Channel) :
    (s.withChan c).expb = s.expb := rfl

@[simp] theorem State.withChan_retryTick (s : State) (c : Channel) :
    (s.withChan c).retryTick = s.retryTick := rfl

@[simp] theorem State.withChan_abort (s : State) (c : Channel) :
    (s.withChan c).abort = s.abort := rfl

@[simp] theorem State.withChan_inputs (s : State) (c : Channel) :
    (s.withChan c).inputs = s.inputs := rfl

@[simp] theorem State.withChan_chan (s : State) (c : Channel) :
    (s.withChan c).chan = c := rfl

@[simp] theorem State.withChan_host (s : State) (c : Channel) :
    (s.withChan c).host = s.host := rfl

/-! ### `State.withHost` -/

@[simp] theorem State.withHost_a (s : State) (h : HostSide) :
    (s.withHost h).a = s.a := rfl

@[simp] theorem State.withHost_n (s : State) (h : HostSide) :
    (s.withHost h).n = s.n := rfl

@[simp] theorem State.withHost_b (s : State) (h : HostSide) :
    (s.withHost h).b = s.b := rfl

@[simp] theorem State.withHost_dbuf (s : State) (h : HostSide) :
    (s.withHost h).dbuf = s.dbuf := rfl

@[simp] theorem State.withHost_obuf (s : State) (h : HostSide) :
    (s.withHost h).obuf = s.obuf := rfl

@[simp] theorem State.withHost_olen (s : State) (h : HostSide) :
    (s.withHost h).olen = s.olen := rfl

@[simp] theorem State.withHost_result (s : State) (h : HostSide) :
    (s.withHost h).result = s.result := rfl

@[simp] theorem State.withHost_busy (s : State) (h : HostSide) :
    (s.withHost h).busy = s.busy := rfl

@[simp] theorem State.withHost_fault (s : State) (h : HostSide) :
    (s.withHost h).fault = s.fault := rfl

@[simp] theorem State.withHost_halt (s : State) (h : HostSide) :
    (s.withHost h).halt = s.halt := rfl

@[simp] theorem State.withHost_phase (s : State) (h : HostSide) :
    (s.withHost h).phase = s.phase := rfl

@[simp] theorem State.withHost_mode (s : State) (h : HostSide) :
    (s.withHost h).mode = s.mode := rfl

@[simp] theorem State.withHost_att (s : State) (h : HostSide) :
    (s.withHost h).att = s.att := rfl

@[simp] theorem State.withHost_idx (s : State) (h : HostSide) :
    (s.withHost h).idx = s.idx := rfl

@[simp] theorem State.withHost_tmr (s : State) (h : HostSide) :
    (s.withHost h).tmr = s.tmr := rfl

@[simp] theorem State.withHost_wild (s : State) (h : HostSide) :
    (s.withHost h).wild = s.wild := rfl

@[simp] theorem State.withHost_expb (s : State) (h : HostSide) :
    (s.withHost h).expb = s.expb := rfl

@[simp] theorem State.withHost_retryTick (s : State) (h : HostSide) :
    (s.withHost h).retryTick = s.retryTick := rfl

@[simp] theorem State.withHost_abort (s : State) (h : HostSide) :
    (s.withHost h).abort = s.abort := rfl

@[simp] theorem State.withHost_inputs (s : State) (h : HostSide) :
    (s.withHost h).inputs = s.inputs := rfl

@[simp] theorem State.withHost_chan (s : State) (h : HostSide) :
    (s.withHost h).chan = s.chan := rfl

@[simp] theorem State.withHost_host (s : State) (h : HostSide) :
    (s.withHost h).host = h := rfl

/-! ### `State.withInputs` -/

@[simp] theorem State.withInputs_a (s : State) (es : List Input) :
    (s.withInputs es).a = s.a := rfl

@[simp] theorem State.withInputs_n (s : State) (es : List Input) :
    (s.withInputs es).n = s.n := rfl

@[simp] theorem State.withInputs_b (s : State) (es : List Input) :
    (s.withInputs es).b = s.b := rfl

@[simp] theorem State.withInputs_dbuf (s : State) (es : List Input) :
    (s.withInputs es).dbuf = s.dbuf := rfl

@[simp] theorem State.withInputs_obuf (s : State) (es : List Input) :
    (s.withInputs es).obuf = s.obuf := rfl

@[simp] theorem State.withInputs_olen (s : State) (es : List Input) :
    (s.withInputs es).olen = s.olen := rfl

@[simp] theorem State.withInputs_result (s : State) (es : List Input) :
    (s.withInputs es).result = s.result := rfl

@[simp] theorem State.withInputs_busy (s : State) (es : List Input) :
    (s.withInputs es).busy = s.busy := rfl

@[simp] theorem State.withInputs_fault (s : State) (es : List Input) :
    (s.withInputs es).fault = s.fault := rfl

@[simp] theorem State.withInputs_halt (s : State) (es : List Input) :
    (s.withInputs es).halt = s.halt := rfl

@[simp] theorem State.withInputs_phase (s : State) (es : List Input) :
    (s.withInputs es).phase = s.phase := rfl

@[simp] theorem State.withInputs_mode (s : State) (es : List Input) :
    (s.withInputs es).mode = s.mode := rfl

@[simp] theorem State.withInputs_att (s : State) (es : List Input) :
    (s.withInputs es).att = s.att := rfl

@[simp] theorem State.withInputs_idx (s : State) (es : List Input) :
    (s.withInputs es).idx = s.idx := rfl

@[simp] theorem State.withInputs_tmr (s : State) (es : List Input) :
    (s.withInputs es).tmr = s.tmr := rfl

@[simp] theorem State.withInputs_wild (s : State) (es : List Input) :
    (s.withInputs es).wild = s.wild := rfl

@[simp] theorem State.withInputs_expb (s : State) (es : List Input) :
    (s.withInputs es).expb = s.expb := rfl

@[simp] theorem State.withInputs_retryTick (s : State) (es : List Input) :
    (s.withInputs es).retryTick = s.retryTick := rfl

@[simp] theorem State.withInputs_abort (s : State) (es : List Input) :
    (s.withInputs es).abort = s.abort := rfl

@[simp] theorem State.withInputs_inputs (s : State) (es : List Input) :
    (s.withInputs es).inputs = es := rfl

@[simp] theorem State.withInputs_chan (s : State) (es : List Input) :
    (s.withInputs es).chan = s.chan := rfl

@[simp] theorem State.withInputs_host (s : State) (es : List Input) :
    (s.withInputs es).host = s.host := rfl

/-! ### `State.setObuf` -/

@[simp] theorem State.setObuf_a (s : State) (w : List Byte) :
    (s.setObuf w).a = s.a := rfl

@[simp] theorem State.setObuf_n (s : State) (w : List Byte) :
    (s.setObuf w).n = s.n := rfl

@[simp] theorem State.setObuf_b (s : State) (w : List Byte) :
    (s.setObuf w).b = s.b := rfl

@[simp] theorem State.setObuf_dbuf (s : State) (w : List Byte) :
    (s.setObuf w).dbuf = s.dbuf := rfl

@[simp] theorem State.setObuf_obuf (s : State) (w : List Byte) :
    (s.setObuf w).obuf = w := rfl

@[simp] theorem State.setObuf_olen (s : State) (w : List Byte) :
    (s.setObuf w).olen = BitVec.ofNat 6 w.length := rfl

@[simp] theorem State.setObuf_result (s : State) (w : List Byte) :
    (s.setObuf w).result = s.result := rfl

@[simp] theorem State.setObuf_busy (s : State) (w : List Byte) :
    (s.setObuf w).busy = s.busy := rfl

@[simp] theorem State.setObuf_fault (s : State) (w : List Byte) :
    (s.setObuf w).fault = s.fault := rfl

@[simp] theorem State.setObuf_halt (s : State) (w : List Byte) :
    (s.setObuf w).halt = s.halt := rfl

@[simp] theorem State.setObuf_phase (s : State) (w : List Byte) :
    (s.setObuf w).phase = s.phase := rfl

@[simp] theorem State.setObuf_mode (s : State) (w : List Byte) :
    (s.setObuf w).mode = s.mode := rfl

@[simp] theorem State.setObuf_att (s : State) (w : List Byte) :
    (s.setObuf w).att = s.att := rfl

@[simp] theorem State.setObuf_idx (s : State) (w : List Byte) :
    (s.setObuf w).idx = s.idx := rfl

@[simp] theorem State.setObuf_tmr (s : State) (w : List Byte) :
    (s.setObuf w).tmr = s.tmr := rfl

@[simp] theorem State.setObuf_wild (s : State) (w : List Byte) :
    (s.setObuf w).wild = s.wild := rfl

@[simp] theorem State.setObuf_expb (s : State) (w : List Byte) :
    (s.setObuf w).expb = s.expb := rfl

@[simp] theorem State.setObuf_retryTick (s : State) (w : List Byte) :
    (s.setObuf w).retryTick = s.retryTick := rfl

@[simp] theorem State.setObuf_abort (s : State) (w : List Byte) :
    (s.setObuf w).abort = s.abort := rfl

@[simp] theorem State.setObuf_inputs (s : State) (w : List Byte) :
    (s.setObuf w).inputs = s.inputs := rfl

@[simp] theorem State.setObuf_chan (s : State) (w : List Byte) :
    (s.setObuf w).chan = s.chan := rfl

@[simp] theorem State.setObuf_host (s : State) (w : List Byte) :
    (s.setObuf w).host = s.host := rfl

/-! ### `State.start` -/

@[simp] theorem State.start_a (s : State) (p : Phase) :
    (s.start p).a = s.a := rfl

@[simp] theorem State.start_n (s : State) (p : Phase) :
    (s.start p).n = s.n := rfl

@[simp] theorem State.start_b (s : State) (p : Phase) :
    (s.start p).b = s.b := rfl

@[simp] theorem State.start_dbuf (s : State) (p : Phase) :
    (s.start p).dbuf = s.dbuf := rfl

@[simp] theorem State.start_obuf (s : State) (p : Phase) :
    (s.start p).obuf = s.obuf := rfl

@[simp] theorem State.start_olen (s : State) (p : Phase) :
    (s.start p).olen = s.olen := rfl

@[simp] theorem State.start_result (s : State) (p : Phase) :
    (s.start p).result = s.result := rfl

@[simp] theorem State.start_busy (s : State) (p : Phase) :
    (s.start p).busy = true := rfl

@[simp] theorem State.start_fault (s : State) (p : Phase) :
    (s.start p).fault = s.fault := rfl

@[simp] theorem State.start_halt (s : State) (p : Phase) :
    (s.start p).halt = s.halt := rfl

@[simp] theorem State.start_phase (s : State) (p : Phase) :
    (s.start p).phase = p := rfl

@[simp] theorem State.start_mode (s : State) (p : Phase) :
    (s.start p).mode = s.mode := rfl

@[simp] theorem State.start_att (s : State) (p : Phase) :
    (s.start p).att = s.att := rfl

@[simp] theorem State.start_idx (s : State) (p : Phase) :
    (s.start p).idx = s.idx := rfl

@[simp] theorem State.start_tmr (s : State) (p : Phase) :
    (s.start p).tmr = s.tmr := rfl

@[simp] theorem State.start_wild (s : State) (p : Phase) :
    (s.start p).wild = s.wild := rfl

@[simp] theorem State.start_expb (s : State) (p : Phase) :
    (s.start p).expb = s.expb := rfl

@[simp] theorem State.start_retryTick (s : State) (p : Phase) :
    (s.start p).retryTick = s.retryTick := rfl

@[simp] theorem State.start_abort (s : State) (p : Phase) :
    (s.start p).abort = s.abort := rfl

@[simp] theorem State.start_inputs (s : State) (p : Phase) :
    (s.start p).inputs = s.inputs := rfl

@[simp] theorem State.start_chan (s : State) (p : Phase) :
    (s.start p).chan = s.chan := rfl

@[simp] theorem State.start_host (s : State) (p : Phase) :
    (s.start p).host = s.host := rfl

/-! ### `State.toPhase` -/

@[simp] theorem State.toPhase_a (s : State) (p : Phase) :
    (s.toPhase p).a = s.a := rfl

@[simp] theorem State.toPhase_n (s : State) (p : Phase) :
    (s.toPhase p).n = s.n := rfl

@[simp] theorem State.toPhase_b (s : State) (p : Phase) :
    (s.toPhase p).b = s.b := rfl

@[simp] theorem State.toPhase_dbuf (s : State) (p : Phase) :
    (s.toPhase p).dbuf = s.dbuf := rfl

@[simp] theorem State.toPhase_obuf (s : State) (p : Phase) :
    (s.toPhase p).obuf = s.obuf := rfl

@[simp] theorem State.toPhase_olen (s : State) (p : Phase) :
    (s.toPhase p).olen = s.olen := rfl

@[simp] theorem State.toPhase_result (s : State) (p : Phase) :
    (s.toPhase p).result = s.result := rfl

@[simp] theorem State.toPhase_busy (s : State) (p : Phase) :
    (s.toPhase p).busy = s.busy := rfl

@[simp] theorem State.toPhase_fault (s : State) (p : Phase) :
    (s.toPhase p).fault = s.fault := rfl

@[simp] theorem State.toPhase_halt (s : State) (p : Phase) :
    (s.toPhase p).halt = s.halt := rfl

@[simp] theorem State.toPhase_phase (s : State) (p : Phase) :
    (s.toPhase p).phase = p := rfl

@[simp] theorem State.toPhase_mode (s : State) (p : Phase) :
    (s.toPhase p).mode = s.mode := rfl

@[simp] theorem State.toPhase_att (s : State) (p : Phase) :
    (s.toPhase p).att = s.att := rfl

@[simp] theorem State.toPhase_idx (s : State) (p : Phase) :
    (s.toPhase p).idx = s.idx := rfl

@[simp] theorem State.toPhase_tmr (s : State) (p : Phase) :
    (s.toPhase p).tmr = s.tmr := rfl

@[simp] theorem State.toPhase_wild (s : State) (p : Phase) :
    (s.toPhase p).wild = s.wild := rfl

@[simp] theorem State.toPhase_expb (s : State) (p : Phase) :
    (s.toPhase p).expb = s.expb := rfl

@[simp] theorem State.toPhase_retryTick (s : State) (p : Phase) :
    (s.toPhase p).retryTick = s.retryTick := rfl

@[simp] theorem State.toPhase_abort (s : State) (p : Phase) :
    (s.toPhase p).abort = s.abort := rfl

@[simp] theorem State.toPhase_inputs (s : State) (p : Phase) :
    (s.toPhase p).inputs = s.inputs := rfl

@[simp] theorem State.toPhase_chan (s : State) (p : Phase) :
    (s.toPhase p).chan = s.chan := rfl

@[simp] theorem State.toPhase_host (s : State) (p : Phase) :
    (s.toPhase p).host = s.host := rfl

/-! ### `State.finish` -/

@[simp] theorem State.finish_a (s : State) (c : ResultCode) :
    (s.finish c).a = s.a := rfl

@[simp] theorem State.finish_n (s : State) (c : ResultCode) :
    (s.finish c).n = s.n := rfl

@[simp] theorem State.finish_b (s : State) (c : ResultCode) :
    (s.finish c).b = s.b := rfl

@[simp] theorem State.finish_dbuf (s : State) (c : ResultCode) :
    (s.finish c).dbuf = s.dbuf := rfl

@[simp] theorem State.finish_obuf (s : State) (c : ResultCode) :
    (s.finish c).obuf = s.obuf := rfl

@[simp] theorem State.finish_olen (s : State) (c : ResultCode) :
    (s.finish c).olen = s.olen := rfl

@[simp] theorem State.finish_result (s : State) (c : ResultCode) :
    (s.finish c).result = c := rfl

@[simp] theorem State.finish_busy (s : State) (c : ResultCode) :
    (s.finish c).busy = false := rfl

@[simp] theorem State.finish_fault (s : State) (c : ResultCode) :
    (s.finish c).fault = s.fault := rfl

@[simp] theorem State.finish_halt (s : State) (c : ResultCode) :
    (s.finish c).halt = s.halt := rfl

@[simp] theorem State.finish_phase (s : State) (c : ResultCode) :
    (s.finish c).phase = .idle := rfl

@[simp] theorem State.finish_mode (s : State) (c : ResultCode) :
    (s.finish c).mode = s.mode := rfl

@[simp] theorem State.finish_att (s : State) (c : ResultCode) :
    (s.finish c).att = s.att := rfl

@[simp] theorem State.finish_idx (s : State) (c : ResultCode) :
    (s.finish c).idx = s.idx := rfl

@[simp] theorem State.finish_tmr (s : State) (c : ResultCode) :
    (s.finish c).tmr = s.tmr := rfl

@[simp] theorem State.finish_wild (s : State) (c : ResultCode) :
    (s.finish c).wild = s.wild := rfl

@[simp] theorem State.finish_expb (s : State) (c : ResultCode) :
    (s.finish c).expb = s.expb := rfl

@[simp] theorem State.finish_retryTick (s : State) (c : ResultCode) :
    (s.finish c).retryTick = s.retryTick := rfl

@[simp] theorem State.finish_abort (s : State) (c : ResultCode) :
    (s.finish c).abort = s.abort := rfl

@[simp] theorem State.finish_inputs (s : State) (c : ResultCode) :
    (s.finish c).inputs = s.inputs := rfl

@[simp] theorem State.finish_chan (s : State) (c : ResultCode) :
    (s.finish c).chan = s.chan := rfl

@[simp] theorem State.finish_host (s : State) (c : ResultCode) :
    (s.finish c).host = s.host := rfl

/-! ### `State.raiseIo` -/

@[simp] theorem State.raiseIo_a (s : State) :
    (s.raiseIo).a = s.a := rfl

@[simp] theorem State.raiseIo_n (s : State) :
    (s.raiseIo).n = s.n := rfl

@[simp] theorem State.raiseIo_b (s : State) :
    (s.raiseIo).b = s.b := rfl

@[simp] theorem State.raiseIo_dbuf (s : State) :
    (s.raiseIo).dbuf = s.dbuf := rfl

@[simp] theorem State.raiseIo_obuf (s : State) :
    (s.raiseIo).obuf = s.obuf := rfl

@[simp] theorem State.raiseIo_olen (s : State) :
    (s.raiseIo).olen = s.olen := rfl

@[simp] theorem State.raiseIo_result (s : State) :
    (s.raiseIo).result = .ioError := rfl

@[simp] theorem State.raiseIo_busy (s : State) :
    (s.raiseIo).busy = false := rfl

@[simp] theorem State.raiseIo_fault (s : State) :
    (s.raiseIo).fault = true := rfl

@[simp] theorem State.raiseIo_halt (s : State) :
    (s.raiseIo).halt = s.halt := rfl

@[simp] theorem State.raiseIo_phase (s : State) :
    (s.raiseIo).phase = .idle := rfl

@[simp] theorem State.raiseIo_mode (s : State) :
    (s.raiseIo).mode = s.mode := rfl

@[simp] theorem State.raiseIo_att (s : State) :
    (s.raiseIo).att = s.att := rfl

@[simp] theorem State.raiseIo_idx (s : State) :
    (s.raiseIo).idx = s.idx := rfl

@[simp] theorem State.raiseIo_tmr (s : State) :
    (s.raiseIo).tmr = s.tmr := rfl

@[simp] theorem State.raiseIo_wild (s : State) :
    (s.raiseIo).wild = s.wild := rfl

@[simp] theorem State.raiseIo_expb (s : State) :
    (s.raiseIo).expb = s.expb := rfl

@[simp] theorem State.raiseIo_retryTick (s : State) :
    (s.raiseIo).retryTick = s.retryTick := rfl

@[simp] theorem State.raiseIo_abort (s : State) :
    (s.raiseIo).abort = s.abort := rfl

@[simp] theorem State.raiseIo_inputs (s : State) :
    (s.raiseIo).inputs = s.inputs := rfl

@[simp] theorem State.raiseIo_chan (s : State) :
    (s.raiseIo).chan = s.chan := rfl

@[simp] theorem State.raiseIo_host (s : State) :
    (s.raiseIo).host = s.host := rfl

/-! ### `State.raiseUsage` -/

@[simp] theorem State.raiseUsage_a (s : State) :
    (s.raiseUsage).a = s.a := rfl

@[simp] theorem State.raiseUsage_n (s : State) :
    (s.raiseUsage).n = s.n := rfl

@[simp] theorem State.raiseUsage_b (s : State) :
    (s.raiseUsage).b = s.b := rfl

@[simp] theorem State.raiseUsage_dbuf (s : State) :
    (s.raiseUsage).dbuf = s.dbuf := rfl

@[simp] theorem State.raiseUsage_obuf (s : State) :
    (s.raiseUsage).obuf = s.obuf := rfl

@[simp] theorem State.raiseUsage_olen (s : State) :
    (s.raiseUsage).olen = s.olen := rfl

@[simp] theorem State.raiseUsage_result (s : State) :
    (s.raiseUsage).result = .usageError := rfl

@[simp] theorem State.raiseUsage_busy (s : State) :
    (s.raiseUsage).busy = false := rfl

@[simp] theorem State.raiseUsage_fault (s : State) :
    (s.raiseUsage).fault = s.fault := rfl

@[simp] theorem State.raiseUsage_halt (s : State) :
    (s.raiseUsage).halt = s.halt := rfl

@[simp] theorem State.raiseUsage_phase (s : State) :
    (s.raiseUsage).phase = .idle := rfl

@[simp] theorem State.raiseUsage_mode (s : State) :
    (s.raiseUsage).mode = s.mode := rfl

@[simp] theorem State.raiseUsage_att (s : State) :
    (s.raiseUsage).att = s.att := rfl

@[simp] theorem State.raiseUsage_idx (s : State) :
    (s.raiseUsage).idx = s.idx := rfl

@[simp] theorem State.raiseUsage_tmr (s : State) :
    (s.raiseUsage).tmr = s.tmr := rfl

@[simp] theorem State.raiseUsage_wild (s : State) :
    (s.raiseUsage).wild = s.wild := rfl

@[simp] theorem State.raiseUsage_expb (s : State) :
    (s.raiseUsage).expb = s.expb := rfl

@[simp] theorem State.raiseUsage_retryTick (s : State) :
    (s.raiseUsage).retryTick = s.retryTick := rfl

@[simp] theorem State.raiseUsage_abort (s : State) :
    (s.raiseUsage).abort = s.abort := rfl

@[simp] theorem State.raiseUsage_inputs (s : State) :
    (s.raiseUsage).inputs = s.inputs := rfl

@[simp] theorem State.raiseUsage_chan (s : State) :
    (s.raiseUsage).chan = s.chan := rfl

@[simp] theorem State.raiseUsage_host (s : State) :
    (s.raiseUsage).host = s.host := rfl

/-! ### `State.refuseFaulted` -/

@[simp] theorem State.refuseFaulted_a (s : State) :
    (s.refuseFaulted).a = s.a := rfl

@[simp] theorem State.refuseFaulted_n (s : State) :
    (s.refuseFaulted).n = s.n := rfl

@[simp] theorem State.refuseFaulted_b (s : State) :
    (s.refuseFaulted).b = s.b := rfl

@[simp] theorem State.refuseFaulted_dbuf (s : State) :
    (s.refuseFaulted).dbuf = s.dbuf := rfl

@[simp] theorem State.refuseFaulted_obuf (s : State) :
    (s.refuseFaulted).obuf = s.obuf := rfl

@[simp] theorem State.refuseFaulted_olen (s : State) :
    (s.refuseFaulted).olen = s.olen := rfl

@[simp] theorem State.refuseFaulted_result (s : State) :
    (s.refuseFaulted).result = .ioError := rfl

@[simp] theorem State.refuseFaulted_busy (s : State) :
    (s.refuseFaulted).busy = s.busy := rfl

@[simp] theorem State.refuseFaulted_fault (s : State) :
    (s.refuseFaulted).fault = s.fault := rfl

@[simp] theorem State.refuseFaulted_halt (s : State) :
    (s.refuseFaulted).halt = s.halt := rfl

@[simp] theorem State.refuseFaulted_phase (s : State) :
    (s.refuseFaulted).phase = s.phase := rfl

@[simp] theorem State.refuseFaulted_mode (s : State) :
    (s.refuseFaulted).mode = s.mode := rfl

@[simp] theorem State.refuseFaulted_att (s : State) :
    (s.refuseFaulted).att = s.att := rfl

@[simp] theorem State.refuseFaulted_idx (s : State) :
    (s.refuseFaulted).idx = s.idx := rfl

@[simp] theorem State.refuseFaulted_tmr (s : State) :
    (s.refuseFaulted).tmr = s.tmr := rfl

@[simp] theorem State.refuseFaulted_wild (s : State) :
    (s.refuseFaulted).wild = s.wild := rfl

@[simp] theorem State.refuseFaulted_expb (s : State) :
    (s.refuseFaulted).expb = s.expb := rfl

@[simp] theorem State.refuseFaulted_retryTick (s : State) :
    (s.refuseFaulted).retryTick = s.retryTick := rfl

@[simp] theorem State.refuseFaulted_abort (s : State) :
    (s.refuseFaulted).abort = s.abort := rfl

@[simp] theorem State.refuseFaulted_inputs (s : State) :
    (s.refuseFaulted).inputs = s.inputs := rfl

@[simp] theorem State.refuseFaulted_chan (s : State) :
    (s.refuseFaulted).chan = s.chan := rfl

@[simp] theorem State.refuseFaulted_host (s : State) :
    (s.refuseFaulted).host = s.host := rfl

/-! ### `State.raiseIllegal` -/

@[simp] theorem State.raiseIllegal_a (s : State) :
    (s.raiseIllegal).a = s.a := rfl

@[simp] theorem State.raiseIllegal_n (s : State) :
    (s.raiseIllegal).n = s.n := rfl

@[simp] theorem State.raiseIllegal_b (s : State) :
    (s.raiseIllegal).b = s.b := rfl

@[simp] theorem State.raiseIllegal_dbuf (s : State) :
    (s.raiseIllegal).dbuf = s.dbuf := rfl

@[simp] theorem State.raiseIllegal_obuf (s : State) :
    (s.raiseIllegal).obuf = s.obuf := rfl

@[simp] theorem State.raiseIllegal_olen (s : State) :
    (s.raiseIllegal).olen = s.olen := rfl

@[simp] theorem State.raiseIllegal_result (s : State) :
    (s.raiseIllegal).result = .illegalCmd := rfl

@[simp] theorem State.raiseIllegal_busy (s : State) :
    (s.raiseIllegal).busy = s.busy := rfl

@[simp] theorem State.raiseIllegal_fault (s : State) :
    (s.raiseIllegal).fault = s.fault := rfl

@[simp] theorem State.raiseIllegal_halt (s : State) :
    (s.raiseIllegal).halt = s.halt := rfl

@[simp] theorem State.raiseIllegal_phase (s : State) :
    (s.raiseIllegal).phase = s.phase := rfl

@[simp] theorem State.raiseIllegal_mode (s : State) :
    (s.raiseIllegal).mode = s.mode := rfl

@[simp] theorem State.raiseIllegal_att (s : State) :
    (s.raiseIllegal).att = s.att := rfl

@[simp] theorem State.raiseIllegal_idx (s : State) :
    (s.raiseIllegal).idx = s.idx := rfl

@[simp] theorem State.raiseIllegal_tmr (s : State) :
    (s.raiseIllegal).tmr = s.tmr := rfl

@[simp] theorem State.raiseIllegal_wild (s : State) :
    (s.raiseIllegal).wild = s.wild := rfl

@[simp] theorem State.raiseIllegal_expb (s : State) :
    (s.raiseIllegal).expb = s.expb := rfl

@[simp] theorem State.raiseIllegal_retryTick (s : State) :
    (s.raiseIllegal).retryTick = s.retryTick := rfl

@[simp] theorem State.raiseIllegal_abort (s : State) :
    (s.raiseIllegal).abort = s.abort := rfl

@[simp] theorem State.raiseIllegal_inputs (s : State) :
    (s.raiseIllegal).inputs = s.inputs := rfl

@[simp] theorem State.raiseIllegal_chan (s : State) :
    (s.raiseIllegal).chan = s.chan := rfl

@[simp] theorem State.raiseIllegal_host (s : State) :
    (s.raiseIllegal).host = s.host := rfl

/-! ### `State.takeAbort` -/

@[simp] theorem State.takeAbort_a (s : State) :
    (s.takeAbort).a = s.a := rfl

@[simp] theorem State.takeAbort_n (s : State) :
    (s.takeAbort).n = s.n := rfl

@[simp] theorem State.takeAbort_b (s : State) :
    (s.takeAbort).b = s.b := rfl

@[simp] theorem State.takeAbort_dbuf (s : State) :
    (s.takeAbort).dbuf = s.dbuf := rfl

@[simp] theorem State.takeAbort_obuf (s : State) :
    (s.takeAbort).obuf = s.obuf := rfl

@[simp] theorem State.takeAbort_olen (s : State) :
    (s.takeAbort).olen = s.olen := rfl

@[simp] theorem State.takeAbort_result (s : State) :
    (s.takeAbort).result = if s.busy then .aborted else s.result := rfl

@[simp] theorem State.takeAbort_busy (s : State) :
    (s.takeAbort).busy = false := rfl

@[simp] theorem State.takeAbort_fault (s : State) :
    (s.takeAbort).fault = s.fault := rfl

@[simp] theorem State.takeAbort_halt (s : State) :
    (s.takeAbort).halt = true := rfl

@[simp] theorem State.takeAbort_phase (s : State) :
    (s.takeAbort).phase = .idle := rfl

@[simp] theorem State.takeAbort_mode (s : State) :
    (s.takeAbort).mode = s.mode := rfl

@[simp] theorem State.takeAbort_att (s : State) :
    (s.takeAbort).att = s.att := rfl

@[simp] theorem State.takeAbort_idx (s : State) :
    (s.takeAbort).idx = s.idx := rfl

@[simp] theorem State.takeAbort_tmr (s : State) :
    (s.takeAbort).tmr = s.tmr := rfl

@[simp] theorem State.takeAbort_wild (s : State) :
    (s.takeAbort).wild = s.wild := rfl

@[simp] theorem State.takeAbort_expb (s : State) :
    (s.takeAbort).expb = s.expb := rfl

@[simp] theorem State.takeAbort_retryTick (s : State) :
    (s.takeAbort).retryTick = s.retryTick := rfl

@[simp] theorem State.takeAbort_abort (s : State) :
    (s.takeAbort).abort = s.abort := rfl

@[simp] theorem State.takeAbort_inputs (s : State) :
    (s.takeAbort).inputs = s.inputs := rfl

@[simp] theorem State.takeAbort_chan (s : State) :
    (s.takeAbort).chan = s.chan.flush.2 := rfl

@[simp] theorem State.takeAbort_host (s : State) :
    (s.takeAbort).host = s.host := rfl

/-! ### `State.pulse` -/

@[simp] theorem State.pulse_a (s : State) :
    (s.pulse).a = s.a := rfl

@[simp] theorem State.pulse_n (s : State) :
    (s.pulse).n = s.n := rfl

@[simp] theorem State.pulse_b (s : State) :
    (s.pulse).b = s.b := rfl

@[simp] theorem State.pulse_dbuf (s : State) :
    (s.pulse).dbuf = s.dbuf := rfl

@[simp] theorem State.pulse_obuf (s : State) :
    (s.pulse).obuf = s.obuf := rfl

@[simp] theorem State.pulse_olen (s : State) :
    (s.pulse).olen = s.olen := rfl

@[simp] theorem State.pulse_result (s : State) :
    (s.pulse).result = s.result := rfl

@[simp] theorem State.pulse_busy (s : State) :
    (s.pulse).busy = s.busy := rfl

@[simp] theorem State.pulse_fault (s : State) :
    (s.pulse).fault = s.fault := rfl

@[simp] theorem State.pulse_halt (s : State) :
    (s.pulse).halt = s.halt := rfl

@[simp] theorem State.pulse_phase (s : State) :
    (s.pulse).phase = s.phase := rfl

@[simp] theorem State.pulse_mode (s : State) :
    (s.pulse).mode = s.mode := rfl

@[simp] theorem State.pulse_att (s : State) :
    (s.pulse).att = s.att := rfl

@[simp] theorem State.pulse_idx (s : State) :
    (s.pulse).idx = s.idx := rfl

@[simp] theorem State.pulse_tmr (s : State) :
    (s.pulse).tmr = s.tmr := rfl

@[simp] theorem State.pulse_wild (s : State) :
    (s.pulse).wild = s.wild := rfl

@[simp] theorem State.pulse_expb (s : State) :
    (s.pulse).expb = s.expb := rfl

@[simp] theorem State.pulse_retryTick (s : State) :
    (s.pulse).retryTick = true := rfl

@[simp] theorem State.pulse_abort (s : State) :
    (s.pulse).abort = s.abort := rfl

@[simp] theorem State.pulse_inputs (s : State) :
    (s.pulse).inputs = s.inputs := rfl

@[simp] theorem State.pulse_chan (s : State) :
    (s.pulse).chan = s.chan := rfl

@[simp] theorem State.pulse_host (s : State) :
    (s.pulse).host = s.host.seeRetry := rfl

/-! ### `State.clearPulse` -/

@[simp] theorem State.clearPulse_a (s : State) :
    (s.clearPulse).a = s.a := rfl

@[simp] theorem State.clearPulse_n (s : State) :
    (s.clearPulse).n = s.n := rfl

@[simp] theorem State.clearPulse_b (s : State) :
    (s.clearPulse).b = s.b := rfl

@[simp] theorem State.clearPulse_dbuf (s : State) :
    (s.clearPulse).dbuf = s.dbuf := rfl

@[simp] theorem State.clearPulse_obuf (s : State) :
    (s.clearPulse).obuf = s.obuf := rfl

@[simp] theorem State.clearPulse_olen (s : State) :
    (s.clearPulse).olen = s.olen := rfl

@[simp] theorem State.clearPulse_result (s : State) :
    (s.clearPulse).result = s.result := rfl

@[simp] theorem State.clearPulse_busy (s : State) :
    (s.clearPulse).busy = s.busy := rfl

@[simp] theorem State.clearPulse_fault (s : State) :
    (s.clearPulse).fault = s.fault := rfl

@[simp] theorem State.clearPulse_halt (s : State) :
    (s.clearPulse).halt = s.halt := rfl

@[simp] theorem State.clearPulse_phase (s : State) :
    (s.clearPulse).phase = s.phase := rfl

@[simp] theorem State.clearPulse_mode (s : State) :
    (s.clearPulse).mode = s.mode := rfl

@[simp] theorem State.clearPulse_att (s : State) :
    (s.clearPulse).att = s.att := rfl

@[simp] theorem State.clearPulse_idx (s : State) :
    (s.clearPulse).idx = s.idx := rfl

@[simp] theorem State.clearPulse_tmr (s : State) :
    (s.clearPulse).tmr = s.tmr := rfl

@[simp] theorem State.clearPulse_wild (s : State) :
    (s.clearPulse).wild = s.wild := rfl

@[simp] theorem State.clearPulse_expb (s : State) :
    (s.clearPulse).expb = s.expb := rfl

@[simp] theorem State.clearPulse_retryTick (s : State) :
    (s.clearPulse).retryTick = false := rfl

@[simp] theorem State.clearPulse_abort (s : State) :
    (s.clearPulse).abort = s.abort := rfl

@[simp] theorem State.clearPulse_inputs (s : State) :
    (s.clearPulse).inputs = s.inputs := rfl

@[simp] theorem State.clearPulse_chan (s : State) :
    (s.clearPulse).chan = s.chan := rfl

@[simp] theorem State.clearPulse_host (s : State) :
    (s.clearPulse).host = s.host := rfl

/-! ### `State.loadExact` -/

@[simp] theorem State.loadExact_a (s : State) (e : Byte) :
    (s.loadExact e).a = s.a := rfl

@[simp] theorem State.loadExact_n (s : State) (e : Byte) :
    (s.loadExact e).n = s.n := rfl

@[simp] theorem State.loadExact_b (s : State) (e : Byte) :
    (s.loadExact e).b = s.b := rfl

@[simp] theorem State.loadExact_dbuf (s : State) (e : Byte) :
    (s.loadExact e).dbuf = s.dbuf := rfl

@[simp] theorem State.loadExact_obuf (s : State) (e : Byte) :
    (s.loadExact e).obuf = s.obuf := rfl

@[simp] theorem State.loadExact_olen (s : State) (e : Byte) :
    (s.loadExact e).olen = s.olen := rfl

@[simp] theorem State.loadExact_result (s : State) (e : Byte) :
    (s.loadExact e).result = s.result := rfl

@[simp] theorem State.loadExact_busy (s : State) (e : Byte) :
    (s.loadExact e).busy = s.busy := rfl

@[simp] theorem State.loadExact_fault (s : State) (e : Byte) :
    (s.loadExact e).fault = s.fault := rfl

@[simp] theorem State.loadExact_halt (s : State) (e : Byte) :
    (s.loadExact e).halt = s.halt := rfl

@[simp] theorem State.loadExact_phase (s : State) (e : Byte) :
    (s.loadExact e).phase = s.phase := rfl

@[simp] theorem State.loadExact_mode (s : State) (e : Byte) :
    (s.loadExact e).mode = s.mode := rfl

@[simp] theorem State.loadExact_att (s : State) (e : Byte) :
    (s.loadExact e).att = s.att := rfl

@[simp] theorem State.loadExact_idx (s : State) (e : Byte) :
    (s.loadExact e).idx = s.idx := rfl

@[simp] theorem State.loadExact_tmr (s : State) (e : Byte) :
    (s.loadExact e).tmr = Config.tTicks := rfl

@[simp] theorem State.loadExact_wild (s : State) (e : Byte) :
    (s.loadExact e).wild = false := rfl

@[simp] theorem State.loadExact_expb (s : State) (e : Byte) :
    (s.loadExact e).expb = e := rfl

@[simp] theorem State.loadExact_retryTick (s : State) (e : Byte) :
    (s.loadExact e).retryTick = s.retryTick := rfl

@[simp] theorem State.loadExact_abort (s : State) (e : Byte) :
    (s.loadExact e).abort = s.abort := rfl

@[simp] theorem State.loadExact_inputs (s : State) (e : Byte) :
    (s.loadExact e).inputs = s.inputs := rfl

@[simp] theorem State.loadExact_chan (s : State) (e : Byte) :
    (s.loadExact e).chan = s.chan := rfl

@[simp] theorem State.loadExact_host (s : State) (e : Byte) :
    (s.loadExact e).host = s.host := rfl

/-! ### `State.loadWild` -/

@[simp] theorem State.loadWild_a (s : State) :
    (s.loadWild).a = s.a := rfl

@[simp] theorem State.loadWild_n (s : State) :
    (s.loadWild).n = s.n := rfl

@[simp] theorem State.loadWild_b (s : State) :
    (s.loadWild).b = s.b := rfl

@[simp] theorem State.loadWild_dbuf (s : State) :
    (s.loadWild).dbuf = s.dbuf := rfl

@[simp] theorem State.loadWild_obuf (s : State) :
    (s.loadWild).obuf = s.obuf := rfl

@[simp] theorem State.loadWild_olen (s : State) :
    (s.loadWild).olen = s.olen := rfl

@[simp] theorem State.loadWild_result (s : State) :
    (s.loadWild).result = s.result := rfl

@[simp] theorem State.loadWild_busy (s : State) :
    (s.loadWild).busy = s.busy := rfl

@[simp] theorem State.loadWild_fault (s : State) :
    (s.loadWild).fault = s.fault := rfl

@[simp] theorem State.loadWild_halt (s : State) :
    (s.loadWild).halt = s.halt := rfl

@[simp] theorem State.loadWild_phase (s : State) :
    (s.loadWild).phase = s.phase := rfl

@[simp] theorem State.loadWild_mode (s : State) :
    (s.loadWild).mode = s.mode := rfl

@[simp] theorem State.loadWild_att (s : State) :
    (s.loadWild).att = s.att := rfl

@[simp] theorem State.loadWild_idx (s : State) :
    (s.loadWild).idx = s.idx := rfl

@[simp] theorem State.loadWild_tmr (s : State) :
    (s.loadWild).tmr = Config.tTicks := rfl

@[simp] theorem State.loadWild_wild (s : State) :
    (s.loadWild).wild = true := rfl

@[simp] theorem State.loadWild_expb (s : State) :
    (s.loadWild).expb = s.expb := rfl

@[simp] theorem State.loadWild_retryTick (s : State) :
    (s.loadWild).retryTick = s.retryTick := rfl

@[simp] theorem State.loadWild_abort (s : State) :
    (s.loadWild).abort = s.abort := rfl

@[simp] theorem State.loadWild_inputs (s : State) :
    (s.loadWild).inputs = s.inputs := rfl

@[simp] theorem State.loadWild_chan (s : State) :
    (s.loadWild).chan = s.chan := rfl

@[simp] theorem State.loadWild_host (s : State) :
    (s.loadWild).host = s.host := rfl

/-! ### `State.spendTick` -/

@[simp] theorem State.spendTick_a (s : State) :
    (s.spendTick).a = s.a := rfl

@[simp] theorem State.spendTick_n (s : State) :
    (s.spendTick).n = s.n := rfl

@[simp] theorem State.spendTick_b (s : State) :
    (s.spendTick).b = s.b := rfl

@[simp] theorem State.spendTick_dbuf (s : State) :
    (s.spendTick).dbuf = s.dbuf := rfl

@[simp] theorem State.spendTick_obuf (s : State) :
    (s.spendTick).obuf = s.obuf := rfl

@[simp] theorem State.spendTick_olen (s : State) :
    (s.spendTick).olen = s.olen := rfl

@[simp] theorem State.spendTick_result (s : State) :
    (s.spendTick).result = s.result := rfl

@[simp] theorem State.spendTick_busy (s : State) :
    (s.spendTick).busy = s.busy := rfl

@[simp] theorem State.spendTick_fault (s : State) :
    (s.spendTick).fault = s.fault := rfl

@[simp] theorem State.spendTick_halt (s : State) :
    (s.spendTick).halt = s.halt := rfl

@[simp] theorem State.spendTick_phase (s : State) :
    (s.spendTick).phase = s.phase := rfl

@[simp] theorem State.spendTick_mode (s : State) :
    (s.spendTick).mode = s.mode := rfl

@[simp] theorem State.spendTick_att (s : State) :
    (s.spendTick).att = s.att := rfl

@[simp] theorem State.spendTick_idx (s : State) :
    (s.spendTick).idx = s.idx := rfl

@[simp] theorem State.spendTick_tmr (s : State) :
    (s.spendTick).tmr = s.tmr - 1 := rfl

@[simp] theorem State.spendTick_wild (s : State) :
    (s.spendTick).wild = s.wild := rfl

@[simp] theorem State.spendTick_expb (s : State) :
    (s.spendTick).expb = s.expb := rfl

@[simp] theorem State.spendTick_retryTick (s : State) :
    (s.spendTick).retryTick = s.retryTick := rfl

@[simp] theorem State.spendTick_abort (s : State) :
    (s.spendTick).abort = s.abort := rfl

@[simp] theorem State.spendTick_inputs (s : State) :
    (s.spendTick).inputs = s.inputs := rfl

@[simp] theorem State.spendTick_chan (s : State) :
    (s.spendTick).chan = s.chan := rfl

@[simp] theorem State.spendTick_host (s : State) :
    (s.spendTick).host = s.host := rfl

/-! ### `State.startHandshake` -/

@[simp] theorem State.startHandshake_a (s : State) (m : HsMode) :
    (s.startHandshake m).a = s.a := rfl

@[simp] theorem State.startHandshake_n (s : State) (m : HsMode) :
    (s.startHandshake m).n = s.n := rfl

@[simp] theorem State.startHandshake_b (s : State) (m : HsMode) :
    (s.startHandshake m).b = s.b := rfl

@[simp] theorem State.startHandshake_dbuf (s : State) (m : HsMode) :
    (s.startHandshake m).dbuf = s.dbuf := rfl

@[simp] theorem State.startHandshake_obuf (s : State) (m : HsMode) :
    (s.startHandshake m).obuf = s.obuf := rfl

@[simp] theorem State.startHandshake_olen (s : State) (m : HsMode) :
    (s.startHandshake m).olen = s.olen := rfl

@[simp] theorem State.startHandshake_result (s : State) (m : HsMode) :
    (s.startHandshake m).result = s.result := rfl

@[simp] theorem State.startHandshake_busy (s : State) (m : HsMode) :
    (s.startHandshake m).busy = true := rfl

@[simp] theorem State.startHandshake_fault (s : State) (m : HsMode) :
    (s.startHandshake m).fault = s.fault := rfl

@[simp] theorem State.startHandshake_halt (s : State) (m : HsMode) :
    (s.startHandshake m).halt = s.halt := rfl

@[simp] theorem State.startHandshake_phase (s : State) (m : HsMode) :
    (s.startHandshake m).phase = .hsFlush := rfl

@[simp] theorem State.startHandshake_mode (s : State) (m : HsMode) :
    (s.startHandshake m).mode = m := rfl

@[simp] theorem State.startHandshake_att (s : State) (m : HsMode) :
    (s.startHandshake m).att = 0 := rfl

@[simp] theorem State.startHandshake_idx (s : State) (m : HsMode) :
    (s.startHandshake m).idx = s.idx := rfl

@[simp] theorem State.startHandshake_tmr (s : State) (m : HsMode) :
    (s.startHandshake m).tmr = s.tmr := rfl

@[simp] theorem State.startHandshake_wild (s : State) (m : HsMode) :
    (s.startHandshake m).wild = s.wild := rfl

@[simp] theorem State.startHandshake_expb (s : State) (m : HsMode) :
    (s.startHandshake m).expb = s.expb := rfl

@[simp] theorem State.startHandshake_retryTick (s : State) (m : HsMode) :
    (s.startHandshake m).retryTick = s.retryTick := rfl

@[simp] theorem State.startHandshake_abort (s : State) (m : HsMode) :
    (s.startHandshake m).abort = s.abort := rfl

@[simp] theorem State.startHandshake_inputs (s : State) (m : HsMode) :
    (s.startHandshake m).inputs = s.inputs := rfl

@[simp] theorem State.startHandshake_chan (s : State) (m : HsMode) :
    (s.startHandshake m).chan = s.chan := rfl

@[simp] theorem State.startHandshake_host (s : State) (m : HsMode) :
    (s.startHandshake m).host = s.host := rfl

/-! ### `State.countAttempt` -/

@[simp] theorem State.countAttempt_a (s : State) :
    (s.countAttempt).a = s.a := rfl

@[simp] theorem State.countAttempt_n (s : State) :
    (s.countAttempt).n = s.n := rfl

@[simp] theorem State.countAttempt_b (s : State) :
    (s.countAttempt).b = s.b := rfl

@[simp] theorem State.countAttempt_dbuf (s : State) :
    (s.countAttempt).dbuf = s.dbuf := rfl

@[simp] theorem State.countAttempt_obuf (s : State) :
    (s.countAttempt).obuf = s.obuf := rfl

@[simp] theorem State.countAttempt_olen (s : State) :
    (s.countAttempt).olen = s.olen := rfl

@[simp] theorem State.countAttempt_result (s : State) :
    (s.countAttempt).result = s.result := rfl

@[simp] theorem State.countAttempt_busy (s : State) :
    (s.countAttempt).busy = s.busy := rfl

@[simp] theorem State.countAttempt_fault (s : State) :
    (s.countAttempt).fault = s.fault := rfl

@[simp] theorem State.countAttempt_halt (s : State) :
    (s.countAttempt).halt = s.halt := rfl

@[simp] theorem State.countAttempt_phase (s : State) :
    (s.countAttempt).phase = s.phase := rfl

@[simp] theorem State.countAttempt_mode (s : State) :
    (s.countAttempt).mode = s.mode := rfl

@[simp] theorem State.countAttempt_att (s : State) :
    (s.countAttempt).att = s.att + 1 := rfl

@[simp] theorem State.countAttempt_idx (s : State) :
    (s.countAttempt).idx = s.idx := rfl

@[simp] theorem State.countAttempt_tmr (s : State) :
    (s.countAttempt).tmr = s.tmr := rfl

@[simp] theorem State.countAttempt_wild (s : State) :
    (s.countAttempt).wild = s.wild := rfl

@[simp] theorem State.countAttempt_expb (s : State) :
    (s.countAttempt).expb = s.expb := rfl

@[simp] theorem State.countAttempt_retryTick (s : State) :
    (s.countAttempt).retryTick = s.retryTick := rfl

@[simp] theorem State.countAttempt_abort (s : State) :
    (s.countAttempt).abort = s.abort := rfl

@[simp] theorem State.countAttempt_inputs (s : State) :
    (s.countAttempt).inputs = s.inputs := rfl

@[simp] theorem State.countAttempt_chan (s : State) :
    (s.countAttempt).chan = s.chan := rfl

@[simp] theorem State.countAttempt_host (s : State) :
    (s.countAttempt).host = s.host := rfl

/-! ### `State.atBanner` -/

@[simp] theorem State.atBanner_a (s : State) (i : Fin 6) :
    (s.atBanner i).a = s.a := rfl

@[simp] theorem State.atBanner_n (s : State) (i : Fin 6) :
    (s.atBanner i).n = s.n := rfl

@[simp] theorem State.atBanner_b (s : State) (i : Fin 6) :
    (s.atBanner i).b = s.b := rfl

@[simp] theorem State.atBanner_dbuf (s : State) (i : Fin 6) :
    (s.atBanner i).dbuf = s.dbuf := rfl

@[simp] theorem State.atBanner_obuf (s : State) (i : Fin 6) :
    (s.atBanner i).obuf = s.obuf := rfl

@[simp] theorem State.atBanner_olen (s : State) (i : Fin 6) :
    (s.atBanner i).olen = s.olen := rfl

@[simp] theorem State.atBanner_result (s : State) (i : Fin 6) :
    (s.atBanner i).result = s.result := rfl

@[simp] theorem State.atBanner_busy (s : State) (i : Fin 6) :
    (s.atBanner i).busy = s.busy := rfl

@[simp] theorem State.atBanner_fault (s : State) (i : Fin 6) :
    (s.atBanner i).fault = s.fault := rfl

@[simp] theorem State.atBanner_halt (s : State) (i : Fin 6) :
    (s.atBanner i).halt = s.halt := rfl

@[simp] theorem State.atBanner_phase (s : State) (i : Fin 6) :
    (s.atBanner i).phase = .hsMatch := rfl

@[simp] theorem State.atBanner_mode (s : State) (i : Fin 6) :
    (s.atBanner i).mode = s.mode := rfl

@[simp] theorem State.atBanner_att (s : State) (i : Fin 6) :
    (s.atBanner i).att = s.att := rfl

@[simp] theorem State.atBanner_idx (s : State) (i : Fin 6) :
    (s.atBanner i).idx = i := rfl

@[simp] theorem State.atBanner_tmr (s : State) (i : Fin 6) :
    (s.atBanner i).tmr = s.tmr := rfl

@[simp] theorem State.atBanner_wild (s : State) (i : Fin 6) :
    (s.atBanner i).wild = s.wild := rfl

@[simp] theorem State.atBanner_expb (s : State) (i : Fin 6) :
    (s.atBanner i).expb = s.expb := rfl

@[simp] theorem State.atBanner_retryTick (s : State) (i : Fin 6) :
    (s.atBanner i).retryTick = s.retryTick := rfl

@[simp] theorem State.atBanner_abort (s : State) (i : Fin 6) :
    (s.atBanner i).abort = s.abort := rfl

@[simp] theorem State.atBanner_inputs (s : State) (i : Fin 6) :
    (s.atBanner i).inputs = s.inputs := rfl

@[simp] theorem State.atBanner_chan (s : State) (i : Fin 6) :
    (s.atBanner i).chan = s.chan := rfl

@[simp] theorem State.atBanner_host (s : State) (i : Fin 6) :
    (s.atBanner i).host = s.host := rfl

/-! ### `State.retry` -/

@[simp] theorem State.retry_a (s : State) :
    (s.retry).a = s.a := rfl

@[simp] theorem State.retry_n (s : State) :
    (s.retry).n = s.n := rfl

@[simp] theorem State.retry_b (s : State) :
    (s.retry).b = s.b := rfl

@[simp] theorem State.retry_dbuf (s : State) :
    (s.retry).dbuf = s.dbuf := rfl

@[simp] theorem State.retry_obuf (s : State) :
    (s.retry).obuf = s.obuf := rfl

@[simp] theorem State.retry_olen (s : State) :
    (s.retry).olen = s.olen := rfl

@[simp] theorem State.retry_result (s : State) :
    (s.retry).result = s.result := rfl

@[simp] theorem State.retry_busy (s : State) :
    (s.retry).busy = s.busy := rfl

@[simp] theorem State.retry_fault (s : State) :
    (s.retry).fault = s.fault := rfl

@[simp] theorem State.retry_halt (s : State) :
    (s.retry).halt = s.halt := rfl

@[simp] theorem State.retry_phase (s : State) :
    (s.retry).phase = .hsFlush := rfl

@[simp] theorem State.retry_mode (s : State) :
    (s.retry).mode = s.mode := rfl

@[simp] theorem State.retry_att (s : State) :
    (s.retry).att = s.att := rfl

@[simp] theorem State.retry_idx (s : State) :
    (s.retry).idx = s.idx := rfl

@[simp] theorem State.retry_tmr (s : State) :
    (s.retry).tmr = s.tmr := rfl

@[simp] theorem State.retry_wild (s : State) :
    (s.retry).wild = s.wild := rfl

@[simp] theorem State.retry_expb (s : State) :
    (s.retry).expb = s.expb := rfl

@[simp] theorem State.retry_retryTick (s : State) :
    (s.retry).retryTick = true := rfl

@[simp] theorem State.retry_abort (s : State) :
    (s.retry).abort = s.abort := rfl

@[simp] theorem State.retry_inputs (s : State) :
    (s.retry).inputs = s.inputs := rfl

@[simp] theorem State.retry_chan (s : State) :
    (s.retry).chan = s.chan := rfl

@[simp] theorem State.retry_host (s : State) :
    (s.retry).host = s.host.seeRetry := rfl

/-! ### `State.enterMatch` -/

@[simp] theorem State.enterMatch_a (s : State) :
    (s.enterMatch).a = s.a := rfl

@[simp] theorem State.enterMatch_n (s : State) :
    (s.enterMatch).n = s.n := rfl

@[simp] theorem State.enterMatch_b (s : State) :
    (s.enterMatch).b = s.b := rfl

@[simp] theorem State.enterMatch_dbuf (s : State) :
    (s.enterMatch).dbuf = s.dbuf := rfl

@[simp] theorem State.enterMatch_obuf (s : State) :
    (s.enterMatch).obuf = s.obuf := rfl

@[simp] theorem State.enterMatch_olen (s : State) :
    (s.enterMatch).olen = s.olen := rfl

@[simp] theorem State.enterMatch_result (s : State) :
    (s.enterMatch).result = s.result := rfl

@[simp] theorem State.enterMatch_busy (s : State) :
    (s.enterMatch).busy = s.busy := rfl

@[simp] theorem State.enterMatch_fault (s : State) :
    (s.enterMatch).fault = s.fault := rfl

@[simp] theorem State.enterMatch_halt (s : State) :
    (s.enterMatch).halt = s.halt := rfl

@[simp] theorem State.enterMatch_phase (s : State) :
    (s.enterMatch).phase = .hsMatch := rfl

@[simp] theorem State.enterMatch_mode (s : State) :
    (s.enterMatch).mode = s.mode := rfl

@[simp] theorem State.enterMatch_att (s : State) :
    (s.enterMatch).att = s.att := rfl

@[simp] theorem State.enterMatch_idx (s : State) :
    (s.enterMatch).idx = 0 := rfl

@[simp] theorem State.enterMatch_tmr (s : State) :
    (s.enterMatch).tmr = Config.tTicks := rfl

@[simp] theorem State.enterMatch_wild (s : State) :
    (s.enterMatch).wild = false := rfl

@[simp] theorem State.enterMatch_expb (s : State) :
    (s.enterMatch).expb = bannerByte 0 := rfl

@[simp] theorem State.enterMatch_retryTick (s : State) :
    (s.enterMatch).retryTick = s.retryTick := rfl

@[simp] theorem State.enterMatch_abort (s : State) :
    (s.enterMatch).abort = s.abort := rfl

@[simp] theorem State.enterMatch_inputs (s : State) :
    (s.enterMatch).inputs = s.inputs := rfl

@[simp] theorem State.enterMatch_chan (s : State) :
    (s.enterMatch).chan = s.chan := rfl

@[simp] theorem State.enterMatch_host (s : State) :
    (s.enterMatch).host = s.host := rfl

/-! ### `State.startAwait` -/

@[simp] theorem State.startAwait_a (s : State) :
    (s.startAwait).a = s.a := rfl

@[simp] theorem State.startAwait_n (s : State) :
    (s.startAwait).n = s.n := rfl

@[simp] theorem State.startAwait_b (s : State) :
    (s.startAwait).b = s.b := rfl

@[simp] theorem State.startAwait_dbuf (s : State) :
    (s.startAwait).dbuf = s.dbuf := rfl

@[simp] theorem State.startAwait_obuf (s : State) :
    (s.startAwait).obuf = s.obuf := rfl

@[simp] theorem State.startAwait_olen (s : State) :
    (s.startAwait).olen = s.olen := rfl

@[simp] theorem State.startAwait_result (s : State) :
    (s.startAwait).result = s.result := rfl

@[simp] theorem State.startAwait_busy (s : State) :
    (s.startAwait).busy = true := rfl

@[simp] theorem State.startAwait_fault (s : State) :
    (s.startAwait).fault = s.fault := rfl

@[simp] theorem State.startAwait_halt (s : State) :
    (s.startAwait).halt = s.halt := rfl

@[simp] theorem State.startAwait_phase (s : State) :
    (s.startAwait).phase = .wait := rfl

@[simp] theorem State.startAwait_mode (s : State) :
    (s.startAwait).mode = s.mode := rfl

@[simp] theorem State.startAwait_att (s : State) :
    (s.startAwait).att = s.att := rfl

@[simp] theorem State.startAwait_idx (s : State) :
    (s.startAwait).idx = s.idx := rfl

@[simp] theorem State.startAwait_tmr (s : State) :
    (s.startAwait).tmr = Config.tTicks := rfl

@[simp] theorem State.startAwait_wild (s : State) :
    (s.startAwait).wild = false := rfl

@[simp] theorem State.startAwait_expb (s : State) :
    (s.startAwait).expb = s.b := rfl

@[simp] theorem State.startAwait_retryTick (s : State) :
    (s.startAwait).retryTick = s.retryTick := rfl

@[simp] theorem State.startAwait_abort (s : State) :
    (s.startAwait).abort = s.abort := rfl

@[simp] theorem State.startAwait_inputs (s : State) :
    (s.startAwait).inputs = s.inputs := rfl

@[simp] theorem State.startAwait_chan (s : State) :
    (s.startAwait).chan = s.chan := rfl

@[simp] theorem State.startAwait_host (s : State) :
    (s.startAwait).host = s.host := rfl

/-! ### `State.startAwaitany` -/

@[simp] theorem State.startAwaitany_a (s : State) :
    (s.startAwaitany).a = s.a := rfl

@[simp] theorem State.startAwaitany_n (s : State) :
    (s.startAwaitany).n = s.n := rfl

@[simp] theorem State.startAwaitany_b (s : State) :
    (s.startAwaitany).b = s.b := rfl

@[simp] theorem State.startAwaitany_dbuf (s : State) :
    (s.startAwaitany).dbuf = s.dbuf := rfl

@[simp] theorem State.startAwaitany_obuf (s : State) :
    (s.startAwaitany).obuf = s.obuf := rfl

@[simp] theorem State.startAwaitany_olen (s : State) :
    (s.startAwaitany).olen = s.olen := rfl

@[simp] theorem State.startAwaitany_result (s : State) :
    (s.startAwaitany).result = s.result := rfl

@[simp] theorem State.startAwaitany_busy (s : State) :
    (s.startAwaitany).busy = true := rfl

@[simp] theorem State.startAwaitany_fault (s : State) :
    (s.startAwaitany).fault = s.fault := rfl

@[simp] theorem State.startAwaitany_halt (s : State) :
    (s.startAwaitany).halt = s.halt := rfl

@[simp] theorem State.startAwaitany_phase (s : State) :
    (s.startAwaitany).phase = .wait := rfl

@[simp] theorem State.startAwaitany_mode (s : State) :
    (s.startAwaitany).mode = s.mode := rfl

@[simp] theorem State.startAwaitany_att (s : State) :
    (s.startAwaitany).att = s.att := rfl

@[simp] theorem State.startAwaitany_idx (s : State) :
    (s.startAwaitany).idx = s.idx := rfl

@[simp] theorem State.startAwaitany_tmr (s : State) :
    (s.startAwaitany).tmr = Config.tTicks := rfl

@[simp] theorem State.startAwaitany_wild (s : State) :
    (s.startAwaitany).wild = true := rfl

@[simp] theorem State.startAwaitany_expb (s : State) :
    (s.startAwaitany).expb = s.expb := rfl

@[simp] theorem State.startAwaitany_retryTick (s : State) :
    (s.startAwaitany).retryTick = s.retryTick := rfl

@[simp] theorem State.startAwaitany_abort (s : State) :
    (s.startAwaitany).abort = s.abort := rfl

@[simp] theorem State.startAwaitany_inputs (s : State) :
    (s.startAwaitany).inputs = s.inputs := rfl

@[simp] theorem State.startAwaitany_chan (s : State) :
    (s.startAwaitany).chan = s.chan := rfl

@[simp] theorem State.startAwaitany_host (s : State) :
    (s.startAwaitany).host = s.host := rfl

/-! ### `State.blockReset` -/

@[simp] theorem State.blockReset_a (s : State) :
    (s.blockReset).a = State.reset.a := rfl

@[simp] theorem State.blockReset_n (s : State) :
    (s.blockReset).n = State.reset.n := rfl

@[simp] theorem State.blockReset_b (s : State) :
    (s.blockReset).b = State.reset.b := rfl

@[simp] theorem State.blockReset_dbuf (s : State) :
    (s.blockReset).dbuf = State.reset.dbuf := rfl

@[simp] theorem State.blockReset_obuf (s : State) :
    (s.blockReset).obuf = State.reset.obuf := rfl

@[simp] theorem State.blockReset_olen (s : State) :
    (s.blockReset).olen = State.reset.olen := rfl

@[simp] theorem State.blockReset_result (s : State) :
    (s.blockReset).result = State.reset.result := rfl

@[simp] theorem State.blockReset_busy (s : State) :
    (s.blockReset).busy = State.reset.busy := rfl

@[simp] theorem State.blockReset_fault (s : State) :
    (s.blockReset).fault = State.reset.fault := rfl

@[simp] theorem State.blockReset_halt (s : State) :
    (s.blockReset).halt = State.reset.halt := rfl

@[simp] theorem State.blockReset_phase (s : State) :
    (s.blockReset).phase = State.reset.phase := rfl

@[simp] theorem State.blockReset_mode (s : State) :
    (s.blockReset).mode = State.reset.mode := rfl

@[simp] theorem State.blockReset_att (s : State) :
    (s.blockReset).att = State.reset.att := rfl

@[simp] theorem State.blockReset_idx (s : State) :
    (s.blockReset).idx = State.reset.idx := rfl

@[simp] theorem State.blockReset_tmr (s : State) :
    (s.blockReset).tmr = State.reset.tmr := rfl

@[simp] theorem State.blockReset_wild (s : State) :
    (s.blockReset).wild = State.reset.wild := rfl

@[simp] theorem State.blockReset_expb (s : State) :
    (s.blockReset).expb = State.reset.expb := rfl

@[simp] theorem State.blockReset_retryTick (s : State) :
    (s.blockReset).retryTick = State.reset.retryTick := rfl

@[simp] theorem State.blockReset_abort (s : State) :
    (s.blockReset).abort = s.abort := rfl

@[simp] theorem State.blockReset_inputs (s : State) :
    (s.blockReset).inputs = s.inputs := rfl

@[simp] theorem State.blockReset_chan (s : State) :
    (s.blockReset).chan = if s.callDue then s.chan.abandon else s.chan := rfl

@[simp] theorem State.blockReset_host (s : State) :
    (s.blockReset).host = State.reset.host := rfl

/-! ### `State.bannerMatched`: the fields it never writes -/

@[simp] theorem State.bannerMatched_a (s : State) : s.bannerMatched.a = s.a := by
  unfold State.bannerMatched; split <;> rfl

@[simp] theorem State.bannerMatched_n (s : State) : s.bannerMatched.n = s.n := by
  unfold State.bannerMatched; split <;> rfl

@[simp] theorem State.bannerMatched_b (s : State) : s.bannerMatched.b = s.b := by
  unfold State.bannerMatched; split <;> rfl

@[simp] theorem State.bannerMatched_dbuf (s : State) : s.bannerMatched.dbuf = s.dbuf := by
  unfold State.bannerMatched; split <;> rfl

@[simp] theorem State.bannerMatched_obuf (s : State) : s.bannerMatched.obuf = s.obuf := by
  unfold State.bannerMatched; split <;> rfl

@[simp] theorem State.bannerMatched_olen (s : State) : s.bannerMatched.olen = s.olen := by
  unfold State.bannerMatched; split <;> rfl

@[simp] theorem State.bannerMatched_result (s : State) : s.bannerMatched.result = s.result := by
  unfold State.bannerMatched; split <;> rfl

@[simp] theorem State.bannerMatched_busy (s : State) : s.bannerMatched.busy = s.busy := by
  unfold State.bannerMatched; split <;> rfl

@[simp] theorem State.bannerMatched_fault (s : State) : s.bannerMatched.fault = s.fault := by
  unfold State.bannerMatched; split <;> rfl

@[simp] theorem State.bannerMatched_halt (s : State) : s.bannerMatched.halt = s.halt := by
  unfold State.bannerMatched; split <;> rfl

@[simp] theorem State.bannerMatched_mode (s : State) : s.bannerMatched.mode = s.mode := by
  unfold State.bannerMatched; split <;> rfl

@[simp] theorem State.bannerMatched_att (s : State) : s.bannerMatched.att = s.att := by
  unfold State.bannerMatched; split <;> rfl

@[simp] theorem State.bannerMatched_retryTick (s : State) : s.bannerMatched.retryTick = s.retryTick := by
  unfold State.bannerMatched; split <;> rfl

@[simp] theorem State.bannerMatched_abort (s : State) : s.bannerMatched.abort = s.abort := by
  unfold State.bannerMatched; split <;> rfl

@[simp] theorem State.bannerMatched_inputs (s : State) : s.bannerMatched.inputs = s.inputs := by
  unfold State.bannerMatched; split <;> rfl

@[simp] theorem State.bannerMatched_chan (s : State) : s.bannerMatched.chan = s.chan := by
  unfold State.bannerMatched; split <;> rfl

@[simp] theorem State.bannerMatched_host (s : State) : s.bannerMatched.host = s.host := by
  unfold State.bannerMatched; split <;> rfl

@[simp] theorem State.bannerMatched_tmr (s : State) : s.bannerMatched.tmr = Config.tTicks := by
  unfold State.bannerMatched; split <;> rfl

theorem State.bannerMatched_last {s : State} (h : s.idx = 5) :
    s.bannerMatched = s.loadWild.toPhase .hsQuiet := by
  simp [State.bannerMatched, h]

theorem State.bannerMatched_next {s : State} (h : s.idx ≠ 5) :
    s.bannerMatched = (s.loadExact (bannerByte (s.idx + 1))).atBanner (s.idx + 1) := by
  simp [State.bannerMatched, h]

/-! ### `State.dbufWrite`: every field but `DBUF` -/

@[simp] theorem State.dbufWrite_a (s : State) (i : Nat) (v : Byte) :
    (s.dbufWrite i v).a = s.a := by
  unfold State.dbufWrite; split <;> rfl

@[simp] theorem State.dbufWrite_n (s : State) (i : Nat) (v : Byte) :
    (s.dbufWrite i v).n = s.n := by
  unfold State.dbufWrite; split <;> rfl

@[simp] theorem State.dbufWrite_b (s : State) (i : Nat) (v : Byte) :
    (s.dbufWrite i v).b = s.b := by
  unfold State.dbufWrite; split <;> rfl

@[simp] theorem State.dbufWrite_obuf (s : State) (i : Nat) (v : Byte) :
    (s.dbufWrite i v).obuf = s.obuf := by
  unfold State.dbufWrite; split <;> rfl

@[simp] theorem State.dbufWrite_olen (s : State) (i : Nat) (v : Byte) :
    (s.dbufWrite i v).olen = s.olen := by
  unfold State.dbufWrite; split <;> rfl

@[simp] theorem State.dbufWrite_result (s : State) (i : Nat) (v : Byte) :
    (s.dbufWrite i v).result = s.result := by
  unfold State.dbufWrite; split <;> rfl

@[simp] theorem State.dbufWrite_busy (s : State) (i : Nat) (v : Byte) :
    (s.dbufWrite i v).busy = s.busy := by
  unfold State.dbufWrite; split <;> rfl

@[simp] theorem State.dbufWrite_fault (s : State) (i : Nat) (v : Byte) :
    (s.dbufWrite i v).fault = s.fault := by
  unfold State.dbufWrite; split <;> rfl

@[simp] theorem State.dbufWrite_halt (s : State) (i : Nat) (v : Byte) :
    (s.dbufWrite i v).halt = s.halt := by
  unfold State.dbufWrite; split <;> rfl

@[simp] theorem State.dbufWrite_phase (s : State) (i : Nat) (v : Byte) :
    (s.dbufWrite i v).phase = s.phase := by
  unfold State.dbufWrite; split <;> rfl

@[simp] theorem State.dbufWrite_mode (s : State) (i : Nat) (v : Byte) :
    (s.dbufWrite i v).mode = s.mode := by
  unfold State.dbufWrite; split <;> rfl

@[simp] theorem State.dbufWrite_att (s : State) (i : Nat) (v : Byte) :
    (s.dbufWrite i v).att = s.att := by
  unfold State.dbufWrite; split <;> rfl

@[simp] theorem State.dbufWrite_idx (s : State) (i : Nat) (v : Byte) :
    (s.dbufWrite i v).idx = s.idx := by
  unfold State.dbufWrite; split <;> rfl

@[simp] theorem State.dbufWrite_tmr (s : State) (i : Nat) (v : Byte) :
    (s.dbufWrite i v).tmr = s.tmr := by
  unfold State.dbufWrite; split <;> rfl

@[simp] theorem State.dbufWrite_wild (s : State) (i : Nat) (v : Byte) :
    (s.dbufWrite i v).wild = s.wild := by
  unfold State.dbufWrite; split <;> rfl

@[simp] theorem State.dbufWrite_expb (s : State) (i : Nat) (v : Byte) :
    (s.dbufWrite i v).expb = s.expb := by
  unfold State.dbufWrite; split <;> rfl

@[simp] theorem State.dbufWrite_retryTick (s : State) (i : Nat) (v : Byte) :
    (s.dbufWrite i v).retryTick = s.retryTick := by
  unfold State.dbufWrite; split <;> rfl

@[simp] theorem State.dbufWrite_abort (s : State) (i : Nat) (v : Byte) :
    (s.dbufWrite i v).abort = s.abort := by
  unfold State.dbufWrite; split <;> rfl

@[simp] theorem State.dbufWrite_inputs (s : State) (i : Nat) (v : Byte) :
    (s.dbufWrite i v).inputs = s.inputs := by
  unfold State.dbufWrite; split <;> rfl

@[simp] theorem State.dbufWrite_chan (s : State) (i : Nat) (v : Byte) :
    (s.dbufWrite i v).chan = s.chan := by
  unfold State.dbufWrite; split <;> rfl

@[simp] theorem State.dbufWrite_host (s : State) (i : Nat) (v : Byte) :
    (s.dbufWrite i v).host = s.host := by
  unfold State.dbufWrite; split <;> rfl

/-! ### `Channel.setUnread` -/

@[simp] theorem Channel.setUnread_unread (c : Channel) (u : List Byte) :
    (c.setUnread u).unread = u := rfl

@[simp] theorem Channel.setUnread_queued (c : Channel) (u : List Byte) :
    (c.setUnread u).queued = c.queued := rfl

@[simp] theorem Channel.setUnread_sent (c : Channel) (u : List Byte) :
    (c.setUnread u).sent = c.sent := rfl

@[simp] theorem Channel.setUnread_pollScript (c : Channel) (u : List Byte) :
    (c.setUnread u).pollScript = c.pollScript := rfl

@[simp] theorem Channel.setUnread_writeScript (c : Channel) (u : List Byte) :
    (c.setUnread u).writeScript = c.writeScript := rfl

@[simp] theorem Channel.setUnread_drainScript (c : Channel) (u : List Byte) :
    (c.setUnread u).drainScript = c.drainScript := rfl

@[simp] theorem Channel.setUnread_flushScript (c : Channel) (u : List Byte) :
    (c.setUnread u).flushScript = c.flushScript := rfl

@[simp] theorem Channel.setUnread_abandonScript (c : Channel) (u : List Byte) :
    (c.setUnread u).abandonScript = c.abandonScript := rfl

@[simp] theorem Channel.setUnread_pollCalls (c : Channel) (u : List Byte) :
    (c.setUnread u).pollCalls = c.pollCalls := rfl

@[simp] theorem Channel.setUnread_writeCalls (c : Channel) (u : List Byte) :
    (c.setUnread u).writeCalls = c.writeCalls := rfl

@[simp] theorem Channel.setUnread_drainCalls (c : Channel) (u : List Byte) :
    (c.setUnread u).drainCalls = c.drainCalls := rfl

@[simp] theorem Channel.setUnread_flushCalls (c : Channel) (u : List Byte) :
    (c.setUnread u).flushCalls = c.flushCalls := rfl

@[simp] theorem Channel.setUnread_abandons (c : Channel) (u : List Byte) :
    (c.setUnread u).abandons = c.abandons := rfl

/-! ### `Channel.setQueued` -/

@[simp] theorem Channel.setQueued_unread (c : Channel) (q : List Byte) :
    (c.setQueued q).unread = c.unread := rfl

@[simp] theorem Channel.setQueued_queued (c : Channel) (q : List Byte) :
    (c.setQueued q).queued = q := rfl

@[simp] theorem Channel.setQueued_sent (c : Channel) (q : List Byte) :
    (c.setQueued q).sent = c.sent := rfl

@[simp] theorem Channel.setQueued_pollScript (c : Channel) (q : List Byte) :
    (c.setQueued q).pollScript = c.pollScript := rfl

@[simp] theorem Channel.setQueued_writeScript (c : Channel) (q : List Byte) :
    (c.setQueued q).writeScript = c.writeScript := rfl

@[simp] theorem Channel.setQueued_drainScript (c : Channel) (q : List Byte) :
    (c.setQueued q).drainScript = c.drainScript := rfl

@[simp] theorem Channel.setQueued_flushScript (c : Channel) (q : List Byte) :
    (c.setQueued q).flushScript = c.flushScript := rfl

@[simp] theorem Channel.setQueued_abandonScript (c : Channel) (q : List Byte) :
    (c.setQueued q).abandonScript = c.abandonScript := rfl

@[simp] theorem Channel.setQueued_pollCalls (c : Channel) (q : List Byte) :
    (c.setQueued q).pollCalls = c.pollCalls := rfl

@[simp] theorem Channel.setQueued_writeCalls (c : Channel) (q : List Byte) :
    (c.setQueued q).writeCalls = c.writeCalls := rfl

@[simp] theorem Channel.setQueued_drainCalls (c : Channel) (q : List Byte) :
    (c.setQueued q).drainCalls = c.drainCalls := rfl

@[simp] theorem Channel.setQueued_flushCalls (c : Channel) (q : List Byte) :
    (c.setQueued q).flushCalls = c.flushCalls := rfl

@[simp] theorem Channel.setQueued_abandons (c : Channel) (q : List Byte) :
    (c.setQueued q).abandons = c.abandons := rfl

/-! ### `Channel.setSent` -/

@[simp] theorem Channel.setSent_unread (c : Channel) (z : List Byte) :
    (c.setSent z).unread = c.unread := rfl

@[simp] theorem Channel.setSent_queued (c : Channel) (z : List Byte) :
    (c.setSent z).queued = c.queued := rfl

@[simp] theorem Channel.setSent_sent (c : Channel) (z : List Byte) :
    (c.setSent z).sent = z := rfl

@[simp] theorem Channel.setSent_pollScript (c : Channel) (z : List Byte) :
    (c.setSent z).pollScript = c.pollScript := rfl

@[simp] theorem Channel.setSent_writeScript (c : Channel) (z : List Byte) :
    (c.setSent z).writeScript = c.writeScript := rfl

@[simp] theorem Channel.setSent_drainScript (c : Channel) (z : List Byte) :
    (c.setSent z).drainScript = c.drainScript := rfl

@[simp] theorem Channel.setSent_flushScript (c : Channel) (z : List Byte) :
    (c.setSent z).flushScript = c.flushScript := rfl

@[simp] theorem Channel.setSent_abandonScript (c : Channel) (z : List Byte) :
    (c.setSent z).abandonScript = c.abandonScript := rfl

@[simp] theorem Channel.setSent_pollCalls (c : Channel) (z : List Byte) :
    (c.setSent z).pollCalls = c.pollCalls := rfl

@[simp] theorem Channel.setSent_writeCalls (c : Channel) (z : List Byte) :
    (c.setSent z).writeCalls = c.writeCalls := rfl

@[simp] theorem Channel.setSent_drainCalls (c : Channel) (z : List Byte) :
    (c.setSent z).drainCalls = c.drainCalls := rfl

@[simp] theorem Channel.setSent_flushCalls (c : Channel) (z : List Byte) :
    (c.setSent z).flushCalls = c.flushCalls := rfl

@[simp] theorem Channel.setSent_abandons (c : Channel) (z : List Byte) :
    (c.setSent z).abandons = c.abandons := rfl

/-! ### `Channel.polled` -/

@[simp] theorem Channel.polled_unread (c : Channel) :
    (c.polled).unread = c.unread := rfl

@[simp] theorem Channel.polled_queued (c : Channel) :
    (c.polled).queued = c.queued := rfl

@[simp] theorem Channel.polled_sent (c : Channel) :
    (c.polled).sent = c.sent := rfl

@[simp] theorem Channel.polled_pollScript (c : Channel) :
    (c.polled).pollScript = c.pollScript.tail := rfl

@[simp] theorem Channel.polled_writeScript (c : Channel) :
    (c.polled).writeScript = c.writeScript := rfl

@[simp] theorem Channel.polled_drainScript (c : Channel) :
    (c.polled).drainScript = c.drainScript := rfl

@[simp] theorem Channel.polled_flushScript (c : Channel) :
    (c.polled).flushScript = c.flushScript := rfl

@[simp] theorem Channel.polled_abandonScript (c : Channel) :
    (c.polled).abandonScript = c.abandonScript := rfl

@[simp] theorem Channel.polled_pollCalls (c : Channel) :
    (c.polled).pollCalls = c.pollCalls + 1 := rfl

@[simp] theorem Channel.polled_writeCalls (c : Channel) :
    (c.polled).writeCalls = c.writeCalls := rfl

@[simp] theorem Channel.polled_drainCalls (c : Channel) :
    (c.polled).drainCalls = c.drainCalls := rfl

@[simp] theorem Channel.polled_flushCalls (c : Channel) :
    (c.polled).flushCalls = c.flushCalls := rfl

@[simp] theorem Channel.polled_abandons (c : Channel) :
    (c.polled).abandons = c.abandons := rfl

/-! ### `Channel.tried` -/

@[simp] theorem Channel.tried_unread (c : Channel) :
    (c.tried).unread = c.unread := rfl

@[simp] theorem Channel.tried_queued (c : Channel) :
    (c.tried).queued = c.queued := rfl

@[simp] theorem Channel.tried_sent (c : Channel) :
    (c.tried).sent = c.sent := rfl

@[simp] theorem Channel.tried_pollScript (c : Channel) :
    (c.tried).pollScript = c.pollScript := rfl

@[simp] theorem Channel.tried_writeScript (c : Channel) :
    (c.tried).writeScript = c.writeScript.tail := rfl

@[simp] theorem Channel.tried_drainScript (c : Channel) :
    (c.tried).drainScript = c.drainScript := rfl

@[simp] theorem Channel.tried_flushScript (c : Channel) :
    (c.tried).flushScript = c.flushScript := rfl

@[simp] theorem Channel.tried_abandonScript (c : Channel) :
    (c.tried).abandonScript = c.abandonScript := rfl

@[simp] theorem Channel.tried_pollCalls (c : Channel) :
    (c.tried).pollCalls = c.pollCalls := rfl

@[simp] theorem Channel.tried_writeCalls (c : Channel) :
    (c.tried).writeCalls = c.writeCalls + 1 := rfl

@[simp] theorem Channel.tried_drainCalls (c : Channel) :
    (c.tried).drainCalls = c.drainCalls := rfl

@[simp] theorem Channel.tried_flushCalls (c : Channel) :
    (c.tried).flushCalls = c.flushCalls := rfl

@[simp] theorem Channel.tried_abandons (c : Channel) :
    (c.tried).abandons = c.abandons := rfl

/-! ### `Channel.drainTried` -/

@[simp] theorem Channel.drainTried_unread (c : Channel) :
    (c.drainTried).unread = c.unread := rfl

@[simp] theorem Channel.drainTried_queued (c : Channel) :
    (c.drainTried).queued = c.queued := rfl

@[simp] theorem Channel.drainTried_sent (c : Channel) :
    (c.drainTried).sent = c.sent := rfl

@[simp] theorem Channel.drainTried_pollScript (c : Channel) :
    (c.drainTried).pollScript = c.pollScript := rfl

@[simp] theorem Channel.drainTried_writeScript (c : Channel) :
    (c.drainTried).writeScript = c.writeScript := rfl

@[simp] theorem Channel.drainTried_drainScript (c : Channel) :
    (c.drainTried).drainScript = c.drainScript.tail := rfl

@[simp] theorem Channel.drainTried_flushScript (c : Channel) :
    (c.drainTried).flushScript = c.flushScript := rfl

@[simp] theorem Channel.drainTried_abandonScript (c : Channel) :
    (c.drainTried).abandonScript = c.abandonScript := rfl

@[simp] theorem Channel.drainTried_pollCalls (c : Channel) :
    (c.drainTried).pollCalls = c.pollCalls := rfl

@[simp] theorem Channel.drainTried_writeCalls (c : Channel) :
    (c.drainTried).writeCalls = c.writeCalls := rfl

@[simp] theorem Channel.drainTried_drainCalls (c : Channel) :
    (c.drainTried).drainCalls = c.drainCalls + 1 := rfl

@[simp] theorem Channel.drainTried_flushCalls (c : Channel) :
    (c.drainTried).flushCalls = c.flushCalls := rfl

@[simp] theorem Channel.drainTried_abandons (c : Channel) :
    (c.drainTried).abandons = c.abandons := rfl

/-! ### `Channel.flushTried` -/

@[simp] theorem Channel.flushTried_unread (c : Channel) :
    (c.flushTried).unread = c.unread := rfl

@[simp] theorem Channel.flushTried_queued (c : Channel) :
    (c.flushTried).queued = c.queued := rfl

@[simp] theorem Channel.flushTried_sent (c : Channel) :
    (c.flushTried).sent = c.sent := rfl

@[simp] theorem Channel.flushTried_pollScript (c : Channel) :
    (c.flushTried).pollScript = c.pollScript := rfl

@[simp] theorem Channel.flushTried_writeScript (c : Channel) :
    (c.flushTried).writeScript = c.writeScript := rfl

@[simp] theorem Channel.flushTried_drainScript (c : Channel) :
    (c.flushTried).drainScript = c.drainScript := rfl

@[simp] theorem Channel.flushTried_flushScript (c : Channel) :
    (c.flushTried).flushScript = c.flushScript.tail := rfl

@[simp] theorem Channel.flushTried_abandonScript (c : Channel) :
    (c.flushTried).abandonScript = c.abandonScript := rfl

@[simp] theorem Channel.flushTried_pollCalls (c : Channel) :
    (c.flushTried).pollCalls = c.pollCalls := rfl

@[simp] theorem Channel.flushTried_writeCalls (c : Channel) :
    (c.flushTried).writeCalls = c.writeCalls := rfl

@[simp] theorem Channel.flushTried_drainCalls (c : Channel) :
    (c.flushTried).drainCalls = c.drainCalls := rfl

@[simp] theorem Channel.flushTried_flushCalls (c : Channel) :
    (c.flushTried).flushCalls = c.flushCalls + 1 := rfl

@[simp] theorem Channel.flushTried_abandons (c : Channel) :
    (c.flushTried).abandons = c.abandons := rfl

/-! ### `Channel.abandoned` -/

@[simp] theorem Channel.abandoned_unread (c : Channel) :
    (c.abandoned).unread = c.unread := rfl

@[simp] theorem Channel.abandoned_queued (c : Channel) :
    (c.abandoned).queued = c.queued := rfl

@[simp] theorem Channel.abandoned_sent (c : Channel) :
    (c.abandoned).sent = c.sent := rfl

@[simp] theorem Channel.abandoned_pollScript (c : Channel) :
    (c.abandoned).pollScript = c.pollScript := rfl

@[simp] theorem Channel.abandoned_writeScript (c : Channel) :
    (c.abandoned).writeScript = c.writeScript := rfl

@[simp] theorem Channel.abandoned_drainScript (c : Channel) :
    (c.abandoned).drainScript = c.drainScript := rfl

@[simp] theorem Channel.abandoned_flushScript (c : Channel) :
    (c.abandoned).flushScript = c.flushScript := rfl

@[simp] theorem Channel.abandoned_abandonScript (c : Channel) :
    (c.abandoned).abandonScript = c.abandonScript.tail := rfl

@[simp] theorem Channel.abandoned_pollCalls (c : Channel) :
    (c.abandoned).pollCalls = c.pollCalls := rfl

@[simp] theorem Channel.abandoned_writeCalls (c : Channel) :
    (c.abandoned).writeCalls = c.writeCalls := rfl

@[simp] theorem Channel.abandoned_drainCalls (c : Channel) :
    (c.abandoned).drainCalls = c.drainCalls := rfl

@[simp] theorem Channel.abandoned_flushCalls (c : Channel) :
    (c.abandoned).flushCalls = c.flushCalls := rfl

@[simp] theorem Channel.abandoned_abandons (c : Channel) :
    (c.abandoned).abandons = c.abandons + 1 := rfl

/-! ### `HostSide.setProg` -/

@[simp] theorem HostSide.setProg_prog (h : HostSide) (ops : List HostOp) :
    (h.setProg ops).prog = ops := rfl

@[simp] theorem HostSide.setProg_recs (h : HostSide) (ops : List HostOp) :
    (h.setProg ops).recs = h.recs := rfl

@[simp] theorem HostSide.setProg_mode (h : HostSide) (ops : List HostOp) :
    (h.setProg ops).mode = h.mode := rfl

@[simp] theorem HostSide.setProg_progress (h : HostSide) (ops : List HostOp) :
    (h.setProg ops).progress = h.progress := rfl

@[simp] theorem HostSide.setProg_retries (h : HostSide) (ops : List HostOp) :
    (h.setProg ops).retries = h.retries := rfl

@[simp] theorem HostSide.setProg_readData (h : HostSide) (ops : List HostOp) :
    (h.setProg ops).readData = h.readData := rfl

@[simp] theorem HostSide.setProg_ended (h : HostSide) (ops : List HostOp) :
    (h.setProg ops).ended = h.ended := rfl

/-! ### `HostSide.finish` -/

@[simp] theorem HostSide.finish_prog (h : HostSide) (e : SessionEnd) :
    (h.finish e).prog = [] := rfl

@[simp] theorem HostSide.finish_recs (h : HostSide) (e : SessionEnd) :
    (h.finish e).recs = h.recs := rfl

@[simp] theorem HostSide.finish_mode (h : HostSide) (e : SessionEnd) :
    (h.finish e).mode = h.mode := rfl

@[simp] theorem HostSide.finish_progress (h : HostSide) (e : SessionEnd) :
    (h.finish e).progress = h.progress := rfl

@[simp] theorem HostSide.finish_retries (h : HostSide) (e : SessionEnd) :
    (h.finish e).retries = h.retries := rfl

@[simp] theorem HostSide.finish_readData (h : HostSide) (e : SessionEnd) :
    (h.finish e).readData = h.readData := rfl

@[simp] theorem HostSide.finish_ended (h : HostSide) (e : SessionEnd) :
    (h.finish e).ended = some e := rfl

/-! ### `HostSide.tickProgress` -/

@[simp] theorem HostSide.tickProgress_prog (h : HostSide) :
    (h.tickProgress).prog = h.prog := rfl

@[simp] theorem HostSide.tickProgress_recs (h : HostSide) :
    (h.tickProgress).recs = h.recs := rfl

@[simp] theorem HostSide.tickProgress_mode (h : HostSide) :
    (h.tickProgress).mode = h.mode := rfl

@[simp] theorem HostSide.tickProgress_progress (h : HostSide) :
    (h.tickProgress).progress = h.progress + 1 := rfl

@[simp] theorem HostSide.tickProgress_retries (h : HostSide) :
    (h.tickProgress).retries = h.retries := rfl

@[simp] theorem HostSide.tickProgress_readData (h : HostSide) :
    (h.tickProgress).readData = h.readData := rfl

@[simp] theorem HostSide.tickProgress_ended (h : HostSide) :
    (h.tickProgress).ended = h.ended := rfl

/-! ### `HostSide.countRecord` -/

@[simp] theorem HostSide.countRecord_prog (h : HostSide) :
    (h.countRecord).prog = h.prog := rfl

@[simp] theorem HostSide.countRecord_recs (h : HostSide) :
    (h.countRecord).recs = h.recs + 1 := rfl

@[simp] theorem HostSide.countRecord_mode (h : HostSide) :
    (h.countRecord).mode = h.mode := rfl

@[simp] theorem HostSide.countRecord_progress (h : HostSide) :
    (h.countRecord).progress = h.progress := rfl

@[simp] theorem HostSide.countRecord_retries (h : HostSide) :
    (h.countRecord).retries = h.retries := rfl

@[simp] theorem HostSide.countRecord_readData (h : HostSide) :
    (h.countRecord).readData = h.readData := rfl

@[simp] theorem HostSide.countRecord_ended (h : HostSide) :
    (h.countRecord).ended = h.ended := rfl

/-! ### `HostSide.setMode` -/

@[simp] theorem HostSide.setMode_prog (h : HostSide) (m : SessionMode) :
    (h.setMode m).prog = h.prog := rfl

@[simp] theorem HostSide.setMode_recs (h : HostSide) (m : SessionMode) :
    (h.setMode m).recs = h.recs := rfl

@[simp] theorem HostSide.setMode_mode (h : HostSide) (m : SessionMode) :
    (h.setMode m).mode = m := rfl

@[simp] theorem HostSide.setMode_progress (h : HostSide) (m : SessionMode) :
    (h.setMode m).progress = h.progress := rfl

@[simp] theorem HostSide.setMode_retries (h : HostSide) (m : SessionMode) :
    (h.setMode m).retries = h.retries := rfl

@[simp] theorem HostSide.setMode_readData (h : HostSide) (m : SessionMode) :
    (h.setMode m).readData = h.readData := rfl

@[simp] theorem HostSide.setMode_ended (h : HostSide) (m : SessionMode) :
    (h.setMode m).ended = h.ended := rfl

/-! ### `HostSide.begin` -/

@[simp] theorem HostSide.begin_prog (h : HostSide) (m : SessionMode) :
    (h.begin m).prog = h.prog := rfl

@[simp] theorem HostSide.begin_recs (h : HostSide) (m : SessionMode) :
    (h.begin m).recs = 0 := rfl

@[simp] theorem HostSide.begin_mode (h : HostSide) (m : SessionMode) :
    (h.begin m).mode = m := rfl

@[simp] theorem HostSide.begin_progress (h : HostSide) (m : SessionMode) :
    (h.begin m).progress = h.progress := rfl

@[simp] theorem HostSide.begin_retries (h : HostSide) (m : SessionMode) :
    (h.begin m).retries = h.retries := rfl

@[simp] theorem HostSide.begin_readData (h : HostSide) (m : SessionMode) :
    (h.begin m).readData = h.readData := rfl

@[simp] theorem HostSide.begin_ended (h : HostSide) (m : SessionMode) :
    (h.begin m).ended = none := rfl

/-! ### `HostSide.seeRetry` -/

@[simp] theorem HostSide.seeRetry_prog (h : HostSide) :
    (h.seeRetry).prog = h.prog := rfl

@[simp] theorem HostSide.seeRetry_recs (h : HostSide) :
    (h.seeRetry).recs = h.recs := rfl

@[simp] theorem HostSide.seeRetry_mode (h : HostSide) :
    (h.seeRetry).mode = h.mode := rfl

@[simp] theorem HostSide.seeRetry_progress (h : HostSide) :
    (h.seeRetry).progress = h.progress := rfl

@[simp] theorem HostSide.seeRetry_retries (h : HostSide) :
    (h.seeRetry).retries = h.retries + 1 := rfl

@[simp] theorem HostSide.seeRetry_readData (h : HostSide) :
    (h.seeRetry).readData = h.readData := rfl

@[simp] theorem HostSide.seeRetry_ended (h : HostSide) :
    (h.seeRetry).ended = h.ended := rfl

/-! ### `HostSide.takeRead` -/

@[simp] theorem HostSide.takeRead_prog (h : HostSide) (v : Byte) :
    (h.takeRead v).prog = h.prog := rfl

@[simp] theorem HostSide.takeRead_recs (h : HostSide) (v : Byte) :
    (h.takeRead v).recs = h.recs := rfl

@[simp] theorem HostSide.takeRead_mode (h : HostSide) (v : Byte) :
    (h.takeRead v).mode = h.mode := rfl

@[simp] theorem HostSide.takeRead_progress (h : HostSide) (v : Byte) :
    (h.takeRead v).progress = h.progress := rfl

@[simp] theorem HostSide.takeRead_retries (h : HostSide) (v : Byte) :
    (h.takeRead v).retries = h.retries := rfl

@[simp] theorem HostSide.takeRead_readData (h : HostSide) (v : Byte) :
    (h.takeRead v).readData = some v := rfl

@[simp] theorem HostSide.takeRead_ended (h : HostSide) (v : Byte) :
    (h.takeRead v).ended = h.ended := rfl

/-! ### `HostSide.launch` -/

@[simp] theorem HostSide.launch_recs (h : HostSide) (cfg : SessionConfig) :
    (h.launch cfg).recs = h.recs := by
  unfold HostSide.launch; split <;> rfl

@[simp] theorem HostSide.launch_mode (h : HostSide) (cfg : SessionConfig) :
    (h.launch cfg).mode = h.mode := by
  unfold HostSide.launch; split <;> rfl

@[simp] theorem HostSide.launch_progress (h : HostSide) (cfg : SessionConfig) :
    (h.launch cfg).progress = h.progress := by
  unfold HostSide.launch; split <;> rfl

@[simp] theorem HostSide.launch_retries (h : HostSide) (cfg : SessionConfig) :
    (h.launch cfg).retries = h.retries := by
  unfold HostSide.launch; split <;> rfl

@[simp] theorem HostSide.launch_readData (h : HostSide) (cfg : SessionConfig) :
    (h.launch cfg).readData = h.readData := by
  unfold HostSide.launch; split <;> rfl

@[simp] theorem HostSide.launch_ended (h : HostSide) (cfg : SessionConfig) :
    (h.launch cfg).ended = h.ended := by
  unfold HostSide.launch; split <;> rfl

/-- A session starts in a new process. -/
theorem HostSide.launch_fresh {h : HostSide} (cfg : SessionConfig) (hp : h.prog = [])
    (he : h.ended = none) : h.launch cfg = h.setProg [.session cfg] := by
  simp [HostSide.launch, hp, he]

/-- With a session under way, or after one, nothing starts. -/
theorem HostSide.launch_again {h : HostSide} (cfg : SessionConfig)
    (hu : h.prog ≠ [] ∨ h.ended ≠ none) : h.launch cfg = h := by
  unfold HostSide.launch
  rw [if_neg]
  rcases hu with hu | hu <;> simp_all

end Sys2Proof.Machine
end

