-- ==== Sys2Proof/Laws/Ops.lean ====
section
/-!
SUPPORT. One lemma per shared operation that says everything it can do: the channel primitives, the
priority chain in front of a command, the sampling of `abort`, the turn of a wait.
-/

namespace Sys2Proof.Machine

/-! ### The channel primitives: what each leaves alone -/

theorem Channel.deliver_cases (c : Channel) :
    (∃ x rest, c.unread = x :: rest ∧ c.deliver = (.rx x, c.setUnread rest)) ∨
    (c.unread = [] ∧ c.deliver = (.tick, c)) := by
  unfold Channel.deliver
  cases h : c.unread with
  | nil => exact .inr ⟨rfl, rfl⟩
  | cons x rest => exact .inl ⟨x, rest, rfl, rfl⟩

/-- Everything a poll can answer, and what it leaves in the channel (20 R66). -/
theorem Channel.poll_cases (c : Channel) :
    (∃ b x rest, c.pollDraw = .arrives b ∧ c.unread ++ [b] = x :: rest ∧
      c.poll = (.rx x, c.polled.setUnread rest)) ∨
    (∃ x rest, c.pollDraw = .quiet ∧ c.unread = x :: rest ∧
      c.poll = (.rx x, c.polled.setUnread rest)) ∨
    (c.pollDraw = .quiet ∧ c.unread = [] ∧ c.poll = (.tick, c.polled)) ∨
    (∃ keep, c.pollDraw = .fault keep ∧
      c.poll = (.rxFault, c.polled.setUnread (keepBy keep c.unread))) := by
  unfold Channel.poll
  cases hd : c.pollDraw with
  | arrives b =>
    rcases Channel.deliver_cases (c.polled.setUnread (c.unread ++ [b])) with
      ⟨x, rest, hu, h⟩ | ⟨hn, _⟩
    · exact .inl ⟨b, x, rest, rfl, by simpa using hu, h⟩
    · simp at hn
  | quiet =>
    rcases Channel.deliver_cases c.polled with ⟨x, rest, hu, h⟩ | ⟨hn, h⟩
    · exact .inr (.inl ⟨x, rest, rfl, hu, h⟩)
    · exact .inr (.inr (.inl ⟨rfl, hn, h⟩))
  | fault keep => exact .inr (.inr (.inr ⟨keep, rfl, rfl⟩))

/-- A poll uses up one draw and touches nothing else but the unread input. -/
theorem Channel.poll_frame (c : Channel) : ∃ u, c.poll.2 = c.polled.setUnread u := by
  rcases c.poll_cases with ⟨_, _, r, _, _, h⟩ | ⟨_, r, _, _, h⟩ | ⟨_, _, h⟩ | ⟨_, _, h⟩
  · exact ⟨r, by rw [h]⟩
  · exact ⟨r, by rw [h]⟩
  · exact ⟨c.unread, by rw [h]; rfl⟩
  · exact ⟨_, by rw [h]⟩

/-- A TICK is answered exactly when the draw is silence and nothing is unread. -/
theorem Channel.poll_tick_iff (c : Channel) :
    c.poll.1 = .tick ↔ c.pollDraw = .quiet ∧ c.unread = [] := by
  rcases c.poll_cases with ⟨_, _, _, hd, _, h⟩ | ⟨_, _, hd, hu, h⟩ | ⟨hd, hu, h⟩ | ⟨_, hd, h⟩ <;>
    simp_all

/-- With nothing unread, a byte that arrives is delivered at once. -/
theorem Channel.poll_arrives {c : Channel} {b : Byte} (hd : c.pollDraw = .arrives b)
    (hu : c.unread = []) : c.poll = (.rx b, c.polled.setUnread []) := by
  simp [Channel.poll, hd, hu, Channel.deliver, Channel.setUnread]

/-- With nothing unread, silence is a TICK. -/
theorem Channel.poll_quiet {c : Channel} (hd : c.pollDraw = .quiet) (hu : c.unread = []) :
    c.poll = (.tick, c.polled) := by
  simp [Channel.poll, hd, Channel.deliver, hu]

/-- A write attempt touches nothing but the queued output (20 R67). -/
theorem Channel.tryWrite_frame (c : Channel) (b : Byte) :
    ∃ q, (c.tryWrite b).2 = c.tried.setQueued q := by
  unfold Channel.tryWrite
  cases c.writeDraw with
  | written => exact ⟨_, rfl⟩
  | busy => exact ⟨c.queued, rfl⟩
  | fault taken => exact ⟨_, rfl⟩

/-- A drain touches nothing but the queued output and the line (20 R68). -/
theorem Channel.drain_frame (c : Channel) :
    ∃ z q, c.drain.2 = (c.drainTried.setSent z).setQueued q := by
  unfold Channel.drain
  cases c.drainDraw with
  | done => exact ⟨_, _, rfl⟩
  | fault left keep => exact ⟨_, _, rfl⟩

/-- A flush touches nothing but the two queues (20 R69). -/
theorem Channel.flush_frame (c : Channel) :
    ∃ u q, c.flush.2 = (c.flushTried.setUnread u).setQueued q := by
  unfold Channel.flush
  cases c.flushDraw with
  | done => exact ⟨_, _, rfl⟩
  | fault ku kq => exact ⟨_, _, rfl⟩

/-- What an abandoned primitive can have done: nothing, or any effect on the queues, with more bytes gone out
(70 R260, 93 U18). -/
theorem Channel.abandon_cases (c : Channel) :
    (c.abandonDraw = .noEffect ∧ c.abandon = c.abandoned) ∨
    (∃ u q z, c.abandonDraw = .leaves u q z ∧
      c.abandon = ((c.abandoned.setUnread u).setQueued q).setSent (c.sent ++ z)) := by
  unfold Channel.abandon
  cases h : c.abandonDraw with
  | noEffect => exact .inl ⟨rfl, rfl⟩
  | leaves u q z => exact .inr ⟨u, q, z, rfl, rfl⟩

/-- An abandoned primitive touches nothing but the queues and the line. -/
theorem Channel.abandon_frame (c : Channel) :
    ∃ u q z, c.abandon = ((c.abandoned.setUnread u).setQueued q).setSent (c.sent ++ z) := by
  rcases c.abandon_cases with ⟨_, h⟩ | ⟨u, q, z, _, h⟩
  · exact ⟨c.unread, c.queued, [], by rw [h, List.append_nil]; rfl⟩
  · exact ⟨u, q, z, h⟩

/-! ### The channel primitives, field by field -/

@[simp] theorem Channel.poll_queued (c : Channel) : c.poll.2.queued = c.queued := by
  obtain ⟨u, h⟩ := c.poll_frame; simp [h]

@[simp] theorem Channel.poll_sent (c : Channel) : c.poll.2.sent = c.sent := by
  obtain ⟨u, h⟩ := c.poll_frame; simp [h]

@[simp] theorem Channel.poll_pollScript (c : Channel) : c.poll.2.pollScript = c.pollScript.tail := by
  obtain ⟨u, h⟩ := c.poll_frame; simp [h]

@[simp] theorem Channel.poll_writeScript (c : Channel) : c.poll.2.writeScript = c.writeScript := by
  obtain ⟨u, h⟩ := c.poll_frame; simp [h]

@[simp] theorem Channel.poll_drainScript (c : Channel) : c.poll.2.drainScript = c.drainScript := by
  obtain ⟨u, h⟩ := c.poll_frame; simp [h]

@[simp] theorem Channel.poll_flushScript (c : Channel) : c.poll.2.flushScript = c.flushScript := by
  obtain ⟨u, h⟩ := c.poll_frame; simp [h]

@[simp] theorem Channel.poll_pollCalls (c : Channel) : c.poll.2.pollCalls = c.pollCalls + 1 := by
  obtain ⟨u, h⟩ := c.poll_frame; simp [h]

@[simp] theorem Channel.poll_writeCalls (c : Channel) : c.poll.2.writeCalls = c.writeCalls := by
  obtain ⟨u, h⟩ := c.poll_frame; simp [h]

@[simp] theorem Channel.poll_drainCalls (c : Channel) : c.poll.2.drainCalls = c.drainCalls := by
  obtain ⟨u, h⟩ := c.poll_frame; simp [h]

@[simp] theorem Channel.poll_flushCalls (c : Channel) : c.poll.2.flushCalls = c.flushCalls := by
  obtain ⟨u, h⟩ := c.poll_frame; simp [h]

@[simp] theorem Channel.tryWrite_unread (c : Channel) (b : Byte) : (c.tryWrite b).2.unread = c.unread := by
  obtain ⟨q, h⟩ := c.tryWrite_frame b; simp [h]

@[simp] theorem Channel.tryWrite_sent (c : Channel) (b : Byte) : (c.tryWrite b).2.sent = c.sent := by
  obtain ⟨q, h⟩ := c.tryWrite_frame b; simp [h]

@[simp] theorem Channel.tryWrite_pollScript (c : Channel) (b : Byte) : (c.tryWrite b).2.pollScript = c.pollScript := by
  obtain ⟨q, h⟩ := c.tryWrite_frame b; simp [h]

@[simp] theorem Channel.tryWrite_writeScript (c : Channel) (b : Byte) : (c.tryWrite b).2.writeScript = c.writeScript.tail := by
  obtain ⟨q, h⟩ := c.tryWrite_frame b; simp [h]

@[simp] theorem Channel.tryWrite_drainScript (c : Channel) (b : Byte) : (c.tryWrite b).2.drainScript = c.drainScript := by
  obtain ⟨q, h⟩ := c.tryWrite_frame b; simp [h]

@[simp] theorem Channel.tryWrite_flushScript (c : Channel) (b : Byte) : (c.tryWrite b).2.flushScript = c.flushScript := by
  obtain ⟨q, h⟩ := c.tryWrite_frame b; simp [h]

@[simp] theorem Channel.tryWrite_pollCalls (c : Channel) (b : Byte) : (c.tryWrite b).2.pollCalls = c.pollCalls := by
  obtain ⟨q, h⟩ := c.tryWrite_frame b; simp [h]

@[simp] theorem Channel.tryWrite_writeCalls (c : Channel) (b : Byte) : (c.tryWrite b).2.writeCalls = c.writeCalls + 1 := by
  obtain ⟨q, h⟩ := c.tryWrite_frame b; simp [h]

@[simp] theorem Channel.tryWrite_drainCalls (c : Channel) (b : Byte) : (c.tryWrite b).2.drainCalls = c.drainCalls := by
  obtain ⟨q, h⟩ := c.tryWrite_frame b; simp [h]

@[simp] theorem Channel.tryWrite_flushCalls (c : Channel) (b : Byte) : (c.tryWrite b).2.flushCalls = c.flushCalls := by
  obtain ⟨q, h⟩ := c.tryWrite_frame b; simp [h]

@[simp] theorem Channel.drain_unread (c : Channel) : c.drain.2.unread = c.unread := by
  obtain ⟨z, q, h⟩ := c.drain_frame; simp [h]

@[simp] theorem Channel.drain_pollScript (c : Channel) : c.drain.2.pollScript = c.pollScript := by
  obtain ⟨z, q, h⟩ := c.drain_frame; simp [h]

@[simp] theorem Channel.drain_writeScript (c : Channel) : c.drain.2.writeScript = c.writeScript := by
  obtain ⟨z, q, h⟩ := c.drain_frame; simp [h]

@[simp] theorem Channel.drain_drainScript (c : Channel) : c.drain.2.drainScript = c.drainScript.tail := by
  obtain ⟨z, q, h⟩ := c.drain_frame; simp [h]

@[simp] theorem Channel.drain_flushScript (c : Channel) : c.drain.2.flushScript = c.flushScript := by
  obtain ⟨z, q, h⟩ := c.drain_frame; simp [h]

@[simp] theorem Channel.drain_pollCalls (c : Channel) : c.drain.2.pollCalls = c.pollCalls := by
  obtain ⟨z, q, h⟩ := c.drain_frame; simp [h]

@[simp] theorem Channel.drain_writeCalls (c : Channel) : c.drain.2.writeCalls = c.writeCalls := by
  obtain ⟨z, q, h⟩ := c.drain_frame; simp [h]

@[simp] theorem Channel.drain_drainCalls (c : Channel) : c.drain.2.drainCalls = c.drainCalls + 1 := by
  obtain ⟨z, q, h⟩ := c.drain_frame; simp [h]

@[simp] theorem Channel.drain_flushCalls (c : Channel) : c.drain.2.flushCalls = c.flushCalls := by
  obtain ⟨z, q, h⟩ := c.drain_frame; simp [h]

@[simp] theorem Channel.flush_sent (c : Channel) : c.flush.2.sent = c.sent := by
  obtain ⟨u, q, h⟩ := c.flush_frame; simp [h]

@[simp] theorem Channel.flush_pollScript (c : Channel) : c.flush.2.pollScript = c.pollScript := by
  obtain ⟨u, q, h⟩ := c.flush_frame; simp [h]

@[simp] theorem Channel.flush_writeScript (c : Channel) : c.flush.2.writeScript = c.writeScript := by
  obtain ⟨u, q, h⟩ := c.flush_frame; simp [h]

@[simp] theorem Channel.flush_drainScript (c : Channel) : c.flush.2.drainScript = c.drainScript := by
  obtain ⟨u, q, h⟩ := c.flush_frame; simp [h]

@[simp] theorem Channel.flush_flushScript (c : Channel) : c.flush.2.flushScript = c.flushScript.tail := by
  obtain ⟨u, q, h⟩ := c.flush_frame; simp [h]

@[simp] theorem Channel.flush_pollCalls (c : Channel) : c.flush.2.pollCalls = c.pollCalls := by
  obtain ⟨u, q, h⟩ := c.flush_frame; simp [h]

@[simp] theorem Channel.flush_writeCalls (c : Channel) : c.flush.2.writeCalls = c.writeCalls := by
  obtain ⟨u, q, h⟩ := c.flush_frame; simp [h]

@[simp] theorem Channel.flush_drainCalls (c : Channel) : c.flush.2.drainCalls = c.drainCalls := by
  obtain ⟨u, q, h⟩ := c.flush_frame; simp [h]

@[simp] theorem Channel.flush_flushCalls (c : Channel) : c.flush.2.flushCalls = c.flushCalls + 1 := by
  obtain ⟨u, q, h⟩ := c.flush_frame; simp [h]

@[simp] theorem Channel.poll_abandonScript (c : Channel) : c.poll.2.abandonScript = c.abandonScript := by
  obtain ⟨u, h⟩ := c.poll_frame; simp [h]

@[simp] theorem Channel.poll_abandons (c : Channel) : c.poll.2.abandons = c.abandons := by
  obtain ⟨u, h⟩ := c.poll_frame; simp [h]

@[simp] theorem Channel.tryWrite_abandonScript (c : Channel) (b : Byte) : (c.tryWrite b).2.abandonScript = c.abandonScript := by
  obtain ⟨q, h⟩ := c.tryWrite_frame b; simp [h]

@[simp] theorem Channel.tryWrite_abandons (c : Channel) (b : Byte) : (c.tryWrite b).2.abandons = c.abandons := by
  obtain ⟨q, h⟩ := c.tryWrite_frame b; simp [h]

@[simp] theorem Channel.drain_abandonScript (c : Channel) : c.drain.2.abandonScript = c.abandonScript := by
  obtain ⟨z, q, h⟩ := c.drain_frame; simp [h]

@[simp] theorem Channel.drain_abandons (c : Channel) : c.drain.2.abandons = c.abandons := by
  obtain ⟨z, q, h⟩ := c.drain_frame; simp [h]

@[simp] theorem Channel.flush_abandonScript (c : Channel) : c.flush.2.abandonScript = c.abandonScript := by
  obtain ⟨u, q, h⟩ := c.flush_frame; simp [h]

@[simp] theorem Channel.flush_abandons (c : Channel) : c.flush.2.abandons = c.abandons := by
  obtain ⟨u, q, h⟩ := c.flush_frame; simp [h]

@[simp] theorem Channel.abandon_pollScript (c : Channel) : c.abandon.pollScript = c.pollScript := by
  obtain ⟨u, q, z, h⟩ := c.abandon_frame; simp [h]

@[simp] theorem Channel.abandon_writeScript (c : Channel) : c.abandon.writeScript = c.writeScript := by
  obtain ⟨u, q, z, h⟩ := c.abandon_frame; simp [h]

@[simp] theorem Channel.abandon_drainScript (c : Channel) : c.abandon.drainScript = c.drainScript := by
  obtain ⟨u, q, z, h⟩ := c.abandon_frame; simp [h]

@[simp] theorem Channel.abandon_flushScript (c : Channel) : c.abandon.flushScript = c.flushScript := by
  obtain ⟨u, q, z, h⟩ := c.abandon_frame; simp [h]

@[simp] theorem Channel.abandon_pollCalls (c : Channel) : c.abandon.pollCalls = c.pollCalls := by
  obtain ⟨u, q, z, h⟩ := c.abandon_frame; simp [h]

@[simp] theorem Channel.abandon_writeCalls (c : Channel) : c.abandon.writeCalls = c.writeCalls := by
  obtain ⟨u, q, z, h⟩ := c.abandon_frame; simp [h]

@[simp] theorem Channel.abandon_drainCalls (c : Channel) : c.abandon.drainCalls = c.drainCalls := by
  obtain ⟨u, q, z, h⟩ := c.abandon_frame; simp [h]

@[simp] theorem Channel.abandon_flushCalls (c : Channel) : c.abandon.flushCalls = c.flushCalls := by
  obtain ⟨u, q, z, h⟩ := c.abandon_frame; simp [h]

@[simp] theorem Channel.abandon_abandonScript (c : Channel) :
    c.abandon.abandonScript = c.abandonScript.tail := by
  obtain ⟨u, q, z, h⟩ := c.abandon_frame; simp [h]

@[simp] theorem Channel.abandon_abandons (c : Channel) : c.abandon.abandons = c.abandons + 1 := by
  obtain ⟨u, q, z, h⟩ := c.abandon_frame; simp [h]

@[simp] theorem Channel.abandon_calls (c : Channel) : c.abandon.calls = c.calls := by
  simp only [Channel.calls, Channel.abandon_pollCalls, Channel.abandon_writeCalls,
    Channel.abandon_drainCalls, Channel.abandon_flushCalls]

/-- A reset calls no primitive (70 R260, R262). -/
@[simp] theorem State.blockReset_calls (s : State) : s.blockReset.chan.calls = s.chan.calls := by
  rw [State.blockReset_chan]; split <;> simp

@[simp] theorem State.clearPulse_callDue (s : State) : s.clearPulse.callDue = s.callDue := rfl

@[simp] theorem State.withInputs_callDue (s : State) (es : List Input) :
    (s.withInputs es).callDue = s.callDue := rfl

@[simp] theorem Channel.poll_calls (c : Channel) : c.poll.2.calls = c.calls + 1 := by
  simp only [Channel.calls, Channel.poll_pollCalls, Channel.poll_writeCalls, Channel.poll_drainCalls,
    Channel.poll_flushCalls]; omega

@[simp] theorem Channel.tryWrite_calls (c : Channel) (b : Byte) : (c.tryWrite b).2.calls = c.calls + 1 := by
  simp only [Channel.calls, Channel.tryWrite_pollCalls, Channel.tryWrite_writeCalls, Channel.tryWrite_drainCalls,
    Channel.tryWrite_flushCalls]; omega

@[simp] theorem Channel.drain_calls (c : Channel) : c.drain.2.calls = c.calls + 1 := by
  simp only [Channel.calls, Channel.drain_pollCalls, Channel.drain_writeCalls, Channel.drain_drainCalls,
    Channel.drain_flushCalls]; omega

@[simp] theorem Channel.flush_calls (c : Channel) : c.flush.2.calls = c.calls + 1 := by
  simp only [Channel.calls, Channel.flush_pollCalls, Channel.flush_writeCalls, Channel.flush_drainCalls,
    Channel.flush_flushCalls]; omega

/-! ### In front of a command and of a primitive call -/

theorem State.accept_ready {s : State} (f : State → Result) (h : s.Ready) : s.accept f = f s := by
  obtain ⟨h1, h2, h3, h4⟩ := h
  simp [State.accept, h1, h2, h3, h4]

/-- Everything the priority chain can do (60 R238). -/
theorem State.accept_cases (s : State) (f : State → Result) :
    (s.halt = true ∧ s.accept f = .next s) ∨
    (s.halt = false ∧ s.abort = true ∧ s.busy = false ∧ s.accept f = .next s.takeAbort) ∨
    (s.halt = false ∧ s.busy = true ∧ s.accept f = .next s) ∨
    (s.halt = false ∧ s.abort = false ∧ s.busy = false ∧ s.fault = true ∧
      s.accept f = .next s.refuseFaulted) ∨
    (s.Ready ∧ s.accept f = f s) := by
  unfold State.accept State.Ready
  cases s.halt <;> cases s.abort <;> cases s.busy <;> cases s.fault <;> simp

theorem State.sampled_running {s : State} (f : State → Result) (h1 : s.halt = false)
    (h2 : s.abort = false) : s.sampled f = f s := by
  simp [State.sampled, h1, h2]

/-- Everything the sampling in front of a primitive call can do (60 R237, 10 R30). -/
theorem State.sampled_cases (s : State) (f : State → Result) :
    (s.halt = true ∧ s.sampled f = .next s) ∨
    (s.halt = false ∧ s.abort = true ∧ s.sampled f = .next s.takeAbort) ∨
    (s.halt = false ∧ s.abort = false ∧ s.sampled f = f s) := by
  unfold State.sampled
  cases s.halt <;> cases s.abort <;> simp

/-- Everything one turn of a wait can do once `abort` has been sampled (41 R150). -/
theorem State.pollOnce_cases (s : State) (m o : State → State) (h1 : s.halt = false)
    (h2 : s.abort = false) :
    (s.chan.poll.1 = .rxFault ∧ s.pollOnce m o = .next (s.withChan s.chan.poll.2).raiseIo) ∨
    (∃ b, s.chan.poll.1 = .rx b ∧ (s.wild || b == s.expb) = true ∧
      s.pollOnce m o = .next (m (s.withChan s.chan.poll.2))) ∨
    (∃ b, s.chan.poll.1 = .rx b ∧ (s.wild || b == s.expb) = false ∧
      s.pollOnce m o = .next (s.withChan s.chan.poll.2)) ∨
    (s.chan.poll.1 = .tick ∧ s.tmr ≤ 1 ∧
      s.pollOnce m o = .next (o (s.withChan s.chan.poll.2).spendTick)) ∨
    (s.chan.poll.1 = .tick ∧ 1 < s.tmr ∧
      s.pollOnce m o = .next (s.withChan s.chan.poll.2).spendTick) := by
  unfold State.pollOnce
  rw [State.sampled_running _ h1 h2]
  cases hp : s.chan.poll.1 with
  | rxFault => exact .inl ⟨rfl, rfl⟩
  | rx b =>
    cases hm : (s.wild || b == s.expb) with
    | true => exact .inr (.inl ⟨b, rfl, hm, by simp only [hm]; rfl⟩)
    | false => exact .inr (.inr (.inl ⟨b, rfl, hm, by simp only [hm]; rfl⟩))
  | tick =>
    by_cases ht : s.tmr ≤ 1
    · have h0 : s.tmr - 1 = 0 := by omega
      exact .inr (.inr (.inr (.inl ⟨rfl, ht, by simp [h0]⟩)))
    · have h0 : s.tmr - 1 ≠ 0 := by omega
      exact .inr (.inr (.inr (.inr ⟨rfl, Nat.lt_of_not_le ht, by simp [h0]⟩)))

/-- A running command is a busy block in that command's phase. -/
theorem State.busy_of_running {s : State} {i : Instr} (h : s.running = some i) : s.busy = true := by
  unfold State.running at h
  cases hb : s.busy with
  | true => rfl
  | false => simp [hb] at h

end Sys2Proof.Machine
end

