-- ==== Sys2Proof/Laws/Record.lean ====
section
/-!
SUPPORT. The lengths and the symbols of what the encode commands write.
-/

namespace Sys2Proof.Machine

theorem hexDigit_symbol : ∀ x : BitVec 4, wireSymbol (hexDigit x) = true := by decide

theorem hex2_clean {b x : Byte} (h : x ∈ hex2 b) : wireSymbol x = true := by
  simp only [hex2, List.mem_cons, List.not_mem_nil, or_false] at h
  rcases h with h | h <;> subst h <;> exact hexDigit_symbol _

@[simp] theorem hex2_length (b : Byte) : (hex2 b).length = 2 := rfl

@[simp] theorem hex4_length (a : Word) : (hex4 a).length = 4 := rfl

@[simp] theorem flatMap_hex2_length (ds : List Byte) : (ds.flatMap hex2).length = 2 * ds.length := by
  induction ds with
  | nil => rfl
  | cons x r ih => simp only [List.flatMap_cons, List.length_append, ih, hex2_length, List.length_cons]; omega

theorem hex4_clean {a : Word} {x : Byte} (h : x ∈ hex4 a) : wireSymbol x = true := by
  simp only [hex4, List.mem_append] at h
  rcases h with h | h <;> exact hex2_clean h

@[simp] theorem dataRecord_length (a : Word) (ds : List Byte) :
    (dataRecord a ds).length = 12 + 2 * ds.length := by
  simp [dataRecord]; omega

theorem dataRecord_legal {ds : List Byte} (a : Word) (h1 : 1 ≤ ds.length)
    (h2 : ds.length ≤ Config.maxData) : legalLength (dataRecord a ds).length := by
  rw [dataRecord_length]
  simp only [Config.maxData] at h2
  refine .inr (.inr (.inr ⟨by omega, ?_, by omega⟩))
  simp only [Config.obufCap, Config.maxData]; omega

theorem dataRecord_clean (a : Word) (ds : List Byte) : ∀ x ∈ dataRecord a ds, wireSymbol x = true := by
  intro x h
  simp only [dataRecord, List.mem_append, List.mem_flatMap, List.mem_singleton] at h
  rcases h with ((((h | h) | h) | ⟨d, _, h⟩) | h) | h
  · subst h; rfl
  · exact hex2_clean h
  · exact hex4_clean h
  · exact hex2_clean h
  · exact hex4_clean h
  · subst h; rfl

theorem endOfLoadRecord_clean (a : Word) : ∀ x ∈ endOfLoadRecord a, wireSymbol x = true := by
  intro x h
  simp only [endOfLoadRecord, List.mem_append, List.mem_singleton] at h
  rcases h with (((h | h) | h) | h) | h
  · subst h; rfl
  · exact hex2_clean h
  · exact hex4_clean h
  · exact hex4_clean h
  · subst h; rfl

theorem executeCommand_clean (a : Word) : ∀ x ∈ executeCommand a, wireSymbol x = true := by
  intro x h
  simp only [executeCommand, List.mem_append, List.mem_singleton] at h
  rcases h with h | h
  · exact hex4_clean h
  · subst h; rfl

/-- A read of `k` data cells that succeeds gives `k` bytes. -/
theorem Memory.readRange_length {m : List Host.Cell} : ∀ {k i : Nat} {ds : List Byte},
    Memory.readRange m i k = .ok ds → ds.length = k := by
  intro k
  induction k with
  | zero => intro i ds h; cases h; rfl
  | succ k ih =>
    intro i ds h
    simp only [Memory.readRange] at h
    split at h
    · cases h
    · split at h
      · rename_i e; cases h; simp [ih e]
      · cases h

end Sys2Proof.Machine
end

