-- ==== Sys2Proof/Laws/Exec.lean ====
section
/-!
SUPPORT. Everything one step can do, said once: the next states of a turn of a wait, of `exec`, and of
`step`.
-/

namespace Sys2Proof.Machine

/-- The next states of one turn of a wait (41 R150). -/
inductive PollOutcome (s t : State) (onMatch onTimeout : State → State) : Prop
  | halted (hh : s.halt = true) (e : t = s)
  | aborted (hh : s.halt = false) (ha : s.abort = true) (e : t = s.takeAbort)
  | failed (hh : s.halt = false) (ha : s.abort = false) (hp : s.chan.poll.1 = .rxFault)
      (e : t = (s.withChan s.chan.poll.2).raiseIo)
  | matched (hh : s.halt = false) (ha : s.abort = false) (b : Byte) (hp : s.chan.poll.1 = .rx b)
      (hm : (s.wild || b == s.expb) = true) (e : t = onMatch (s.withChan s.chan.poll.2))
  | dropped (hh : s.halt = false) (ha : s.abort = false) (b : Byte) (hp : s.chan.poll.1 = .rx b)
      (hm : (s.wild || b == s.expb) = false) (e : t = s.withChan s.chan.poll.2)
  | spent (hh : s.halt = false) (ha : s.abort = false) (hp : s.chan.poll.1 = .tick)
      (ht : s.tmr ≤ 1) (e : t = onTimeout (s.withChan s.chan.poll.2).spendTick)
  | ticked (hh : s.halt = false) (ha : s.abort = false) (hp : s.chan.poll.1 = .tick)
      (ht : 1 < s.tmr) (e : t = (s.withChan s.chan.poll.2).spendTick)

theorem State.pollOnce_outcome {s t : State} {m o : State → State} (h : s.pollOnce m o = .next t) :
    PollOutcome s t m o := by
  cases hh : s.halt with
  | true => unfold State.pollOnce State.sampled at h; rw [if_pos hh] at h; cases h; exact .halted hh rfl
  | false => cases ha : s.abort with
  | true =>
    unfold State.pollOnce State.sampled at h
    rw [if_neg (by simp [hh]), if_pos ha] at h; cases h; exact .aborted hh ha rfl
  | false =>
    rcases s.pollOnce_cases m o hh ha with
      ⟨hp, e⟩ | ⟨b, hp, hm, e⟩ | ⟨b, hp, hm, e⟩ | ⟨hp, ht, e⟩ | ⟨hp, ht, e⟩ <;>
      rw [e] at h <;> cases h
    · exact .failed hh ha hp rfl
    · exact .matched hh ha b hp hm rfl
    · exact .dropped hh ha b hp hm rfl
    · exact .spent hh ha hp ht rfl
    · exact .ticked hh ha hp ht rfl

/-- The next states of `exec`: the priority chain's, the start of each command, and the next call of the
running one. -/
inductive ExecOutcome (i : Instr) (s t : State) : Prop
  | unchanged (hb : s.halt = true ∨ (s.busy = true ∧ s.running ≠ some i)) (e : t = s)
  | abortIdle (hh : s.halt = false) (ha : s.abort = true) (hb : s.busy = false) (e : t = s.takeAbort)
  | refused (hh : s.halt = false) (ha : s.abort = false) (hb : s.busy = false) (hf : s.fault = true)
      (e : t = s.refuseFaulted)
  | encoded (w : List Byte) (hi : i = .encd ∨ i = .ence ∨ i = .encx) (hr : s.Ready)
      (hc : ∀ x ∈ w, wireSymbol x = true) (hl : legalLength w.length)
      (e : t = (s.setObuf w).finish .ok)
  | usage (hi : i = .encd) (hr : s.Ready) (e : t = s.raiseUsage)
  | startsAwait (hi : i = .await) (hr : s.Ready) (e : t = s.startAwait)
  | startsAwaitany (hi : i = .awaitany) (hr : s.Ready) (e : t = s.startAwaitany)
  | startsTrywr (hi : i = .trywr) (hr : s.Ready) (e : t = s.start .write)
  | startsDrain (hi : i = .drain) (hr : s.Ready) (e : t = s.start .draining)
  | startsFlush (hi : i = .flush) (hr : s.Ready) (e : t = s.start .flushing)
  | startsHsinit (hi : i = .hsinit) (hr : s.Ready) (e : t = s.startHandshake .initial)
  | startsHspost (hi : i = .hspost) (hr : s.Ready) (e : t = s.startHandshake .postload)
  | aborted (hr : s.running = some i) (hh : s.halt = false) (ha : s.abort = true)
      (e : t = s.takeAbort)
  | waits (hi : i = .await ∨ i = .awaitany) (hr : s.running = some i) (hp : s.phase = .wait)
      (h : PollOutcome s t (·.finish .ok) (·.finish .timedOut))
  | wrote (c : ResultCode) (hi : i = .trywr) (hr : s.running = some i) (hh : s.halt = false)
      (ha : s.abort = false) (hc : c = .ok ∨ c = .channelBusy)
      (e : t = (s.withChan (s.chan.tryWrite s.b).2).finish c)
  | writeFailed (hi : i = .trywr) (hr : s.running = some i) (hh : s.halt = false)
      (ha : s.abort = false) (e : t = (s.withChan (s.chan.tryWrite s.b).2).raiseIo)
  | drained (hi : i = .drain) (hr : s.running = some i) (hh : s.halt = false) (ha : s.abort = false)
      (e : t = (s.withChan s.chan.drain.2).finish .ok)
  | drainFailed (hi : i = .drain) (hr : s.running = some i) (hh : s.halt = false)
      (ha : s.abort = false) (e : t = (s.withChan s.chan.drain.2).raiseIo)
  | flushed (hi : i = .flush) (hr : s.running = some i) (hh : s.halt = false) (ha : s.abort = false)
      (e : t = (s.withChan s.chan.flush.2).finish .ok)
  | flushFailed (hi : i = .flush) (hr : s.running = some i) (hh : s.halt = false)
      (ha : s.abort = false) (e : t = (s.withChan s.chan.flush.2).raiseIo)
  | hsFlushed (hi : i = .hsinit ∨ i = .hspost) (hr : s.running = some i) (hp : s.phase = .hsFlush)
      (hh : s.halt = false) (ha : s.abort = false)
      (e : t = (s.withChan s.chan.flush.2).toPhase .hsAttn)
  | hsFlushFailed (hi : i = .hsinit ∨ i = .hspost) (hr : s.running = some i)
      (hp : s.phase = .hsFlush) (hh : s.halt = false) (ha : s.abort = false)
      (e : t = (s.withChan s.chan.flush.2).raiseIo)
  | attnSent (hi : i = .hsinit) (hr : s.running = some i) (hp : s.phase = .hsAttn)
      (hm : s.mode = .initial) (hh : s.halt = false) (ha : s.abort = false)
      (e : t = (s.withChan (s.chan.tryWrite Config.attn).2).enterMatch)
  | attnFailed (hi : i = .hsinit) (hr : s.running = some i) (hp : s.phase = .hsAttn)
      (hm : s.mode = .initial) (hh : s.halt = false) (ha : s.abort = false)
      (e : t = (s.withChan (s.chan.tryWrite Config.attn).2).raiseIo)
  | counted (hi : i = .hspost) (hr : s.running = some i) (hp : s.phase = .hsAttn)
      (hm : s.mode = .postload) (hn : s.countAttempt.att.toNat ≤ Config.postloadAttempts)
      (e : t = s.countAttempt.enterMatch)
  | exhausted (hi : i = .hspost) (hr : s.running = some i) (hp : s.phase = .hsAttn)
      (hm : s.mode = .postload) (hn : Config.postloadAttempts < s.countAttempt.att.toNat)
      (e : t = s.countAttempt.finish .timedOut)
  | bannerWait (hi : i = .hsinit ∨ i = .hspost) (hr : s.running = some i) (hp : s.phase = .hsMatch)
      (h : PollOutcome s t State.bannerMatched State.retry)
  | silenceWait (hi : i = .hsinit ∨ i = .hspost) (hr : s.running = some i) (hp : s.phase = .hsQuiet)
      (h : PollOutcome s t State.retry (·.finish .ok))

/-- A command that starts: the priority chain's outcomes, or its own start. -/
theorem State.accept_outcome {s t : State} {f : State → Result} {i : Instr}
    (hn : s.running ≠ some i) (h : s.accept f = .next t) (k : s.Ready → f s = .next t → ExecOutcome i s t) :
    ExecOutcome i s t := by
  rcases s.accept_cases f with
    ⟨hh, e⟩ | ⟨hh, ha, hb, e⟩ | ⟨_, hb, e⟩ | ⟨hh, ha, hb, hf, e⟩ | ⟨hr, e⟩ <;> rw [e] at h
  · cases h; exact .unchanged (.inl hh) rfl
  · cases h; exact .abortIdle hh ha hb rfl
  · cases h; exact .unchanged (.inr ⟨hb, hn⟩) rfl
  · cases h; exact .refused hh ha hb hf rfl
  · exact k hr h

/-- A running command in front of a call: halted, aborted, or the call. -/
theorem State.sampled_outcome {s t : State} {f : State → Result} {i : Instr}
    (hr : s.running = some i) (h : s.sampled f = .next t)
    (k : s.halt = false → s.abort = false → f s = .next t → ExecOutcome i s t) :
    ExecOutcome i s t := by
  rcases s.sampled_cases f with ⟨hh, e⟩ | ⟨hh, ha, e⟩ | ⟨hh, ha, e⟩ <;> rw [e] at h
  · cases h; exact .unchanged (.inl hh) rfl
  · cases h; exact .aborted hr hh ha rfl
  · exact k hh ha h

/-- An encode command is never in progress between two steps (92 D27). -/
theorem State.running_not_encode (s : State) :
    s.running ≠ some .encd ∧ s.running ≠ some .ence ∧ s.running ≠ some .encx := by
  unfold State.running
  cases s.busy <;> cases s.phase <;> cases s.wild <;> cases s.mode <;> simp

/-- AWAIT and AWAITANY run in `PHASE` WAIT. -/
theorem State.phase_of_wait {s : State} {i : Instr} (h : s.running = some i)
    (hi : i = .await ∨ i = .awaitany) : s.phase = .wait := by
  unfold State.running at h
  cases hb : s.busy <;> cases hp : s.phase <;> cases hw : s.wild <;> cases hm : s.mode <;>
    simp [hb, hp, hw, hm] at h <;> subst h <;> simp at hi ⊢

/-- Which handshake runs is told by `MODE` (10 R31). -/
theorem State.mode_of_handshake {s : State} {i : Instr} (h : s.running = some i) :
    (i = .hsinit → s.mode = .initial) ∧ (i = .hspost → s.mode = .postload) := by
  unfold State.running at h
  cases hb : s.busy <;> cases hp : s.phase <;> cases hw : s.wild <;> cases hm : s.mode <;>
    simp [hb, hp, hw, hm] at h <;> subst h <;> simp

/-- The steps of a running handshake. -/
theorem State.hsStep_outcome {s t : State} {i : Instr} (hi : i = .hsinit ∨ i = .hspost)
    (hr : s.running = some i) (h : s.hsStep = .next t) : ExecOutcome i s t := by
  have hm := State.mode_of_handshake hr
  unfold State.hsStep at h
  split at h
  · rename_i hp
    refine State.sampled_outcome hr h fun hh ha h => ?_
    dsimp only at h
    split at h <;> cases h
    · exact .hsFlushed hi hr hp hh ha rfl
    · exact .hsFlushFailed hi hr hp hh ha rfl
  · rename_i hp
    split at h
    · rename_i hmo
      have hi' : i = .hsinit := by rcases hi with e | e <;> simp_all
      refine State.sampled_outcome hr h fun hh ha h => ?_
      dsimp only at h
      split at h <;> cases h
      · exact .attnSent hi' hr hp hmo hh ha rfl
      · exact .attnSent hi' hr hp hmo hh ha rfl
      · exact .attnFailed hi' hr hp hmo hh ha rfl
    · rename_i hmo
      have hi' : i = .hspost := by rcases hi with e | e <;> simp_all
      unfold State.hsStepAttnPostload at h
      dsimp only at h
      split at h <;> cases h
      · exact .exhausted hi' hr hp hmo ‹_› rfl
      · exact .counted hi' hr hp hmo (Nat.le_of_not_lt ‹_›) rfl
  · exact .bannerWait hi hr ‹_› (State.pollOnce_outcome h)
  · exact .silenceWait hi hr ‹_› (State.pollOnce_outcome h)
  all_goals cases h

/-- Everything `exec` can do when it answers a next state. -/
theorem exec_outcome {i : Instr} {s t : State} (h : exec i s = .next t) : ExecOutcome i s t := by
  cases i with
  | encd =>
    change execEncd s = _ at h
    unfold execEncd at h
    refine State.accept_outcome s.running_not_encode.1 h fun hr h => ?_
    split at h
    · rename_i hl
      split at h
      · rename_i ds hd
        cases h
        have hn := Memory.readRange_length hd
        simp only [State.countLegal, Bool.and_eq_true, decide_eq_true_eq] at hl
        exact .encoded _ (.inl rfl) hr (dataRecord_clean _ _)
          (by rw [hn.symm] at hl; exact dataRecord_legal _ hl.1 hl.2) rfl
      · cases h
    · cases h; exact .usage rfl hr rfl
  | ence =>
    change execEnce s = _ at h
    unfold execEnce at h
    refine State.accept_outcome s.running_not_encode.2.1 h fun hr h => ?_
    cases h
    exact .encoded _ (.inr (.inl rfl)) hr (endOfLoadRecord_clean _) (.inr (.inr (.inl rfl))) rfl
  | encx =>
    change execEncx s = _ at h
    unfold execEncx at h
    refine State.accept_outcome s.running_not_encode.2.2 h fun hr h => ?_
    cases h
    exact .encoded _ (.inr (.inr rfl)) hr (executeCommand_clean _) (.inr (.inl rfl)) rfl
  | await =>
    change execAwait s = _ at h
    unfold execAwait at h
    split at h
    · rename_i hr
      exact .waits (.inl rfl) hr (State.phase_of_wait hr (.inl rfl)) (State.pollOnce_outcome h)
    · exact State.accept_outcome ‹_› h fun hr h => by cases h; exact .startsAwait rfl hr rfl
  | awaitany =>
    change execAwaitany s = _ at h
    unfold execAwaitany at h
    split at h
    · rename_i hr
      exact .waits (.inr rfl) hr (State.phase_of_wait hr (.inr rfl)) (State.pollOnce_outcome h)
    · exact State.accept_outcome ‹_› h fun hr h => by cases h; exact .startsAwaitany rfl hr rfl
  | trywr =>
    change execTrywr s = _ at h
    unfold execTrywr at h
    split at h
    · rename_i hr
      refine State.sampled_outcome hr h fun hh ha h => ?_
      dsimp only at h
      split at h <;> cases h
      · exact .wrote _ rfl hr hh ha (.inl rfl) rfl
      · exact .wrote _ rfl hr hh ha (.inr rfl) rfl
      · exact .writeFailed rfl hr hh ha rfl
    · exact State.accept_outcome ‹_› h fun hr h => by cases h; exact .startsTrywr rfl hr rfl
  | drain =>
    change execDrain s = _ at h
    unfold execDrain at h
    split at h
    · rename_i hr
      refine State.sampled_outcome hr h fun hh ha h => ?_
      dsimp only at h
      split at h <;> cases h
      · exact .drained rfl hr hh ha rfl
      · exact .drainFailed rfl hr hh ha rfl
    · exact State.accept_outcome ‹_› h fun hr h => by cases h; exact .startsDrain rfl hr rfl
  | flush =>
    change execFlush s = _ at h
    unfold execFlush at h
    split at h
    · rename_i hr
      refine State.sampled_outcome hr h fun hh ha h => ?_
      dsimp only at h
      split at h <;> cases h
      · exact .flushed rfl hr hh ha rfl
      · exact .flushFailed rfl hr hh ha rfl
    · exact State.accept_outcome ‹_› h fun hr h => by cases h; exact .startsFlush rfl hr rfl
  | hsinit =>
    change execHsinit s = _ at h
    unfold execHsinit at h
    split at h
    · exact State.hsStep_outcome (.inl rfl) ‹_› h
    · exact State.accept_outcome ‹_› h fun hr h => by cases h; exact .startsHsinit rfl hr rfl
  | hspost =>
    change execHspost s = _ at h
    unfold execHspost at h
    split at h
    · exact State.hsStep_outcome (.inr rfl) ‹_› h
    · exact State.accept_outcome ‹_› h fun hr h => by cases h; exact .startsHspost rfl hr rfl

/-! ### Outside the commands -/

/-- An operation of the host software that is no register access touches only the host side. -/
theorem State.softwareOp_frame (s : State) (op : HostOp) : ∃ h, s.softwareOp op = s.withHost h := by
  have after : ∀ (s : State) (f : State → State), (∀ s, ∃ h, f s = s.withHost h) →
      ∃ h, s.afterCommand f = s.withHost h := by
    intro s f hf
    unfold State.afterCommand
    split
    · exact ⟨_, rfl⟩
    · split
      · exact ⟨_, rfl⟩
      · exact hf s
  have same : ∀ s : State, ∃ h, s = s.withHost h := fun s => ⟨s.host, rfl⟩
  have push : ∀ (s : State) ops, ∃ h, s.push ops = s.withHost h := fun s ops => ⟨_, rfl⟩
  have ends : ∀ (s : State) x, ∃ h, s.endSession x = s.withHost h := fun s x => ⟨_, rfl⟩
  cases op with
  | loadChunked tasks =>
    simp only [State.softwareOp]
    split
    · exact ends s _
    · cases tasks with
      | nil => exact push s _
      | cons t rest =>
        simp only [State.loadChunk]
        split
        · exact push s _
        · split
          · exact ends s _
          · exact push s _
  | rawRelay source =>
    simp only [State.softwareOp]
    split
    · cases source <;> exact ⟨_, rfl⟩
    · exact ends s _
  | session cfg =>
    simp only [State.softwareOp, State.startSession]
    split
    · exact ends s _
    · exact ⟨_, rfl⟩
  | endOfLoad =>
    simp only [State.softwareOp]
    split
    · exact same s
    · split
      · exact ends s _
      · exact push s _
  | writeAll w => cases w <;> exact ⟨_, rfl⟩
  | readDiscard k => cases k <;> exact ⟨_, rfl⟩
  | checkIo => exact after s id same
  | checkWrite =>
    simp only [State.softwareOp]
    refine after s _ fun s => ?_
    split
    · exact same s
    · exact push s _
  | checkEcho =>
    simp only [State.softwareOp]
    refine after s _ fun s => ?_
    split
    · split
      · exact push s _
      · exact same s
      · exact ends s _
    · exact same s
  | relayWrote x =>
    simp only [State.softwareOp]
    exact after s _ fun s => push s _
  | relayEchoed x wrote =>
    simp only [State.softwareOp]
    refine after s _ fun s => ?_
    split
    · exact ends s _
    · split
      · exact ⟨_, rfl⟩
      · exact same s
  | checkSpace =>
    simp only [State.softwareOp]
    refine after s _ fun s => ?_
    split
    · split
      · exact same s
      · exact push s _
      · exact ends s _
    · exact same s
  | checkConfirm =>
    simp only [State.softwareOp]
    refine after s _ fun s => ?_
    split
    · exact ends s _
    · exact same s
  | set reg v => exact same s
  | rd reg => exact same s
  | tryByte => exact push s _
  | writeObuf => exact push s _
  | discardEcho => exact push s _
  | countRecord => exact ⟨_, rfl⟩
  | execTrigger a => exact push s _
  | awaitSpace => exact push s _
  | exitSuccess => exact ends s _

/-- The next states of `step`: reset, abort, a command's meaning, or one of the small moves of the host and of
the channel. In each, the events still to come and the host software may have advanced. -/
inductive StepOutcome (s t : State) : Prop
  | reset (es : List Input) (hi : s.inputs = .reset :: es)
      (e : t = (s.clearPulse.withInputs es).blockReset)
  | abort (hi : s.inputs.head? ≠ some .reset) (hd : s.abortDue = true) (e : t = s.clearPulse.takeAbort)
  | running (i : Instr) (es : List Input) (hd : s.abortDue = false) (hr : s.running = some i)
      (hx : exec i (s.clearPulse.withInputs es) = .next t)
  | command (i : Instr) (es : List Input) (h : HostSide) (hd : s.abortDue = false)
      (hb : s.busy = false) (hx : exec i ((s.clearPulse.withInputs es).withHost h) = .next t)
  | illegal (es : List Input) (h : HostSide) (hd : s.abortDue = false) (hb : s.busy = false)
      (hx : ((s.clearPulse.withInputs es).withHost h).accept (fun s => .next s.raiseIllegal) = .next t)
  | registerWrite (es : List Input) (h : HostSide) (r : Nat) (v : Byte)
      (e : t = ((s.clearPulse.withInputs es).withHost h).regWrite r v)
  | hostOnly (es : List Input) (h : HostSide) (e : t = (s.clearPulse.withInputs es).withHost h)
  | abortPin (es : List Input) (l : Bool)
      (e : t = { s.clearPulse.withInputs es with abort := l })
  | channelEvent (es : List Input) (c : Channel) (hc : c.calls = s.chan.calls)
      (e : t = (s.clearPulse.withInputs es).withChan c)

/-- What a route comes to. -/
def Route.outcome : Route → Result
  | .done o => o
  | .run i s => exec i s

theorem step_eq (s : State) : step s = (route s).outcome := rfl

/-- A host register write. -/
theorem State.portWrite_outcome {s t : State} {es : List Input} {h : HostSide} {r : Nat} {v : Byte}
    (hd : s.abortDue = false)
    (hx : (((s.clearPulse.withInputs es).withHost h).portWrite r v).outcome = .next t) : StepOutcome s t := by
  unfold State.portWrite at hx
  by_cases hr : r = cmdReg
  · rw [if_pos hr] at hx
    unfold State.writeCmd at hx
    by_cases hb : s.busy = true
    · rw [if_pos (show ((s.clearPulse.withInputs es).withHost h).busy = true from hb)] at hx
      cases hx; exact .hostOnly es h rfl
    · have hb' : s.busy = false := by simpa using hb
      rw [if_neg (show ¬ ((s.clearPulse.withInputs es).withHost h).busy = true from hb)] at hx
      cases hd' : decodeByte v with
      | some i => rw [hd'] at hx; exact .command i es h hd hb' hx
      | none => rw [hd'] at hx; exact .illegal es h hd hb' hx
  · rw [if_neg hr] at hx
    cases hx; exact .registerWrite es h r v rfl

/-- A host register read. -/
theorem State.portRead_outcome {s t : State} {es : List Input} {h : HostSide} {r : Nat}
    (hx : ((s.clearPulse.withInputs es).withHost h).portRead r = .next t) : StepOutcome s t := by
  unfold State.portRead at hx
  split at hx <;> cases hx
  exact .hostOnly es _ rfl

/-- The machine's own move. -/
theorem State.ownMove_outcome {s t : State} {es : List Input} (hd : s.abortDue = false)
    (hx : (s.clearPulse.withInputs es).ownMove.outcome = .next t) : StepOutcome s t := by
  unfold State.ownMove at hx
  by_cases hb : s.busy = true
  · have hr : (s.clearPulse.withInputs es).running = s.running := rfl
    rw [if_pos (show (s.clearPulse.withInputs es).busy = true from hb), hr] at hx
    cases hq : s.running with
    | some i => rw [hq] at hx; exact .running i es hd hq hx
    | none => rw [hq] at hx; cases hx
  · rw [if_neg (show ¬ (s.clearPulse.withInputs es).busy = true from hb)] at hx
    have hh : (s.clearPulse.withInputs es).host = s.host := rfl
    rw [hh] at hx
    cases hp : s.host.prog with
    | nil => rw [hp] at hx; cases hx; exact .hostOnly es s.host rfl
    | cons op ops =>
      rw [hp] at hx
      have soft : ∀ op, t = ((s.clearPulse.withInputs es).withHost (s.host.setProg ops)).softwareOp op →
          StepOutcome s t := by
        intro op e
        obtain ⟨h, e'⟩ := State.softwareOp_frame
          ((s.clearPulse.withInputs es).withHost (s.host.setProg ops)) op
        exact .hostOnly es h (by rw [e, e']; rfl)
      cases op with
      | set r v => exact State.portWrite_outcome hd hx
      | rd r => exact State.portRead_outcome hx
      | _ => cases hx; exact soft _ rfl

/-- Everything `step` can do when it answers a next state. -/
theorem step_outcome {s t : State} (hx : step s = .next t) : StepOutcome s t := by
  rw [step_eq] at hx
  unfold route State.nextMove at hx
  have hi : s.clearPulse.inputs = s.inputs := rfl
  have ha : s.clearPulse.abortDue = s.abortDue := rfl
  rw [hi, ha] at hx
  cases hes : s.inputs with
  | nil =>
    rw [hes] at hx
    cases hd : s.abortDue with
    | true => rw [hd] at hx; cases hx; exact .abort (by simp [hes]) hd rfl
    | false =>
      rw [hd] at hx
      exact State.ownMove_outcome (es := []) hd (by
        have : s.clearPulse.withInputs [] = s.clearPulse := by
          cases s; simp only at hes; subst hes; rfl
        rw [this]; exact hx)
  | cons ev es =>
    rw [hes] at hx
    by_cases hr : ev = .reset
    · subst hr; cases hx; exact .reset es hes rfl
    · cases hd : s.abortDue with
      | true =>
        rw [hd] at hx
        cases ev <;> first | (cases hx; exact .abort (by simp [hes]) hd rfl) | exact absurd rfl hr
      | false =>
        rw [hd] at hx
        cases ev with
        | run => exact State.ownMove_outcome (es := es) hd hx
        | write r v => exact State.portWrite_outcome (es := es) (h := s.host) (r := r) (v := v) hd hx
        | read r => exact State.portRead_outcome (es := es) (h := s.host) hx
        | abort l => cases hx; exact .abortPin es l rfl
        | reset => exact absurd rfl hr
        | arrive b =>
          cases hx
          exact .channelEvent es (s.chan.setUnread (s.chan.unread ++ [b])) rfl rfl
        | lose k =>
          cases hx
          exact .channelEvent es (s.chan.setUnread (s.chan.unread.eraseIdx k)) rfl rfl
        | lineSend =>
          cases hx
          refine .channelEvent es s.chan.sendOne ?_ rfl
          show s.chan.sendOne.calls = _
          unfold Channel.sendOne
          split <;> rfl
        | launch cfg => cases hx; exact .hostOnly es _ rfl

end Sys2Proof.Machine
end

