-- ==== Sys2Proof/Laws/Fairness.lean ====
section
/-!
SUPPORT. Tick fairness of the channel's free draws (20_memory.md R70 item 1): past every poll a silence
comes.
-/

namespace Sys2Proof

/-- A burst ends in its silence. -/
theorem Config.burstDraw_length (n : Nat) (ds : List PollDraw) :
    Config.burstDraw ds.length n ds = .quiet := by
  induction ds with
  | nil => rfl
  | cons _ ds ih => exact ih

/-- Past every place of the bursts a silence comes. -/
theorem Config.burstDraw_quiet (k n : Nat) (ds : List PollDraw) :
    ∃ j, k ≤ j ∧ Config.burstDraw j n ds = .quiet := by
  induction k generalizing n ds with
  | zero => exact ⟨ds.length, Nat.zero_le _, Config.burstDraw_length n ds⟩
  | succ k ih =>
    cases ds with
    | nil =>
      obtain ⟨j, hj, h⟩ := ih (n + 1) (Config.freeBurst (n + 1))
      exact ⟨j + 1, by omega, h⟩
    | cons _ ds =>
      obtain ⟨j, hj, h⟩ := ih n ds
      exact ⟨j + 1, by omega, h⟩

/-- Past every poll a silence comes. -/
theorem Config.freePoll_quiet (k : Nat) : ∃ j, k ≤ j ∧ Config.freePoll j = .quiet :=
  Config.burstDraw_quiet k 0 _

namespace Machine

/-- The bytes a mask keeps are no more than there were. -/
theorem keepBy_length_le {α : Type} (m : List Bool) (xs : List α) :
    (keepBy m xs).length ≤ xs.length := by
  induction m generalizing xs with
  | nil => simp [keepBy]
  | cons b m ih =>
    cases xs with
    | nil => cases b <;> simp [keepBy]
    | cons x xs => cases b <;> simp [keepBy] <;> have := ih xs <;> omega

/-- No poll makes the unread input longer: what arrives, something is delivered. -/
theorem Channel.poll_unread_length_le (c : Channel) : c.poll.2.unread.length ≤ c.unread.length := by
  rcases c.poll_cases with ⟨b, x, r, _, hu, h⟩ | ⟨x, r, _, hu, h⟩ | ⟨_, _, h⟩ | ⟨m, _, h⟩
  · have := congrArg List.length hu
    simp at this
    simp [h, this]
  · simp [h, hu]
  · simp [h]
  · simpa [h] using keepBy_length_le m c.unread

/-- A silence is a TICK, or delivers one of the unread bytes. -/
theorem Channel.poll_quiet_cases {c : Channel} (hd : c.pollDraw = .quiet) :
    c.poll.1 = .tick ∨ c.poll.2.unread.length + 1 = c.unread.length := by
  rcases c.poll_cases with ⟨b, x, r, h, _, _⟩ | ⟨x, r, _, hu, h⟩ | ⟨_, _, h⟩ | ⟨m, h, _⟩
  · rw [hd] at h; cases h
  · exact .inr (by simp [h, hu])
  · exact .inl (by rw [h])
  · rw [hd] at h; cases h

/-- `k` polls in a row leave the script and the count of calls so many further. -/
theorem Channel.afterPolls_pollCalls (k : Nat) (c : Channel) :
    (c.afterPolls k).pollCalls = c.pollCalls + k := by
  induction k generalizing c with
  | zero => rfl
  | succ k ih => rw [Channel.afterPolls, ih, Channel.poll_pollCalls]; omega

theorem Channel.afterPolls_pollScript (k : Nat) (c : Channel) :
    (c.afterPolls k).pollScript = c.pollScript.drop k := by
  induction k generalizing c with
  | zero => rfl
  | succ k ih => rw [Channel.afterPolls, ih, Channel.poll_pollScript, ← List.drop_one, List.drop_drop, Nat.add_comm]

theorem Channel.afterPolls_unread_length_le (k : Nat) (c : Channel) :
    (c.afterPolls k).unread.length ≤ c.unread.length := by
  induction k generalizing c with
  | zero => exact Nat.le_refl _
  | succ k ih => exact Nat.le_trans (ih _) c.poll_unread_length_le

/-- From every channel some later poll draws a silence. -/
theorem Channel.quiet_comes (c : Channel) : ∃ k, (c.afterPolls k).pollDraw = .quiet := by
  obtain ⟨j, hj, h⟩ := Config.freePoll_quiet (c.pollCalls + c.pollScript.length)
  refine ⟨j - c.pollCalls, ?_⟩
  have hs : (c.afterPolls (j - c.pollCalls)).pollScript = [] := by
    rw [Channel.afterPolls_pollScript]; exact List.drop_eq_nil_of_le (by omega)
  simp only [Channel.pollDraw, hs, nextDraw, Channel.afterPolls_pollCalls]
  rw [show c.pollCalls + (j - c.pollCalls) = j by omega]
  exact h

end Machine

end Sys2Proof
end

