-- ==== Sys2Proof/Laws/Memory.lean ====
section
/-!
SUPPORT. The laws of `DBUF` as memory: read after write, the canonical form kept by every operation,
equal contents are equal data.
-/

namespace Sys2Proof.Machine

theorem Memory.read_write_same (m : List Host.Cell) (i : Nat) (v : Byte) :
    Memory.read (Memory.write m i v) i = some v := by
  induction m with
  | nil => simp [Memory.write, Memory.read]
  | cons c rest ih =>
    obtain ⟨k, w⟩ := c
    by_cases h1 : i < k
    · simp [Memory.write, Memory.read, h1]
    · by_cases h2 : i = k
      · simp [Memory.write, Memory.read, h2]
      · simp [Memory.write, Memory.read, h1, h2, Ne.symm h2, ih]

theorem Memory.read_write_other (m : List Host.Cell) {i j : Nat} (v : Byte) (h : j ≠ i) :
    Memory.read (Memory.write m i v) j = Memory.read m j := by
  induction m with
  | nil => simp [Memory.write, Memory.read, h.symm]
  | cons c rest ih =>
    obtain ⟨k, w⟩ := c
    by_cases h1 : i < k
    · simp [Memory.write, Memory.read, h1, h.symm]
    · by_cases h2 : i = k
      · subst h2; simp [Memory.write, Memory.read, h.symm]
      · simp [Memory.write, Memory.read, h1, h2, ih]

theorem Memory.wfFrom_mono {lo lo' : Nat} {m : List Host.Cell} (h : Memory.wfFrom lo m = true)
    (hle : lo' ≤ lo) : Memory.wfFrom lo' m = true := by
  cases m with
  | nil => rfl
  | cons c rest =>
    obtain ⟨k, w⟩ := c
    simp only [Memory.wfFrom, Bool.and_eq_true, decide_eq_true_eq] at h ⊢
    exact ⟨⟨hle.trans h.1.1, h.1.2⟩, h.2⟩

theorem Memory.wfFrom_write {lo i : Nat} {m : List Host.Cell} (v : Byte)
    (h : Memory.wfFrom lo m = true) (hlo : lo ≤ i) (hi : i < Config.maxData) :
    Memory.wfFrom lo (Memory.write m i v) = true := by
  induction m generalizing lo with
  | nil => simp [Memory.write, Memory.wfFrom, hlo, hi]
  | cons c rest ih =>
    obtain ⟨k, w⟩ := c
    simp only [Memory.wfFrom, Bool.and_eq_true, decide_eq_true_eq] at h
    by_cases h1 : i < k
    · simp [Memory.write, Memory.wfFrom, h1, hlo, hi, h.1.2, h.2, Nat.succ_le_of_lt h1]
    · by_cases h2 : i = k
      · subst h2; simp [Memory.write, Memory.wfFrom, hlo, hi, h.2]
      · have h3 : k + 1 ≤ i := by omega
        simp [Memory.write, Memory.wfFrom, h1, h2, h.1.1, h.1.2, ih h.2 h3]

/-- Writing a cell that exists keeps the canonical form. -/
theorem Memory.wf_write {m : List Host.Cell} {i : Nat} (v : Byte) (h : Memory.wf m = true)
    (hi : i < Config.maxData) : Memory.wf (Memory.write m i v) = true :=
  Memory.wfFrom_write v h (Nat.zero_le i) hi

/-- The one operation on `DBUF` keeps its canonical form. -/
theorem State.dbufWrite_wf {s : State} (i : Nat) (v : Byte) (h : Memory.wf s.dbuf = true) :
    Memory.wf (s.dbufWrite i v).dbuf = true := by
  unfold State.dbufWrite
  split
  · exact Memory.wf_write v h ‹_›
  · exact h

theorem State.reset_dbuf_wf : Memory.wf State.reset.dbuf = true := rfl

theorem Memory.read_none_below {lo i : Nat} {m : List Host.Cell} (h : Memory.wfFrom lo m = true)
    (hi : i < lo) : Memory.read m i = none := by
  induction m generalizing lo with
  | nil => rfl
  | cons c rest ih =>
    obtain ⟨k, w⟩ := c
    simp only [Memory.wfFrom, Bool.and_eq_true, decide_eq_true_eq] at h
    have hk : k ≠ i := by omega
    simp [Memory.read, hk, ih h.2 (by omega)]

theorem Memory.ext_from {lo : Nat} {m m' : List Host.Cell} (h : Memory.wfFrom lo m = true)
    (h' : Memory.wfFrom lo m' = true) (hr : ∀ i, Memory.read m i = Memory.read m' i) : m = m' := by
  induction m generalizing lo m' with
  | nil =>
    cases m' with
    | nil => rfl
    | cons c rest => have := hr c.1; simp [Memory.read] at this
  | cons c rest ih =>
    obtain ⟨k, w⟩ := c
    simp only [Memory.wfFrom, Bool.and_eq_true, decide_eq_true_eq] at h
    cases m' with
    | nil => have := hr k; simp [Memory.read] at this
    | cons c' rest' =>
      obtain ⟨k', w'⟩ := c'
      simp only [Memory.wfFrom, Bool.and_eq_true, decide_eq_true_eq] at h'
      have hk : k = k' := by
        rcases Nat.lt_trichotomy k k' with hlt | heq | hgt
        · have := hr k
          have hn := Memory.read_none_below h'.2 (show k < k' + 1 by omega)
          simp [Memory.read, hn, hlt.ne'] at this
        · exact heq
        · have := hr k'
          have hn := Memory.read_none_below h.2 (show k' < k + 1 by omega)
          simp [Memory.read, hn, hgt.ne'] at this
      subst hk
      have hw : w = w' := by have := hr k; simpa [Memory.read] using this
      subst hw
      have hrest : rest = rest' := by
        refine ih h.2 h'.2 fun i => ?_
        by_cases hi : k = i
        · subst hi
          rw [Memory.read_none_below h.2 (by omega), Memory.read_none_below h'.2 (by omega)]
        · have := hr i; simpa [Memory.read, hi] using this
      rw [hrest]

/-- Two canonical memories that read alike are the same data. -/
theorem Memory.ext {m m' : List Host.Cell} (h : Memory.wf m = true) (h' : Memory.wf m' = true)
    (hr : ∀ i, Memory.read m i = Memory.read m' i) : m = m' :=
  Memory.ext_from h h' hr

end Sys2Proof.Machine
end

