-- ==== Sys2Proof/Laws/PerInstr.lean ====
section
/-!
SUPPORT. The family RoundTrip, a statement per command: its code is well formed, has the fields it was
encoded from, and decodes to it (30_encoding.md R100 to R102).
-/

namespace Sys2Proof.Laws.RoundTrip

/-- A command's word: its fields are assigned, the byte holds those fields, and the byte decodes to the
command. -/
def Statement (i : Instr) : Prop :=
  (encodeFields i).wf = true ∧ CmdWord.ofByte (encodeByte i) = encodeFields i ∧
    decodeByte (encodeByte i) = some i

theorem encd : Statement .encd := by unfold Statement; decide

theorem ence : Statement .ence := by unfold Statement; decide

theorem encx : Statement .encx := by unfold Statement; decide

theorem await : Statement .await := by unfold Statement; decide

theorem awaitany : Statement .awaitany := by unfold Statement; decide

theorem trywr : Statement .trywr := by unfold Statement; decide

theorem drain : Statement .drain := by unfold Statement; decide

theorem flush : Statement .flush := by unfold Statement; decide

theorem hsinit : Statement .hsinit := by unfold Statement; decide

theorem hspost : Statement .hspost := by unfold Statement; decide

end Sys2Proof.Laws.RoundTrip
end

