-- ==== Sys2Proof/Laws/Run.lean ====
section
/-!
SUPPORT. Several steps in a row, and the step of a running command when nothing comes from outside.
-/

namespace Sys2Proof.Machine

theorem run_succ {s t : State} (k : Nat) (h : step s = .next t) : run (k + 1) s = run k t := by
  simp only [run, h]

theorem run_one {s t : State} (h : step s = .next t) : run 1 s = .next t :=
  run_succ 0 h

/-- A script's next draw is what the channel does (log 5). -/
theorem Channel.pollDraw_cons {c : Channel} {d : PollDraw} {ds : List PollDraw}
    (h : c.pollScript = d :: ds) : c.pollDraw = d := by
  simp [Channel.pollDraw, h, nextDraw]

theorem Channel.writeDraw_cons {c : Channel} {d : WriteDraw} {ds : List WriteDraw}
    (h : c.writeScript = d :: ds) : c.writeDraw = d := by
  simp [Channel.writeDraw, h, nextDraw]

theorem Channel.flushDraw_cons {c : Channel} {d : FlushDraw} {ds : List FlushDraw}
    (h : c.flushScript = d :: ds) : c.flushDraw = d := by
  simp [Channel.flushDraw, h, nextDraw]

/-- With nothing from outside, a busy block runs on with its command. -/
theorem step_of_running {s : State} {i : Instr} (hr : s.running = some i) (hi : s.inputs = []) :
    step s = exec i s.clearPulse := by
  have hb := State.busy_of_running hr
  rw [step_eq]
  unfold route State.nextMove
  rw [show s.clearPulse.inputs = s.inputs from rfl, hi]
  have hd : s.clearPulse.abortDue = false := by simp [State.abortDue, hb]
  simp only [hd, Bool.false_eq_true, if_false, State.ownMove, State.clearPulse_busy, hb, if_true]
  rw [show s.clearPulse.running = s.running from rfl, hr]
  rfl

/-- A busy block in a handshake phase runs HSINIT or HSPOST, by `MODE`. -/
theorem State.running_of_handshake {s : State} (hb : s.busy = true)
    (hp : s.phase.handshake = true) :
    s.running = some (match s.mode with | .initial => .hsinit | .postload => .hspost) := by
  unfold State.running
  cases h : s.phase <;> simp_all [Phase.handshake] <;> cases s.mode <;> rfl

/-- The step of a running handshake. -/
theorem step_of_handshake {s : State} (hb : s.busy = true) (hp : s.phase.handshake = true)
    (hi : s.inputs = []) : step s = s.clearPulse.hsStep := by
  have hr := State.running_of_handshake hb hp
  rw [step_of_running hr hi]
  have hr' : s.clearPulse.running = s.running := rfl
  cases hm : s.mode <;> rw [hm] at hr
  · show execHsinit _ = _
    simp [execHsinit, hr', hr]
  · show execHspost _ = _
    simp [execHspost, hr', hr]

/-- The step of a running AWAIT or AWAITANY. -/
theorem step_of_wait {s : State} (hb : s.busy = true) (hp : s.phase = .wait) (hi : s.inputs = []) :
    step s = s.clearPulse.awaitPoll := by
  have hr : s.running = some (if s.wild then .awaitany else .await) := by
    simp [State.running, hb, hp]
    cases s.wild <;> rfl
  rw [step_of_running hr hi]
  have hr' : s.clearPulse.running = s.running := rfl
  cases hw : s.wild <;> simp [hw] at hr
  · show execAwait _ = _
    simp [execAwait, hr', hr]
  · show execAwaitany _ = _
    simp [execAwaitany, hr', hr]

end Sys2Proof.Machine
end

