-- ==== Sys2Proof/Tests/Slice0.lean ====
section
/-!
SUPPORT. Tests: words written out from the spec's encodings, ill-formed words, the worked vectors of
95_test_vectors.md one step at a time, and for every obligation with hypotheses a state and operands
that meet them.
-/

namespace Sys2Proof.Tests

open Sys2Proof Sys2Proof.Machine

/-! ### Decoding: words written out bit by bit from R101 -/

theorem test_decode_encd : decode [0b00000001] = .ok (.encd, []) := by decide

theorem test_decode_ence : decode [0b00000010] = .ok (.ence, []) := by decide

theorem test_decode_encx : decode [0b00000011] = .ok (.encx, []) := by decide

theorem test_decode_await : decode [0b00010000] = .ok (.await, []) := by decide

theorem test_decode_awaitany : decode [0b00010001] = .ok (.awaitany, []) := by decide

theorem test_decode_trywr : decode [0b00010010] = .ok (.trywr, []) := by decide

theorem test_decode_drain : decode [0b00010011] = .ok (.drain, []) := by decide

theorem test_decode_flush : decode [0b00010100] = .ok (.flush, []) := by decide

theorem test_decode_hsinit : decode [0b00100000] = .ok (.hsinit, []) := by decide

theorem test_decode_hspost : decode [0b00100001] = .ok (.hspost, []) := by decide

/-- K1 to K3: unassigned codes, at the ends of their ranges. -/
theorem test_decode_unassigned :
    [0x00, 0x04, 0x0F, 0x15, 0x1F, 0x22, 0x30, 0x80, 0xFF].map decodeByte =
      List.replicate 9 none := by decide

/-- K6: ten of the 256 values are assigned. -/
theorem test_decode_count :
    ((List.range 256).filter fun c => (decodeByte (BitVec.ofNat 8 c)).isSome).length = 10 := by
  decide

theorem test_decode_no_word : decode [] = .error .noWord := by decide

theorem test_table_word : decodeTableWord 8 0x21 = some .hspost := by decide

theorem test_table_word_unassigned : decodeTableWord 8 0x00 = none := by decide

/-! ### Ill-formed words, one for each check -/

theorem test_illformed_unit : (⟨3, 0⟩ : CmdWord).unitAssigned = false := by decide

theorem test_illformed_codec : (⟨0, 4⟩ : CmdWord).wf = false ∧ (⟨0, 0⟩ : CmdWord).wf = false := by
  decide

theorem test_illformed_channel : (⟨1, 5⟩ : CmdWord).wf = false := by decide

theorem test_illformed_handshake : (⟨2, 2⟩ : CmdWord).wf = false := by decide

theorem test_illformed_wide_unit : (⟨15, 1⟩ : CmdWord).wf = false := by decide

/-! ### Small states -/

/-- The next state, if there is one, passes a check. -/
def nextIs (o : Result) (check : State → Bool) : Bool :=
  match o with
  | .next t => check t
  | _ => false

/-- An idle block with these operands. -/
def idle (a : Word) (n b : Byte) (data : List Host.Cell) : State :=
  { State.reset with a := a, n := n, b := b, dbuf := data }

/-- A channel with these draws of its poll still to come. -/
def polling (draws : List PollDraw) : Channel :=
  { Channel.initial with pollScript := draws }

/-- A block in the wait of AWAIT for `e` with `k` TICKs left. -/
def waiting (e : Byte) (k : Nat) (draws : List PollDraw) : State :=
  { State.reset with busy := true, phase := .wait, expb := e, tmr := k, chan := polling draws }

/-- A block in the wait of AWAITANY with `k` TICKs left. -/
def waitingAny (k : Nat) (draws : List PollDraw) : State :=
  { State.reset with busy := true, phase := .wait, wild := true, tmr := k, chan := polling draws }

/-- A block running TRYWR of `b`. -/
def writing (b : Byte) (draw : WriteDraw) : State :=
  { State.reset with
    busy := true, phase := .write, b := b
    chan := { Channel.initial with writeScript := [draw] } }

/-- A block running DRAIN with these bytes queued. -/
def draining (queued : List Byte) (draw : DrainDraw) : State :=
  { State.reset with
    busy := true, phase := .draining
    chan := { Channel.initial with queued := queued, drainScript := [draw] } }

/-- A block running FLUSH with these bytes in the two queues. -/
def flushing (unread queued : List Byte) (draw : FlushDraw) : State :=
  { State.reset with
    busy := true, phase := .flushing
    chan := { Channel.initial with unread := unread, queued := queued, flushScript := [draw] } }

/-- A handshake in step 1. -/
def hsFlushing (m : HsMode) (draw : FlushDraw) : State :=
  { State.reset with
    busy := true, phase := .hsFlush, mode := m
    chan := { Channel.initial with flushScript := [draw] } }

/-- HSINIT in step 2. -/
def hsAttention (draw : WriteDraw) : State :=
  { State.reset with
    busy := true, phase := .hsAttn, mode := .initial
    chan := { Channel.initial with writeScript := [draw] } }

/-- HSPOST in step 2 with `k` attempts counted. -/
def hsCounting (k : BitVec 4) : State :=
  { State.reset with busy := true, phase := .hsAttn, mode := .postload, att := k }

/-- A handshake in step 3, awaiting banner byte `i` with `k` TICKs left. -/
def hsMatching (m : HsMode) (i : Fin 6) (k : Nat) (draws : List PollDraw) : State :=
  { State.reset with
    busy := true, phase := .hsMatch, mode := m, idx := i, expb := bannerByte i, tmr := k
    chan := polling draws }

/-- A handshake in step 4 with `k` TICKs left. -/
def hsSilent (m : HsMode) (k : Nat) (draws : List PollDraw) : State :=
  { State.reset with
    busy := true, phase := .hsQuiet, mode := m, wild := true, tmr := k, chan := polling draws }

/-- An idle block whose host software has this to do. -/
def programmed (ops : List HostOp) (r : ResultCode) : State :=
  { State.reset with result := r, host := { HostSide.initial with prog := ops } }

/-- 24 data cells, all holding `v`. -/
def filled (v : Byte) : List Host.Cell :=
  (List.range 24).map fun i => (i, v)

/-! ### Hex Record Codec: the vectors of 95 2.1 to 2.3 -/

/-- V5, the example of R131. -/
theorem test_encd_v5 :
    nextIs (exec .encd (idle 0x1234 4 0 [(0, 0xA9), (1, 0x00), (2, 0x85), (3, 0xF0)]))
      (fun t => t.obuf = [0x3B, 0x30, 0x34, 0x31, 0x32, 0x33, 0x34, 0x41, 0x39, 0x30, 0x30, 0x38,
          0x35, 0x46, 0x30, 0x30, 0x32, 0x36, 0x38, 0x0A] && t.olen = 20 && t.result = .ok
        && !t.busy) = true := by
  decide

/-- V4: the largest checksum, 0x19FE, at offsets 55 to 58 of 60 bytes. -/
theorem test_encd_v4 :
    nextIs (exec .encd (idle 0xFFFF 24 0 (filled 0xFF)))
      (fun t => t.olen = 60 && t.obuf.drop 55 = [0x31, 0x39, 0x46, 0x45, 0x0A]) = true := by
  decide

/-- V2, byte for byte. -/
theorem test_record_v2 :
    dataRecord 0x0218 [0x18, 0x19, 0x1A, 0x1B, 0x1C, 0x1D] =
      [0x3B, 0x30, 0x36, 0x30, 0x32, 0x31, 0x38, 0x31, 0x38, 0x31, 0x39, 0x31, 0x41, 0x31, 0x42,
        0x31, 0x43, 0x31, 0x44, 0x30, 0x30, 0x42, 0x46, 0x0A] := by decide

/-- V6 and V12: address bytes are added one by one; the carry into the high byte. -/
theorem test_checksum_v6_v12 :
    checksum 0x00FF [0x80] = 0x0180 ∧ checksum 0x01FF [0x01] = 0x0102 := by decide

/-- V14, V15: counts 0 and 25 are refused, with no change but the result. -/
theorem test_encd_refused :
    nextIs (exec .encd (idle 0x0200 0 0 [])) (fun t => t.result = .usageError && t.olen = 0) = true ∧
    nextIs (exec .encd (idle 0x0200 25 0 (filled 1)))
      (fun t => t.result = .usageError && !t.fault) = true := by
  decide

/-- V19: a data cell never written. -/
theorem test_encd_v19 : exec .encd (idle 0 1 0 []) = .fault (.dbufUnwritten 0) := rfl

/-- E6: the first total where the copy differs from a computed checksum. -/
theorem test_ence_e6 :
    nextIs (exec .ence (idle 256 0 0 []))
      (fun t => t.obuf = [0x3B, 0x30, 0x30, 0x30, 0x31, 0x30, 0x30, 0x30, 0x31, 0x30, 0x30, 0x0A]
        && t.olen = 12 && t.result = .ok) = true := by
  decide

/-- Z1: with `FAULT` set ENCE gives IO_ERROR and leaves the output. -/
theorem test_ence_sticky :
    nextIs (exec .ence { idle 2 0 0 [] with fault := true })
      (fun t => t.result = .ioError && t.obuf = [] && t.olen = 0) = true := by
  decide

/-- X3 and X5. -/
theorem test_encx_x3_x5 :
    nextIs (exec .encx (idle 0x00AB 0 0 []))
      (fun t => t.obuf = [0x30, 0x30, 0x41, 0x42, 0x20] && t.olen = 5) = true ∧
    nextIs (exec .encx (idle 0x1C4F 0 0 []))
      (fun t => t.obuf = [0x31, 0x43, 0x34, 0x46, 0x20]) = true := by
  decide

/-! ### Timed Byte Channel: the vectors of 95 2.5 and 2.6 -/

/-- A7: all 8 bits are compared. -/
theorem test_await_a7 :
    nextIs (exec .await (waiting 0xCB 3 [.arrives 0x4B]))
      (fun t => t.busy && t.tmr = 3 && t.phase = .wait) = true := by
  decide

/-- A8, A9: the smallest budget, spent by one TICK, untouched by a byte. -/
theorem test_await_a8_a9 :
    nextIs (exec .await (waiting 0x20 1 [.quiet]))
      (fun t => t.result = .timedOut && !t.busy && t.chan.pollCalls = 1) = true ∧
    nextIs (exec .await (waiting 0x20 1 [.arrives 0x20])) (fun t => t.result = .ok && !t.busy) = true := by
  decide

/-- B1, B5: any byte ends it, and exactly one is consumed. -/
theorem test_awaitany_b5 :
    nextIs (exec .awaitany (waitingAny 3 [.arrives 0x41, .arrives 0x42]))
      (fun t => t.result = .ok && t.chan.pollScript = [.arrives 0x42] && t.chan.unread = []) = true := by
  decide

/-- B4: a failed read is sticky. -/
theorem test_awaitany_b4 :
    nextIs (exec .awaitany (waitingAny 3 [.fault []]))
      (fun t => t.result = .ioError && t.fault && !t.busy) = true := by
  decide

/-- W2, W4: a refused write changes nothing; bit 7 is not masked. -/
theorem test_trywr_w2_w4 :
    nextIs (exec .trywr (writing 0x3B .busy))
      (fun t => t.result = .channelBusy && t.chan.queued = [] && !t.fault) = true ∧
    nextIs (exec .trywr (writing 0xFF .written))
      (fun t => t.result = .ok && t.chan.queued = [0xFF]) = true := by
  decide

/-- D1, D2. -/
theorem test_drain_d1_d2 :
    nextIs (exec .drain (draining [1, 2] .done))
      (fun t => t.result = .ok && t.chan.sent = [1, 2] && t.chan.queued = []) = true ∧
    nextIs (exec .drain (draining [1, 2] (.fault 1 [])))
      (fun t => t.result = .ioError && t.fault && t.chan.sent = [1]) = true := by
  decide

/-- The example of R155. -/
theorem test_flush_example :
    nextIs (exec .flush (flushing [0x0D, 0x0A] [0x7F] .done))
      (fun t => t.result = .ok && t.chan.unread = [] && t.chan.queued = [] && t.chan.sent = []) = true := by
  decide

/-! ### Monitor Handshake: the rows of 95 2.8 and 2.9, a step each -/

/-- H5: a busy channel at the attention byte is ignored. -/
theorem test_hsinit_h5 :
    nextIs (exec .hsinit (hsAttention .busy))
      (fun t => t.busy && t.phase = .hsMatch && t.expb = 0x4B && t.idx = 0 && t.chan.queued = []) =
        true := by
  decide

/-- H3: a byte in step 4 fails the attempt, with a pulse. -/
theorem test_hsinit_h3 :
    nextIs (exec .hsinit (hsSilent .initial 2 [.arrives 0x3F]))
      (fun t => t.busy && t.phase = .hsFlush && t.retryTick && t.host.retries = 1) = true := by
  decide

/-- Q1, Q4: the 11th pass is refused, the 10th goes on. -/
theorem test_hspost_q1_q4 :
    nextIs (exec .hspost (hsCounting 10))
      (fun t => t.result = .timedOut && t.att = 11 && !t.busy && !t.retryTick) = true ∧
    nextIs (exec .hspost (hsCounting 9))
      (fun t => t.busy && t.att = 10 && t.phase = .hsMatch && t.chan.writeCalls = 0) = true := by
  decide

/-- H2: the last space of the banner moves on to the silence wait; `M` awaits a line-feed next. -/
theorem test_hspost_banner :
    nextIs (exec .hspost (hsMatching .postload 5 2 [.arrives 0x20]))
      (fun t => t.phase = .hsQuiet && t.wild) = true ∧
    nextIs (exec .hspost (hsMatching .postload 2 2 [.arrives 0x4D]))
      (fun t => t.phase = .hsMatch && t.idx = 3 && t.expb = 0x0A) = true := by
  decide

/-! ### Sticky fault, abort, BUSY: the rows of 95 2.7 -/

/-- K1, K4, K5: an unassigned code; the same with `FAULT`; a code with `HALT`. -/
theorem test_cmd_priorities :
    nextIs (step (State.reset.withFetchWord 8 0x00)) (fun t => t.result = .illegalCmd) = true ∧
    nextIs (step ({ State.reset with fault := true }.withFetchWord 8 0x00))
      (fun t => t.result = .ioError) = true ∧
    nextIs (step ({ State.reset with halt := true }.withFetchWord 8 0x01))
      (fun t => t.result = .ok && !t.busy) = true := by
  decide

/-- Z5: `abort` before the second poll. -/
theorem test_abort_z5 :
    nextIs (exec .await { waiting 0x4B 2 [] with abort := true, chan := (flushing [9] [] .done).chan })
      (fun t => t.result = .aborted && t.halt && !t.busy && !t.fault && t.chan.pollCalls = 0
        && t.chan.flushCalls = 1) = true := by
  decide

/-- Z7: a write while busy is ignored and not queued. -/
theorem test_busy_z7 :
    nextIs (step { hsSilent .initial 2 [] with inputs := [.write 0x03 0xFF] })
      (fun t => t.b = 0 && t.busy && t.phase = .hsQuiet && t.inputs = []) = true := by
  decide

/-- Z4: reset leaves a fault. -/
theorem test_reset_z4 :
    nextIs (step { idle 7 7 7 [(0, 1)] with fault := true, result := .ioError, inputs := [.reset] })
      (fun t => !t.fault && t.result = .ok && t.dbuf = []) = true := by
  decide

/-! ### The step runs a placed word as the first command after reset -/

theorem test_fetch_ence :
    nextIs (step (State.reset.withFetchWord 8 0x02)) (fun t => t.olen = 12 && t.result = .ok) = true := by
  decide

theorem test_fetch_hspost :
    nextIs (step (State.reset.withFetchWord 8 0x21))
      (fun t => t.busy && t.phase = .hsFlush && t.mode = .postload && t.inputs = []) = true := by
  decide

/-! ### Host register port and host software -/

/-- R43: `A` in two halves, `STAT`, and a number without a value. -/
theorem test_port_reads :
    (idle 0x1234 0 0 []).regRead 0x04 = some 0x34 ∧ (idle 0x1234 0 0 []).regRead 0x05 = some 0x12 ∧
    { State.reset with fault := true, halt := true }.regRead 0x01 = some 0b110 ∧
    State.reset.regRead 0x40 = none ∧ State.reset.regRead 0x38 = none := by
  decide

theorem test_port_writes :
    ((idle 0x1234 0 0 []).regWrite 0x05 0xAB).a = 0xAB34 ∧
    ((State.reset.regWrite 0x37 0x55).regWrite 0x20 0x11).dbuf = [(0, 0x11), (23, 0x55)] := by
  decide

/-- P1: the first chunk of the 30-byte source ends with 24 bytes, the rest follows at 0x0218. -/
theorem test_chunk_p1 :
    ((State.reset.loadChunk [⟨0x0200, List.replicate 30 1⟩]).host.prog.getLast?) =
      some (.loadChunked [⟨0x0218, List.replicate 6 1⟩]) := by
  decide

/-- P2: the relayed 0x0A gives a progress tick, its echo not compared. -/
theorem test_relay_p2 :
    nextIs (step (programmed [.relayEchoed 0x0A true] .ok)) (fun t => t.host.progress = 1) = true := by
  decide

/-- R209: the session of a caller with a relay source sets the mode and starts with HSINIT. -/
theorem test_session_relay :
    nextIs (step (programmed [.session ⟨[], some [0x41], none⟩] .ok))
      (fun t => t.host.mode = .rawRelay && t.host.prog.head? = some (.set 0 0x20)) = true := by
  decide

/-! ### Hypotheses that are met: encodings and codec -/

theorem test_meets_UnassignedCodesRejected :
    [0x00, 0x04, 0x0F, 0x15, 0x1F, 0x22, 0xFF].all (fun c : Byte => decide
      (c.toNat = 0 ∨ (0x04 ≤ c.toNat ∧ c.toNat ≤ 0x0F) ∨ (0x15 ≤ c.toNat ∧ c.toNat ≤ 0x1F) ∨
        0x22 ≤ c.toNat)) = true ∧
    [0x01, 0x03, 0x10, 0x14, 0x20, 0x21].all (fun c : Byte => decide
      ¬ (c.toNat = 0 ∨ (0x04 ≤ c.toNat ∧ c.toNat ≤ 0x0F) ∨ (0x15 ≤ c.toNat ∧ c.toNat ≤ 0x1F) ∨
        0x22 ≤ c.toNat)) = true := by decide

/-- The shortest and the longest record: for DataRecordLayout, ChecksumNeverWraps,
RecordDeterminesContent, RecordEndsAtFirstNewline. -/
theorem test_meets_record_lengths :
    (1 ≤ [(0 : Byte)].length ∧ [(0 : Byte)].length ≤ 24) ∧
    (1 ≤ (List.replicate 24 (0xFF : Byte)).length ∧ (List.replicate 24 (0xFF : Byte)).length ≤ 24) ∧
    (checksum 0 [0]).toNat = 1 ∧ (checksum 0xFFFF (List.replicate 24 0xFF)).toNat = 0x19FE ∧
    dataRecord 0 [0] = dataRecord 0 [0] := by decide

theorem test_meets_ChecksumIgnoresOrder : [(1 : Byte), 2].Perm [2, 1] := List.Perm.swap 2 1 []

theorem test_meets_EncodersWriteSevenBitSymbols :
    (idle 0 1 0 [(0, 0)]).Ready ∧
    nextIs (exec .encd (idle 0 1 0 [(0, 0)])) (fun t => t.result = .ok) = true ∧
    nextIs (exec .ence (idle 0 1 0 [])) (fun t => t.result = .ok) = true ∧
    nextIs (exec .encx (idle 0 1 0 [])) (fun t => t.result = .ok) = true := by
  refine ⟨⟨rfl, rfl, rfl, rfl⟩, ?_, ?_, ?_⟩ <;> decide

/-- The clauses of ENCD: counts 1 and 24 with their cells written, 0 and 25. -/
theorem test_meets_EncdEncodesOrRefuses :
    (∀ n d, (idle 0 n 0 d).Ready) ∧
    ((idle 0 1 0 [(0, 7)]).dbufRead 0 = some 7) ∧
    (∀ i, i < 24 → (idle 0 24 0 (filled 7)).dbufRead i = some 7) ∧
    ((idle 0 0 0 []).n.toNat = 0 ∧ 24 < (idle 0 25 0 []).n.toNat) := by
  refine ⟨fun _ _ => ⟨rfl, rfl, rfl, rfl⟩, ?_, ?_, ?_⟩ <;> decide

/-- The first of one and the last of 24 cells missing. -/
theorem test_meets_EncdStopsOnUnwrittenCell :
    (∀ n d, (idle 0 n 0 d).Ready) ∧
    ((idle 0 1 0 []).n.toNat = 1 ∧ (idle 0 1 0 []).dbufRead 0 = none) ∧
    ((idle 0 24 0 ((filled 7).take 23)).n.toNat = 24 ∧
      (idle 0 24 0 ((filled 7).take 23)).dbufRead 23 = none ∧
      ∀ j, j < 23 → (idle 0 24 0 ((filled 7).take 23)).dbufRead j ≠ none) := by
  refine ⟨fun _ _ => ⟨rfl, rfl, rfl, rfl⟩, ?_, ?_⟩ <;> decide

/-- For EnceRendersTotalTwice, EncxRendersAddress, the start clauses of the channel and handshake
commands and the first clause of HspostTickBudgetBounds. -/
theorem test_meets_ready : State.reset.Ready := ⟨rfl, rfl, rfl, rfl⟩

/-- The sticky-fault clause of the encode commands. -/
theorem test_meets_encode_fault :
    let s := { State.reset with fault := true }
    s.halt = false ∧ s.abort = false ∧ s.busy = false ∧ s.fault = true := by decide

theorem test_meets_EncodeCommandsFrame :
    (idle 0 0 0 []).halt = false ∧ (idle 0 0 0 []).abort = false ∧
    nextIs (exec .encd (idle 0 0 0 [])) (fun t => decide (t.result ≠ .ok)) = true ∧
    nextIs (exec .ence (idle 0 0 0 [])) (fun t => t.result = .ok) = true := by decide

/-! ### Hypotheses that are met: commands written to `CMD` -/

/-- The clauses of StepRunsTheDecodedCommand. -/
theorem test_meets_StepRunsTheDecodedCommand :
    (decode [0x12] = .ok (.trywr, []) ∧
      (State.reset.withInputs [.write cmdReg 0x12]).inputs = .write cmdReg 0x12 :: [] ∧
      (State.reset.withInputs [.write cmdReg 0x12]).busy = false ∧
      (State.reset.withInputs [.write cmdReg 0x12]).abort = false) ∧
    ((programmed [.set cmdReg 0x12] .ok).inputs = [] ∧
      (programmed [.set cmdReg 0x12] .ok).host.prog = .set cmdReg 0x12 :: [] ∧
      (programmed [.set cmdReg 0x12] .ok).busy = false) ∧
    ((writing 0 .written).inputs = [] ∧ (writing 0 .written).running = some .trywr) ∧
    (((writing 0 .written).withInputs [.run]).inputs = .run :: [] ∧
      ((writing 0 .written).withInputs [.run]).running = some .trywr) := by decide

theorem test_meets_HaltStopsTheBlock :
    let s := { State.reset with halt := true, inputs := [.write cmdReg 0x01] }
    s.halt = true ∧ s.inputs = .write cmdReg 0x01 :: [] ∧ s.inputs.head? ≠ some .reset ∧
      nextIs (step s) (fun _ => true) = true := by decide

/-- The three clauses of FaultIsSticky. -/
theorem test_meets_FaultIsSticky :
    (let s := { State.reset with fault := true, inputs := [.write cmdReg 0x14] }
     s.fault = true ∧ s.halt = false ∧ s.abort = false ∧ s.busy = false ∧
       s.inputs = .write cmdReg 0x14 :: [] ∧ s.inputs.head? ≠ some .reset ∧
       nextIs (step s) (fun _ => true) = true) ∧
    (let s := { State.reset with fault := true, abort := true }
     s.fault = true ∧ s.halt = false ∧ s.abort = true ∧ s.busy = false ∧
       s.inputs.head? ≠ some .reset) := by decide

/-- For IllegalCommandOnlySetsResult, with the codes of test_meets_UnassignedCodesRejected. -/
theorem test_meets_IllegalCommandOnlySetsResult :
    ∀ c, (State.reset.withInputs [.write cmdReg c]).Ready ∧
      (State.reset.withInputs [.write cmdReg c]).inputs = .write cmdReg c :: [] :=
  fun _ => ⟨⟨rfl, rfl, rfl, rfl⟩, rfl⟩

/-- For BusyIgnoresHostWrites: the command register, an operand register, a data cell. -/
theorem test_meets_BusyIgnoresHostWrites :
    [0x00, 0x05, 0x37].all (fun r =>
      ((writing 0 .busy).withInputs [.write r 1]).busy &&
        decide (((writing 0 .busy).withInputs [.write r 1]).inputs = [.write r 1])) = true := by
  decide

/-! ### Hypotheses that are met: Timed Byte Channel -/

/-- The clauses of PollDeliversInOrder: a byte that was unread, a byte that arrives, a TICK. -/
theorem test_meets_PollDeliversInOrder :
    { polling [.quiet] with unread := [1, 2] }.poll.1 = .rx 1 ∧
    { polling [.arrives 3] with unread := [1, 2] }.poll.1 = .rx 1 ∧
    (polling [.arrives 3]).poll.1 = .rx 3 ∧ (polling [.quiet]).poll.1 = .tick := by decide

/-- The five clauses of AwaitTurns, budgets 1 and 2. -/
theorem test_meets_AwaitTurns :
    (∀ k ds, (waiting 7 k ds).running = some .await ∧ (waiting 7 k ds).halt = false ∧
      (waiting 7 k ds).abort = false) ∧
    (waiting 7 1 [.arrives 7]).chan.poll.1 = .rx 7 ∧
    ((waiting 7 1 [.arrives 6]).chan.poll.1 = .rx 6 ∧ (6 : Byte) ≠ 7) ∧
    ((waiting 7 2 [.quiet]).chan.poll.1 = .tick ∧ 1 < (waiting 7 2 [.quiet]).tmr) ∧
    ((waiting 7 1 [.quiet]).chan.poll.1 = .tick ∧ (waiting 7 1 [.quiet]).tmr = 1) ∧
    (waiting 7 1 [.fault []]).chan.poll.1 = .rxFault := by
  refine ⟨fun _ _ => ⟨rfl, rfl, rfl⟩, ?_⟩; decide

theorem test_meets_AwaitanyTurns :
    (∀ k ds, (waitingAny k ds).running = some .awaitany ∧ (waitingAny k ds).halt = false ∧
      (waitingAny k ds).abort = false) ∧
    (waitingAny 1 [.arrives 0]).chan.poll.1 = .rx 0 ∧
    ((waitingAny 2 [.quiet]).chan.poll.1 = .tick ∧ 1 < (waitingAny 2 [.quiet]).tmr) ∧
    ((waitingAny 1 [.quiet]).chan.poll.1 = .tick ∧ (waitingAny 1 [.quiet]).tmr = 1) ∧
    (waitingAny 1 [.fault [true]]).chan.poll.1 = .rxFault := by
  refine ⟨fun _ _ => ⟨rfl, rfl, rfl⟩, ?_⟩; decide

theorem test_meets_TrywrAttemptsOnce :
    (∀ d, (writing 7 d).Running .trywr) ∧
    (writing 7 .written).chan.writeDraw = .written ∧ (writing 7 .busy).chan.writeDraw = .busy ∧
    (writing 7 (.fault true)).chan.writeDraw = .fault true := by
  refine ⟨fun _ => ⟨rfl, rfl, rfl⟩, ?_⟩; decide

theorem test_meets_DrainSendsAllQueued :
    (∀ d, (draining [7] d).Running .drain) ∧ (draining [7] .done).chan.drainDraw = .done ∧
    (draining [7] (.fault 0 [true])).chan.drainDraw = .fault 0 [true] := by
  refine ⟨fun _ => ⟨rfl, rfl, rfl⟩, ?_⟩; decide

theorem test_meets_FlushEmptiesBothQueues :
    (∀ d, (flushing [7] [8] d).Running .flush) ∧ (flushing [7] [8] .done).chan.flushDraw = .done ∧
    (flushing [7] [8] (.fault [] [true])).chan.flushDraw = .fault [] [true] := by
  refine ⟨fun _ => ⟨rfl, rfl, rfl⟩, ?_⟩; decide

/-- For ChannelCommandsFrame: each command answers a next state with no abort to take. -/
theorem test_meets_ChannelCommandsFrame :
    nextIs (exec .await (waiting 7 2 [.quiet])) (fun _ => true) = true ∧
    nextIs (exec .awaitany (waitingAny 2 [.quiet])) (fun _ => true) = true ∧
    nextIs (exec .trywr (writing 7 .busy)) (fun _ => true) = true ∧
    nextIs (exec .drain (draining [7] .done)) (fun _ => true) = true ∧
    nextIs (exec .flush (flushing [7] [8] .done)) (fun _ => true) = true ∧
    (waiting 7 2 [.quiet]).abort = false := by decide

/-- A wait with budget 2: one silence and a byte that does not match, then the match. -/
theorem test_meets_WaitEndsAtFirstMatch :
    let s := waiting 7 2 [.quiet, .arrives 6, .arrives 7]
    s.busy = true ∧ s.phase = .wait ∧ s.halt = false ∧ s.abort = false ∧ s.inputs = [] ∧
    s.chan.unread = [] ∧ s.chan.pollScript = [.quiet, .arrives 6] ++ .arrives 7 :: [] ∧
    (∀ d ∈ [PollDraw.quiet, .arrives 6], s.leavesWaiting d = true) ∧
    quiets [.quiet, .arrives 6] < s.tmr ∧ (s.wild || 7 == s.expb) = true := by decide

theorem test_meets_WaitTimesOutAtLastTick :
    let s := waiting 7 2 [.quiet, .arrives 6, .quiet]
    s.busy = true ∧ s.phase = .wait ∧ s.halt = false ∧ s.abort = false ∧ s.inputs = [] ∧
    s.chan.unread = [] ∧ s.chan.pollScript = [.quiet, .arrives 6] ++ .quiet :: [] ∧
    (∀ d ∈ [PollDraw.quiet, .arrives 6], s.leavesWaiting d = true) ∧
    quiets [.quiet, .arrives 6] + 1 = s.tmr := by decide

/-- The second clause of WaitTimesOutAtLastTick, for both awaits; with empty scripts all the answers are
free. -/
theorem test_meets_WaitTimesOutAtLastTick_ends :
    ((waiting 7 1 []).Inv ∧ (waiting 7 1 []).running = some .await ∧ (waiting 7 1 []).inputs = []) ∧
    (waitingAny 1 []).Inv ∧ (waitingAny 1 []).running = some .awaitany ∧
    (waitingAny 1 []).inputs = [] := by
  refine ⟨⟨?_, by decide⟩, ?_, by decide⟩ <;>
    constructor <;> simp [waiting, waitingAny, State.reset, Memory.wf, Memory.wfFrom, legalLength,
      Phase.waiting, Phase.handshake, Config.tTicks]

/-! ### Hypotheses that are met: Monitor Handshake -/

theorem test_meets_HandshakeStepOneFlushes :
    (∀ d, (hsFlushing .initial d).Running .hsinit ∧ (hsFlushing .postload d).Running .hspost) ∧
    (hsFlushing .initial .done).phase = .hsFlush ∧
    (hsFlushing .initial .done).chan.flushDraw = .done ∧
    (hsFlushing .postload (.fault [] [])).chan.flushDraw = .fault [] [] := by
  refine ⟨fun _ => ⟨⟨rfl, rfl, rfl⟩, ⟨rfl, rfl, rfl⟩⟩, ?_⟩; decide

theorem test_meets_HandshakeSendsAttention :
    (∀ d, (hsAttention d).Running .hsinit) ∧ (hsAttention .busy).phase = .hsAttn ∧
    (hsAttention .written).chan.writeDraw = .written ∧ (hsAttention .busy).chan.writeDraw = .busy ∧
    (hsAttention (.fault false)).chan.writeDraw = .fault false := by
  refine ⟨fun _ => ⟨rfl, rfl, rfl⟩, ?_⟩; decide

/-- HandshakeCountsAttempts, with `abort` at either level. -/
theorem test_meets_HandshakeCountsAttempts :
    (∀ k l, { hsCounting k with abort := l }.running = some .hspost ∧
      { hsCounting k with abort := l }.halt = false) ∧ (hsCounting 0).phase = .hsAttn ∧
    (hsCounting 0).att.toNat ≤ 9 ∧ (hsCounting 9).att.toNat ≤ 9 ∧ (hsCounting 10).att = 10 := by
  refine ⟨fun _ _ => ⟨rfl, rfl⟩, ?_⟩; decide

/-- The entry clause of HandshakeMatchesBanner: from step 2 of each mode to step 3. -/
theorem test_meets_HandshakeMatchesBanner_entry :
    nextIs (exec .hsinit (hsAttention .busy)) (fun t => t.phase == .hsMatch) = true ∧
    nextIs (exec .hspost (hsCounting 9)) (fun t => t.phase == .hsMatch) = true := by decide

/-- The six clauses of HandshakeMatchesBanner after it, at banner bytes 0, 4 and 5 and budgets 1, 2. -/
theorem test_meets_HandshakeMatchesBanner :
    (∀ i k ds, (hsMatching .initial i k ds).Running .hsinit ∧
      (hsMatching .postload i k ds).Running .hspost) ∧
    (∀ i k ds, (hsMatching .initial i k ds).phase = .hsMatch ∧
      (hsMatching .initial i k ds).wild = false) ∧
    (hsMatching .initial 0 1 [.arrives 0x4B]).chan.poll.1 =
      .rx (hsMatching .initial 0 1 [.arrives 0x4B]).expb ∧
    (hsMatching .postload 4 1 [.arrives 0x20]).chan.poll.1 =
      .rx (hsMatching .postload 4 1 [.arrives 0x20]).expb ∧
    (hsMatching .postload 5 1 [.arrives 0x20]).chan.poll.1 =
      .rx (hsMatching .postload 5 1 [.arrives 0x20]).expb ∧
    (hsMatching .initial 3 1 [.arrives 0x0D]).chan.poll.1 = .rx 0x0D ∧
    ((hsMatching .initial 3 2 [.quiet]).chan.poll.1 = .tick ∧
      1 < (hsMatching .initial 3 2 [.quiet]).tmr) ∧
    ((hsMatching .initial 3 1 [.quiet]).chan.poll.1 = .tick ∧
      (hsMatching .initial 3 1 [.quiet]).tmr = 1) ∧
    (hsMatching .initial 3 1 [.fault []]).chan.poll.1 = .rxFault := by
  refine ⟨fun _ _ _ => ⟨⟨rfl, rfl, rfl⟩, ⟨rfl, rfl, rfl⟩⟩, fun _ _ _ => ⟨rfl, rfl⟩, ?_⟩; decide

/-- The entry clause of HandshakeAwaitsSilence: the sixth banner byte. -/
theorem test_meets_HandshakeAwaitsSilence_entry :
    nextIs (exec .hspost (hsMatching .postload 5 1 [.arrives 0x20]))
      (fun t => t.phase == .hsQuiet) = true := by decide

theorem test_meets_HandshakeAwaitsSilence :
    (∀ k ds, (hsSilent .initial k ds).Running .hsinit ∧ (hsSilent .postload k ds).Running .hspost) ∧
    (∀ k ds, (hsSilent .initial k ds).phase = .hsQuiet ∧ (hsSilent .initial k ds).wild = true) ∧
    (hsSilent .initial 1 [.arrives 0]).chan.poll.1 = .rx 0 ∧
    ((hsSilent .postload 2 [.quiet]).chan.poll.1 = .tick ∧ 1 < (hsSilent .postload 2 [.quiet]).tmr) ∧
    ((hsSilent .postload 1 [.quiet]).chan.poll.1 = .tick ∧ (hsSilent .postload 1 [.quiet]).tmr = 1) ∧
    (hsSilent .postload 1 [.fault []]).chan.poll.1 = .rxFault := by
  refine ⟨fun _ _ => ⟨⟨rfl, rfl, rfl⟩, ⟨rfl, rfl, rfl⟩⟩, fun _ _ => ⟨rfl, rfl⟩, ?_⟩; decide

/-- For RetryTickMarksFailedAttempts: a step that fails an attempt and one that does not. -/
theorem test_meets_RetryTickMarksFailedAttempts :
    nextIs (step (hsSilent .initial 2 [.arrives 0x3F])) (fun t => t.retryTick) = true ∧
    nextIs (step (hsSilent .initial 2 [.quiet])) (fun t => !t.retryTick) = true := by decide

/-- For HsinitNeverTimesOut, HspostSendsNothing and HandshakeCommandsFrame: a last step of each
command, and a restart. -/
theorem test_meets_handshake_ends :
    (hsSilent .initial 1 [.quiet]).running = some .hsinit ∧
    nextIs (exec .hsinit (hsSilent .initial 1 [.quiet])) (fun t => !t.busy) = true ∧
    nextIs (exec .hspost (hsCounting 10)) (fun t => !t.busy) = true ∧
    nextIs (exec .hspost (hsMatching .postload 0 1 [.quiet])) (fun t => t.retryTick) = true := by
  decide

theorem test_meets_HspostFailsOnSilence :
    let s := { hsFlushing .postload .done with
      chan := { Channel.initial with
        pollScript := List.replicate (10 * Config.tTicks) .quiet
        flushScript := List.replicate 11 .done } }
    s.busy = true ∧ s.phase = .hsFlush ∧ s.mode = .postload ∧ s.att = 0 ∧ s.halt = false ∧
    s.abort = false ∧ s.inputs = [] ∧ s.chan.unread = [] ∧
    s.chan.pollScript = List.replicate (10 * Config.tTicks) .quiet ++ [] ∧
    s.chan.flushScript = List.replicate 11 .done ++ [] :=
  ⟨rfl, rfl, rfl, rfl, rfl, rfl, rfl, rfl, (List.append_nil _).symm, rfl⟩

/-- The second clause of HspostFailsOnSilence: HSPOST in step 1. -/
theorem test_meets_HspostFailsOnSilence_ends :
    (hsFlushing .postload .done).Inv ∧ (hsFlushing .postload .done).running = some .hspost ∧
    (hsFlushing .postload .done).inputs = [] := by
  refine ⟨?_, by decide⟩
  constructor <;> simp [hsFlushing, State.reset, Memory.wf, Memory.wfFrom, legalLength,
    Phase.waiting, Phase.handshake]

theorem test_meets_HsinitSucceedsOnCleanBanner :
    let s := { hsFlushing .initial .done with
      chan := { Channel.initial with
        flushScript := [.done], writeScript := [.busy]
        pollScript := [PollDraw.arrives 0x4B, .arrives 0x49, .arrives 0x4D, .arrives 0x0A,
          .arrives 0x20, .arrives 0x20] ++ List.replicate Config.tTicks PollDraw.quiet } }
    s.busy = true ∧ s.phase = .hsFlush ∧ s.mode = .initial ∧ s.halt = false ∧ s.abort = false ∧
    s.inputs = [] ∧ s.chan.flushScript = .done :: [] ∧ s.chan.writeScript = .busy :: [] ∧
    s.chan.pollScript = [PollDraw.arrives 0x4B, .arrives 0x49, .arrives 0x4D, .arrives 0x0A,
      .arrives 0x20, .arrives 0x20] ++ List.replicate Config.tTicks PollDraw.quiet ++ [] :=
  ⟨rfl, rfl, rfl, rfl, rfl, rfl, rfl, rfl, (List.append_nil _).symm⟩

/-- A carriage return and a TICK between `M` and the line-feed; and the last banner byte. -/
theorem test_meets_HandshakeToleratesNoise :
    [2, 3, 5].all (fun i : Fin 6 =>
      let s := hsMatching .initial i 2 [.arrives 0x0D, .quiet, .arrives (bannerByte i)]
      s.busy && s.phase = .hsMatch && !s.wild && !s.halt && !s.abort && s.inputs = [] &&
      s.chan.unread = [] &&
      s.chan.pollScript = [.arrives 0x0D, .quiet] ++ .arrives s.expb :: [] &&
      [PollDraw.arrives 0x0D, .quiet].all s.leavesWaiting &&
      decide (quiets [.arrives 0x0D, .quiet] < s.tmr)) = true := by decide

/-- The second clause of HspostTickBudgetBounds: a state of step 3 that meets the invariant, with a
TICK to come. -/
theorem test_meets_HspostTickBudgetBounds :
    let s := { hsMatching .postload 0 1 [.quiet] with att := 1 }
    s.Inv ∧ s.running = some .hspost ∧ s.abort = false ∧ s.phase.waiting = true ∧
    s.chan.poll.1 = .tick ∧ nextIs (exec .hspost s) (fun _ => true) = true := by
  refine ⟨?_, by decide⟩
  constructor <;> simp [hsMatching, State.reset, Memory.wf, Memory.wfFrom, legalLength,
    Phase.waiting, Phase.handshake, Config.tTicks]

/-! ### Hypotheses that are met: faults, abort, the whole machine -/

/-- The abort clause of each channel command. -/
theorem test_meets_abort_clauses :
    [({ waiting 7 2 [] with abort := true }, Instr.await),
     ({ waitingAny 2 [] with abort := true }, .awaitany),
     ({ writing 7 .busy with abort := true }, .trywr),
     ({ draining [7] .done with abort := true }, .drain),
     ({ flushing [] [7] .done with abort := true }, .flush)].all (fun (c : State × Instr) =>
      decide (c.1.running = some c.2) && !c.1.halt && c.1.abort) = true := by decide

/-- For AbortBetweenCommands, and with a command running for AbortEndsRunningCommand. -/
theorem test_meets_abort :
    (let s := { State.reset with abort := true }
     s.abort = true ∧ s.halt = false ∧ s.busy = false ∧ s.inputs.head? ≠ some .reset) ∧
    (let s := { waiting 7 2 [] with abort := true }
     s.running = some .await ∧ s.abort = true ∧ s.halt = false ∧
       ¬ (s.phase = .hsAttn ∧ s.mode = .postload)) ∧
    (let s := { hsAttention .busy with abort := true }
     s.running = some .hsinit ∧ ¬ (s.phase = .hsAttn ∧ s.mode = .postload)) := by decide

/-- For FaultStopsChannelAndStarts and OneChannelCallPerStep: states that step, with both flags set and
with a call to make. -/
theorem test_meets_sticky :
    (let s := { State.reset with fault := true, halt := true, inputs := [.write cmdReg 0x13] }
     s.fault = true ∧ s.halt = true ∧ s.busy = false ∧ s.abort = false ∧
       s.inputs.head? ≠ some .reset ∧ nextIs (step s) (fun _ => true) = true) ∧
    nextIs (step (draining [7] .done)) (fun t => t.chan.calls = 1) = true := by decide

theorem test_meets_CommandsKeepOperandsAndOutput :
    nextIs (exec .encx State.reset) (fun t => t.olen = 5) = true ∧
    nextIs (exec .flush (flushing [] [] .done)) (fun t => t.olen = 0) = true := by decide

/-- StepKeepsTheMachineSound and StepStopsOnlyByName: a busy state that meets the invariant. -/
theorem test_meets_Inv : (draining [7] .done).Inv := by
  constructor <;> simp [draining, State.reset, Memory.wf, Memory.wfFrom, legalLength,
    Phase.waiting, Phase.handshake]

/-- StepStopsOnlyByName: its two stops happen, and the conditions on them hold. -/
theorem test_meets_StepStopsOnlyByName :
    step { idle 0 2 0 [(0, 7)] with inputs := [.write cmdReg 0x01] } = .fault (.dbufUnwritten 1) ∧
    step { State.reset with inputs := [.read 0x20] } = .refused (.readNoValue 0x20) :=
  ⟨rfl, rfl⟩

/-- ResetInputRestoresBlock: a reset with no primitive due, and one with a drain due. -/
theorem test_meets_ResetInputRestoresBlock :
    (let s := State.reset.withInputs [.reset]
     s.inputs = .reset :: [] ∧ s.callDue = false) ∧
    (let s := (draining [7] .done).withInputs [.reset]
     s.inputs = .reset :: [] ∧ s.callDue = true) := by decide

/-- 70 R260, 10 R42: a reset ends the session, whatever was left of it to do. -/
theorem test_reset_ends_session :
    nextIs (step { programmed [.checkIo, .loadChunked []] .ok with inputs := [.reset] })
      (fun t => t.host = .initial) = true := by decide

/-- 70 R260, 93 U18: a reset in a drain may leave some of the queue sent and some of it gone. -/
theorem test_reset_abandons_drain :
    nextIs (step { draining [7, 8, 9] .done with
        inputs := [.reset]
        chan := { (draining [7, 8, 9] .done).chan with abandonScript := [.leaves [] [9] [7]] } })
      (fun t => t.chan.sent = [7] && t.chan.queued = [9] && t.chan.drainCalls = 0) = true := by decide

/-- 10 R42: one session from reset to reset; after it has ended nothing starts. -/
theorem test_launch_once :
    (HostSide.initial.launch ⟨[], none, none⟩).prog = [.session ⟨[], none, none⟩] ∧
    ((HostSide.initial.finish .success).launch ⟨[], none, none⟩).prog = [] := by decide

/-! ### Hypotheses that are met: host -/

/-- The second clause of RegisterMapReads: a read of the last `OBUF` byte of an execute command. -/
theorem test_meets_RegisterMapReads_step :
    let s := { ((idle 0 0 0 []).setObuf [0x30, 0x30, 0x30, 0x30, 0x20]) with inputs := [.read 0x44] }
    s.inputs = .read 0x44 :: [] ∧ s.abortDue = false ∧ s.regRead 0x44 = some 0x20 := by decide

/-- The ends of the index ranges of RegisterMapReads. -/
theorem test_meets_RegisterMapReads :
    (idle 0 0 0 []).busy = false ∧ (0 : Nat) < 24 ∧ 23 < 24 ∧
    (0 : Nat) < ((idle 0 0 0 []).setObuf [0x30]).olen.toNat ∧
    59 < ((idle 0 0 0 []).setObuf (List.replicate 60 0x30)).olen.toNat := by decide

/-- The clauses of ReadsWithoutValueAreRefused at the ends of their ranges. -/
theorem test_meets_ReadsWithoutValueAreRefused :
    [0x00, 0x08, 0x1F, 0x38, 0x3F, 0x40, 0x7C].all (fun r =>
      let s := State.reset.withInputs [.read r]
      decide (s.inputs = [.read r]) && !s.abortDue && decide
        (r = 0 ∨ (8 ≤ r ∧ r < 0x20) ∨ (0x38 ≤ r ∧ r < 0x40) ∨ 0x40 + s.olen.toNat ≤ r)) = true ∧
    (∀ r, 0x20 ≤ r → r < 0x38 → State.reset.dbufRead (r - 0x20) = none) ∧
    ((writing 0 .busy).withInputs [.read 2]).busy = true ∧
    ((writing 0 .busy).withInputs [.read 2]).abortDue = false := by
  refine ⟨by decide, fun _ _ _ => rfl, by decide⟩

/-- RegisterMapWrites: an idle block with a write to each register, and at the ends of each range. -/
theorem test_meets_RegisterMapWrites :
    [0x01, 0x02, 0x03, 0x04, 0x05, 0x06, 0x07, 0x1F, 0x20, 0x37, 0x38, 0x40].all (fun r : Nat =>
      let s := State.reset.withInputs [.write r 9]
      s.inputs = [.write r 9] && !s.busy && !s.abortDue) = true ∧
    (0x20 = 0x20 + 0 ∧ 0x37 = 0x20 + 23) ∧
    [1, 2, 7, 0x1F, 0x38, 0x40].all (fun r : Nat => decide
      (r = 0x01 ∨ r = 0x02 ∨ (7 ≤ r ∧ r < 0x20) ∨ 0x38 ≤ r)) = true := by decide

theorem test_meets_WriteAllRetriesBusyBytes :
    [ResultCode.ok, .channelBusy, .ioError].all (fun r =>
      let s := programmed [.checkWrite] r
      s.inputs = [] && !s.busy && !s.halt && !s.abort && s.host.prog = [.checkWrite] &&
        s.result = r) = true := by decide

theorem test_meets_RelayDiesOnlyWhenBothFail :
    [(false, ResultCode.timedOut), (true, .timedOut), (false, .ok)].all (fun c =>
      let s := programmed [.relayEchoed 0x0A c.1] c.2
      s.inputs = [] && !s.busy && !s.halt && !s.abort &&
        s.host.prog = [.relayEchoed 0x0A c.1] && decide (s.result ≠ .ioError)) = true := by decide

/-- The last address, an empty source and one of 25 bytes. -/
theorem test_meets_ChunkingRebuildsTheSource :
    (⟨65535, []⟩ : Task).addr < 65536 ∧ (⟨65535, []⟩ : Task).source = [] ∧
    (⟨0, List.replicate 25 1⟩ : Task).source ≠ [] := by decide

theorem test_meets_UsageErrorBeforeAnyChannelCall :
    let s := programmed [.session ⟨[⟨0, [1]⟩], some [2], none⟩] .ok
    s.inputs = [] ∧ s.busy = false ∧ s.abort = false ∧
    s.host.prog = [.session ⟨[⟨0, [1]⟩], some [2], none⟩] ∧
    (⟨[⟨0, [1]⟩], some [2], none⟩ : SessionConfig).relay.isSome = true ∧
    (⟨[⟨0, [1]⟩], some [2], none⟩ : SessionConfig).tasks ≠ [] := by decide

/-- UsageErrorBeforeAnyChannelCall and ExecuteTriggerSequence on a halted block, with `abort` still high
(log 26). -/
theorem test_meets_host_halted :
    [HostOp.session ⟨[⟨0, [1]⟩], some [2], none⟩, .execTrigger 0x0200].all (fun op =>
      let s := { programmed [op] .ok with abort := true, halt := true }
      s.inputs = [] && !s.busy && s.abort && s.halt && s.host.prog = [op]) = true := by decide

/-- The clauses of SessionFollowsTheFlow: chunked with an execute address, relay without one, and the two
ends. -/
theorem test_meets_SessionFollowsTheFlow :
    [(HostOp.session ⟨[⟨0, [1]⟩], none, some 0x0200⟩, ResultCode.ok),
     (.session ⟨[], some [1], none⟩, .ok), (.checkConfirm, .timedOut), (.exitSuccess, .ok)].all
      (fun c =>
        let s := programmed [c.1] c.2
        s.inputs = [] && !s.busy && !s.halt && !s.abort && s.host.prog = [c.1] && s.result = c.2) =
      true ∧
    (⟨[⟨0, [1]⟩], none, some 0x0200⟩ : SessionConfig).relay = none ∧
    (⟨[], some [1], none⟩ : SessionConfig).tasks = [] := by decide

theorem test_meets_ExecuteTriggerSequence :
    let s := programmed [.execTrigger 0x0200] .ok
    s.inputs = [] ∧ s.busy = false ∧ s.abort = false ∧ s.host.prog = [.execTrigger 0x0200] := by
  decide

end Sys2Proof.Tests
end

namespace Sys2Proof.Machine

/-! ### Hex pairs (30_encoding.md R92) -/

theorem hexDigit_toNat : ∀ x : BitVec 4,
    (hexDigit x).toNat = if x.toNat < 10 then 0x30 + x.toNat else 0x37 + x.toNat := by decide

/-- The letters start past the figures, so a symbol tells its nibble. -/
theorem hexDigit_injective : Function.Injective hexDigit := by
  intro x y h
  have hn : (hexDigit x).toNat = (hexDigit y).toNat := congrArg BitVec.toNat h
  rw [hexDigit_toNat, hexDigit_toNat] at hn
  apply BitVec.eq_of_toNat_eq
  split at hn <;> split at hn <;> omega

theorem hex2_append (hi lo : BitVec 4) : hex2 (hi ++ lo) = [hexDigit hi, hexDigit lo] := by
  have hHi : (hi ++ lo).extractLsb' 4 4 = hi := BitVec.extractLsb'_append_eq_left
  have hLo : (hi ++ lo).extractLsb' 0 4 = lo := BitVec.extractLsb'_append_eq_right
  rw [hex2, hHi, hLo]

theorem hex2_injective : Function.Injective hex2 := by
  intro b c h
  simp only [hex2, List.cons.injEq, hexDigit_injective.eq_iff] at h
  obtain ⟨hHi, hLo, -⟩ := h
  have hSplit (x : Byte) : x.extractLsb' 4 4 ++ x.extractLsb' 0 4 = x :=
    BitVec.extractLsb'_append_extractLsb' (w := 4) (len := 4)
  rw [← hSplit b, ← hSplit c, hHi, hLo]

theorem hi8_append (hi lo : Byte) : hi8 (hi ++ lo) = hi := BitVec.extractLsb'_append_eq_left

theorem lo8_append (hi lo : Byte) : lo8 (hi ++ lo) = lo := BitVec.extractLsb'_append_eq_right

theorem hex4_append (hi lo : Byte) : hex4 (hi ++ lo) = hex2 hi ++ hex2 lo := by
  rw [hex4, hi8_append, lo8_append]

/-- Settles O4: a symbol's code point by its nibble, and from that the pairs and their injectivity. -/
theorem hexSymbolsUpperCase : Obligations.HexSymbolsUpperCase :=
  ⟨hexDigit_toNat, hex2_append, hex4_append, fun _ _ h => hex2_injective h⟩

/-! ### The data record as a list of byte values (30_encoding.md R93, R94) -/

theorem hi8_toNat (a : Word) : (hi8 a).toNat = a.toNat / 256 := by
  have := a.isLt
  simp only [hi8, BitVec.extractLsb'_toNat, Nat.shiftRight_eq_div_pow]
  omega

theorem lo8_toNat (a : Word) : (lo8 a).toNat = a.toNat % 256 := by
  simp [lo8]

theorem checksum_toNat (a : Word) (ds : List Byte) : (checksum a ds).toNat =
    (ds.length + a.toNat / 256 + a.toNat % 256 + (ds.map BitVec.toNat).sum) % 65536 := by
  rw [checksum, BitVec.toNat_ofNat, hi8_toNat, lo8_toNat]

/-- The byte values that a data record writes as hex pairs, in order: count, address, data, checksum. -/
def recordBytes (a : Word) (ds : List Byte) : List Byte :=
  [BitVec.ofNat 8 ds.length, hi8 a, lo8 a] ++ ds ++ [hi8 (checksum a ds), lo8 (checksum a ds)]

/-- Between the start symbol and the newline a data record is hex pairs only. -/
theorem dataRecord_eq_pairs (a : Word) (ds : List Byte) :
    dataRecord a ds = Config.recStart :: ((recordBytes a ds).flatMap hex2 ++ [Config.recEnd]) := by
  simp [dataRecord, recordBytes, hex4]

/-- Pair `j` of a run of hex pairs stands at offset `2 * j`. -/
theorem take_drop_flatMap_hex2 (rest : List Byte) {b : Byte} {bs : List Byte} {j : Nat}
    (h : bs[j]? = some b) : ((bs.flatMap hex2 ++ rest).drop (2 * j)).take 2 = hex2 b := by
  induction bs generalizing j with
  | nil => simp at h
  | cons x bs ih =>
    cases j with
    | zero =>
      obtain rfl : x = b := by simpa using h
      rfl
    | succ j => exact ih (by simpa using h)

/-- Byte value `j` of a data record stands as a hex pair at offset `1 + 2 * j`. -/
theorem take_drop_dataRecord {a : Word} {ds : List Byte} {b : Byte} {j k : Nat}
    (h : (recordBytes a ds)[j]? = some b) (hk : k = 2 * j + 1) :
    ((dataRecord a ds).drop k).take 2 = hex2 b := by
  rw [hk, dataRecord_eq_pairs, List.drop_succ_cons]
  exact take_drop_flatMap_hex2 _ h

theorem recordBytes_data (a : Word) {ds : List Byte} {i : Nat} (h : i < ds.length) :
    (recordBytes a ds)[3 + i]? = some ds[i] := by
  simp [recordBytes, Nat.add_comm 3 i, List.getElem?_append_left h, h]

theorem recordBytes_checksum_hi (a : Word) (ds : List Byte) :
    (recordBytes a ds)[3 + ds.length]? = some (hi8 (checksum a ds)) := by
  simp [recordBytes, Nat.add_comm 3 ds.length]

theorem recordBytes_checksum_lo (a : Word) (ds : List Byte) :
    (recordBytes a ds)[4 + ds.length]? = some (lo8 (checksum a ds)) := by
  simp [recordBytes, Nat.add_comm 4 ds.length]

theorem dataRecord_newline (a : Word) (ds : List Byte) :
    (dataRecord a ds)[11 + 2 * ds.length]? = some Config.recEnd := by
  have hLast : (dataRecord a ds).length - 1 = 11 + 2 * ds.length := by
    rw [dataRecord_length]; omega
  rw [← hLast, ← List.getLast?_eq_getElem?, dataRecord, List.getLast?_concat]

/-- Settles O5: each hex field is one of the record's byte values, found at its place in `recordBytes`. -/
theorem dataRecordLayout : Obligations.DataRecordLayout := by
  intro a ds _ _
  refine ⟨dataRecord_length a ds, rfl, ?count, ?addrHi, ?addrLo, ?data, ?sumHi, ?sumLo,
    dataRecord_newline a ds, checksum_toNat a ds⟩
  case count => exact take_drop_dataRecord (j := 0) rfl rfl
  case addrHi => exact take_drop_dataRecord (j := 1) rfl rfl
  case addrLo => exact take_drop_dataRecord (j := 2) rfl rfl
  case data => exact fun i h => take_drop_dataRecord (recordBytes_data a h) (by omega)
  case sumHi => exact take_drop_dataRecord (recordBytes_checksum_hi a ds) (by omega)
  case sumLo => exact take_drop_dataRecord (recordBytes_checksum_lo a ds) (by omega)

/-! ### Unassigned codes written to `CMD` (30_encoding.md R102, 60_exceptions.md R236) -/

/-- The 246 values without a command, as R102 lists them. -/
abbrev UnassignedCode (c : Byte) : Prop :=
  c.toNat = 0 ∨ (0x04 ≤ c.toNat ∧ c.toNat ≤ 0x0F) ∨ (0x15 ≤ c.toNat ∧ c.toNat ≤ 0x1F) ∨
    0x22 ≤ c.toNat

theorem lookupCode_eq_none {c : Byte} {rows : List OpcodeRow} (h : ∀ r ∈ rows, r.code ≠ c) :
    lookupCode c rows = none := by
  induction rows with
  | nil => rfl
  | cons r rows ih =>
    obtain ⟨hr, hrows⟩ := List.forall_mem_cons.mp h
    rw [lookupCode, if_neg hr, ih hrows]

/-- No row of the opcode map has one of these codes. -/
theorem decodeByte_of_unassigned {c : Byte} (h : UnassignedCode c) : decodeByte c = none := by
  have hRows : ∀ r ∈ opcodeTable, ¬ UnassignedCode r.code := by decide
  exact lookupCode_eq_none fun r hr hc => hRows r hr (hc ▸ h)

theorem State.Ready.abortDue {s : State} (h : s.Ready) : s.abortDue = false := by
  obtain ⟨-, hAbort, -, -⟩ := h
  simp [State.abortDue, hAbort]

/-- With no abort to take, the step takes a pending host write. -/
theorem step_of_write {s : State} {r : Nat} {v : Byte} {rest : List Input}
    (hd : s.abortDue = false) (hi : s.inputs = .write r v :: rest) :
    step s = ((s.clearPulse.withInputs rest).portWrite r v).outcome := by
  have hd' : s.clearPulse.abortDue = false := hd
  simp only [step_eq, route, State.nextMove, State.clearPulse_inputs, hi, hd', Bool.false_eq_true,
    if_false, State.takeInput]

/-- On a ready block a value that decodes to no command is ILLEGAL_CMD. -/
theorem State.writeCmd_illegal {s : State} {c : Byte} (h : s.Ready) (hc : decodeByte c = none) :
    s.writeCmd c = .done (.next s.raiseIllegal) := by
  have ⟨_, _, hBusy, _⟩ := h
  simp [State.writeCmd, hBusy, hc, State.accept_ready _ h]

/-- Settles O19: the step is the write to `CMD`, the code decodes to no command, and the ready block
answers ILLEGAL_CMD. -/
theorem illegalCommandOnlySetsResult : Obligations.IllegalCommandOnlySetsResult := by
  intro s c rest hReady hi hc
  have hReady' : (s.clearPulse.withInputs rest).Ready := hReady
  rw [step_of_write hReady.abortDue hi, State.portWrite, if_pos rfl,
    State.writeCmd_illegal hReady' (decodeByte_of_unassigned hc)]
  rfl

end Sys2Proof.Machine

namespace Sys2Proof.Machine

/-! ### The encode commands (40_codec.md R131 to R133, 60_exceptions.md R234, R235) -/

theorem State.accept_faulted {s : State} (f : State → Result) (hHalt : s.halt = false)
    (hAbort : s.abort = false) (hBusy : s.busy = false) (hFault : s.fault = true) :
    s.accept f = .next s.refuseFaulted := by
  simp [State.accept, hHalt, hAbort, hBusy, hFault]

theorem State.countLegal_iff (s : State) :
    s.countLegal = true ↔ 1 ≤ s.n.toNat ∧ s.n.toNat ≤ 24 := by
  simp [State.countLegal, Config.maxData]

/-- A range whose cells all hold a value reads as those values. -/
theorem Memory.readRange_ok {m : List Host.Cell} {ds : List Byte} {i : Nat}
    (h : ∀ j (hj : j < ds.length), Memory.read m (i + j) = some ds[j]) :
    Memory.readRange m i ds.length = .ok ds := by
  induction ds generalizing i with
  | nil => rfl
  | cons d ds ih =>
    have hHead : Memory.read m i = some d := h 0 (by simp)
    have hTail : Memory.readRange m (i + 1) ds.length = .ok ds := by
      refine ih fun j hj => ?_
      rw [Nat.add_right_comm]
      exact h (j + 1) (Nat.succ_lt_succ hj)
    simp only [List.length_cons, Memory.readRange, hHead, hTail]

theorem State.dataBytes_ok {s : State} {ds : List Byte} (hLen : ds.length = s.n.toNat)
    (h : ∀ i (hi : i < ds.length), s.dbufRead i = some ds[i]) : s.dataBytes = .ok ds := by
  rw [State.dataBytes, ← hLen]
  refine Memory.readRange_ok fun j hj => ?_
  rw [Nat.zero_add]
  exact h j hj

theorem exec_encode_faulted {i : Instr} {s : State} (hi : i = .encd ∨ i = .ence ∨ i = .encx)
    (hHalt : s.halt = false) (hAbort : s.abort = false) (hBusy : s.busy = false)
    (hFault : s.fault = true) : exec i s = .next s.refuseFaulted := by
  rcases hi with rfl | rfl | rfl
  · rw [exec, execEncd, State.accept_faulted _ hHalt hAbort hBusy hFault]
  · rw [exec, execEnce, State.accept_faulted _ hHalt hAbort hBusy hFault]
  · rw [exec, execEncx, State.accept_faulted _ hHalt hAbort hBusy hFault]

theorem exec_encd_ok {s : State} {ds : List Byte} (hReady : s.Ready) (hCount : s.countLegal = true)
    (hData : s.dataBytes = .ok ds) :
    exec .encd s = .next ((s.setObuf (dataRecord s.a ds)).finish .ok) := by
  rw [exec, execEncd, State.accept_ready _ hReady, if_pos hCount, hData]

theorem exec_encd_usage {s : State} (hReady : s.Ready) (hCount : ¬ s.countLegal = true) :
    exec .encd s = .next s.raiseUsage := by
  rw [exec, execEncd, State.accept_ready _ hReady, if_neg hCount]

theorem exec_ence_ready {s : State} (hReady : s.Ready) :
    exec .ence s = .next ((s.setObuf (endOfLoadRecord s.a)).finish .ok) := by
  rw [exec, execEnce, State.accept_ready _ hReady]

theorem exec_encx_ready {s : State} (hReady : s.Ready) :
    exec .encx s = .next ((s.setObuf (executeCommand s.a)).finish .ok) := by
  rw [exec, execEncx, State.accept_ready _ hReady]

/-- The end of an encode command, with `OBUF` and `OLEN` written out (10_state.md R25). -/
theorem State.finish_setObuf {s : State} {w v : List Byte} {n : Nat} (hBytes : w = v)
    (hLength : w.length = n) :
    (s.setObuf w).finish .ok = { s with
      obuf := v, olen := BitVec.ofNat 6 n, result := .ok, busy := false, phase := .idle } := by
  subst hBytes hLength
  rfl

/-- The data record by its fields, the count taken from the operand `N` (R93). -/
theorem dataRecord_eq_fields (a : Word) {n : Byte} {ds : List Byte} (hLen : ds.length = n.toNat) :
    dataRecord a ds =
      [0x3B] ++ hex2 n ++ hex2 (hi8 a) ++ hex2 (lo8 a) ++ ds.flatMap hex2
        ++ hex2 (hi8 (checksum a ds)) ++ hex2 (lo8 (checksum a ds)) ++ [0x0A] := by
  have hCount : BitVec.ofNat 8 ds.length = n := by rw [hLen, BitVec.ofNat_toNat, BitVec.setWidth_eq]
  simp only [dataRecord, hCount, hex4, List.append_assoc, Config.recStart, Config.recEnd]

theorem endOfLoadRecord_eq_fields (t : Word) :
    endOfLoadRecord t =
      [0x3B, 0x30, 0x30] ++ hex2 (hi8 t) ++ hex2 (lo8 t) ++ hex2 (hi8 t) ++ hex2 (lo8 t) ++ [0x0A] :=
  rfl

theorem executeCommand_eq_fields (a : Word) :
    executeCommand a = hex2 (hi8 a) ++ hex2 (lo8 a) ++ [0x20] :=
  rfl

/-- Settles O11: with a legal count the cells read as the data and `OBUF` takes the record by its
fields; any other count is refused; a fault is met in the priority chain. -/
theorem encdEncodesOrRefuses : Obligations.EncdEncodesOrRefuses := by
  refine ⟨fun _ => exec_encode_faulted (.inl rfl), fun s hReady => ⟨?encodes, ?refuses⟩⟩
  case encodes =>
    intro ds hLow hHigh hLen hCells sum
    have hSum : checksum s.a ds = sum := by rw [checksum, hLen]
    rw [exec_encd_ok hReady (s.countLegal_iff.mpr ⟨hLow, hHigh⟩) (State.dataBytes_ok hLen hCells),
      State.finish_setObuf (dataRecord_eq_fields s.a hLen) (hLen ▸ dataRecord_length s.a ds), hSum]
  case refuses =>
    intro hCount
    rw [exec_encd_usage hReady (by rw [State.countLegal_iff]; omega), State.raiseUsage]

/-- Settles O13: `OBUF` takes the end-of-load record, whose two totals are both `A`. -/
theorem enceRendersTotalTwice : Obligations.EnceRendersTotalTwice := by
  refine ⟨fun _ => exec_encode_faulted (.inr (.inl rfl)), fun s hReady => ?_⟩
  rw [exec_ence_ready hReady, State.finish_setObuf (endOfLoadRecord_eq_fields s.a) rfl]
  rfl

/-- Settles O14: `OBUF` takes the execute command, the four digits of `A` and its space. -/
theorem encxRendersAddress : Obligations.EncxRendersAddress := by
  refine ⟨fun _ => exec_encode_faulted (.inr (.inr rfl)), fun s hReady => ?_⟩
  rw [exec_encx_ready hReady, State.finish_setObuf (executeCommand_eq_fields s.a) rfl]
  rfl

end Sys2Proof.Machine

namespace Sys2Proof.Machine

/-! ### The channel commands: start, abort, and the next call (41_channel.md R150 to R155) -/

theorem State.Ready.not_running {s : State} (h : s.Ready) (i : Instr) : s.running ≠ some i := by
  obtain ⟨-, -, hBusy, -⟩ := h
  intro hr
  simp [State.busy_of_running hr] at hBusy

/-- In front of a call of a running command: an asserted `abort` ends the command (60 R237). -/
theorem State.sampled_aborted {s : State} {i : Instr} (call : State → Result)
    (hr : s.running = some i) (hHalt : s.halt = false) (hAbort : s.abort = true) :
    s.sampled call = .next { s with
      chan := s.chan.flush.2, halt := true, result := .aborted, busy := false, phase := .idle } := by
  rw [State.sampled, if_neg (by simp [hHalt]), if_pos hAbort, State.takeAbort,
    if_pos (State.busy_of_running hr)]

theorem exec_await_ready {s : State} (h : s.Ready) : exec .await s = .next s.startAwait := by
  rw [exec, execAwait, if_neg (h.not_running _), State.accept_ready _ h]

theorem exec_awaitany_ready {s : State} (h : s.Ready) :
    exec .awaitany s = .next s.startAwaitany := by
  rw [exec, execAwaitany, if_neg (h.not_running _), State.accept_ready _ h]

theorem exec_trywr_ready {s : State} (h : s.Ready) : exec .trywr s = .next (s.start .write) := by
  rw [exec, execTrywr, if_neg (h.not_running _), State.accept_ready _ h]

theorem exec_drain_ready {s : State} (h : s.Ready) : exec .drain s = .next (s.start .draining) := by
  rw [exec, execDrain, if_neg (h.not_running _), State.accept_ready _ h]

theorem exec_flush_ready {s : State} (h : s.Ready) : exec .flush s = .next (s.start .flushing) := by
  rw [exec, execFlush, if_neg (h.not_running _), State.accept_ready _ h]

theorem exec_await_running {s : State} (h : s.running = some .await) :
    exec .await s = s.awaitPoll := by
  rw [exec, execAwait, if_pos h]

theorem exec_awaitany_running {s : State} (h : s.running = some .awaitany) :
    exec .awaitany s = s.awaitPoll := by
  rw [exec, execAwaitany, if_pos h]

theorem exec_trywr_running {s : State} (h : s.running = some .trywr) :
    exec .trywr s = s.writeOnce := by
  rw [exec, execTrywr, if_pos h]

theorem exec_drain_running {s : State} (h : s.running = some .drain) :
    exec .drain s = s.drainOnce := by
  rw [exec, execDrain, if_pos h]

theorem exec_flush_running {s : State} (h : s.running = some .flush) :
    exec .flush s = s.flushOnce := by
  rw [exec, execFlush, if_pos h]

/-! ### The waits, answer by answer (41_channel.md R150 to R152) -/

/-- The selector tells which await runs (10_state.md R36). -/
theorem State.wild_of_await {s : State} (hr : s.running = some .await) : s.wild = false := by
  have hPhase : s.phase = .wait := State.phase_of_wait hr (.inl rfl)
  simpa [State.running, State.busy_of_running hr, hPhase] using hr

theorem State.wild_of_awaitany {s : State} (hr : s.running = some .awaitany) : s.wild = true := by
  have hPhase : s.phase = .wait := State.phase_of_wait hr (.inr rfl)
  simpa [State.running, State.busy_of_running hr, hPhase] using hr

section PollOnce

variable {s : State} {onMatch onTimeout : State → State}

theorem State.pollOnce_rxFault (hHalt : s.halt = false) (hAbort : s.abort = false)
    (hPoll : s.chan.poll.1 = .rxFault) :
    s.pollOnce onMatch onTimeout = .next (s.withChan s.chan.poll.2).raiseIo := by
  rw [State.pollOnce, State.sampled_running _ hHalt hAbort, hPoll]

theorem State.pollOnce_rx {b : Byte} (hHalt : s.halt = false) (hAbort : s.abort = false)
    (hPoll : s.chan.poll.1 = .rx b) :
    s.pollOnce onMatch onTimeout =
      .next (if s.wild || b == s.expb then onMatch (s.withChan s.chan.poll.2)
        else s.withChan s.chan.poll.2) := by
  rw [State.pollOnce, State.sampled_running _ hHalt hAbort, hPoll, apply_ite Host.Outcome.next]

theorem State.pollOnce_tick (hHalt : s.halt = false) (hAbort : s.abort = false)
    (hPoll : s.chan.poll.1 = .tick) :
    s.pollOnce onMatch onTimeout =
      .next (if s.tmr - 1 = 0 then onTimeout (s.withChan s.chan.poll.2).spendTick
        else (s.withChan s.chan.poll.2).spendTick) := by
  rw [State.pollOnce, State.sampled_running _ hHalt hAbort, hPoll, apply_ite Host.Outcome.next]
  rfl

end PollOnce

/-- The answers of a poll that AWAIT and AWAITANY take alike: a TICK and a fault. -/
theorem State.awaitPoll_no_byte {s : State} (hHalt : s.halt = false) (hAbort : s.abort = false) :
    (s.chan.poll.1 = .tick → 1 < s.tmr → s.awaitPoll = .next { s with
      chan := s.chan.poll.2, tmr := s.tmr - 1 }) ∧
    (s.chan.poll.1 = .tick → s.tmr = 1 → s.awaitPoll = .next { s with
      chan := s.chan.poll.2, tmr := 0, result := .timedOut, busy := false, phase := .idle }) ∧
    (s.chan.poll.1 = .rxFault → s.awaitPoll = .next { s with
      chan := s.chan.poll.2, fault := true, result := .ioError, busy := false, phase := .idle }) := by
  refine ⟨fun hPoll hTmr => ?_, fun hPoll hTmr => ?_, fun hPoll => ?_⟩
  · rw [State.awaitPoll, State.pollOnce_tick hHalt hAbort hPoll, if_neg (by omega)]
    rfl
  · rw [State.awaitPoll, State.pollOnce_tick hHalt hAbort hPoll, if_pos (by omega),
      State.spendTick, State.withChan_tmr, hTmr]
    rfl
  · rw [State.awaitPoll, State.pollOnce_rxFault hHalt hAbort hPoll]
    rfl

theorem State.awaitPoll_matched {s : State} {b : Byte} (hHalt : s.halt = false)
    (hAbort : s.abort = false) (hPoll : s.chan.poll.1 = .rx b)
    (hMatch : (s.wild || b == s.expb) = true) :
    s.awaitPoll = .next { s with
      chan := s.chan.poll.2, result := .ok, busy := false, phase := .idle } := by
  rw [State.awaitPoll, State.pollOnce_rx hHalt hAbort hPoll, if_pos hMatch]
  rfl

theorem State.awaitPoll_dropped {s : State} {b : Byte} (hHalt : s.halt = false)
    (hAbort : s.abort = false) (hPoll : s.chan.poll.1 = .rx b)
    (hMatch : ¬ (s.wild || b == s.expb) = true) :
    s.awaitPoll = .next { s with chan := s.chan.poll.2 } := by
  rw [State.awaitPoll, State.pollOnce_rx hHalt hAbort hPoll, if_neg hMatch]
  rfl

/-- Settles O22: a running AWAIT has `WILD` clear, so a byte matches exactly when it is `EXPB`. -/
theorem awaitTurns : Obligations.AwaitTurns := by
  refine ⟨fun s hReady => exec_await_ready hReady, fun s hr hHalt hAbort => ?aborts, ?turns⟩
  case aborts => rw [exec_await_running hr, State.awaitPoll, State.pollOnce,
    State.sampled_aborted _ hr hHalt hAbort]
  case turns =>
    rintro s ⟨hr, hHalt, hAbort⟩
    have hWild : s.wild = false := State.wild_of_await hr
    rw [exec_await_running hr]
    refine ⟨fun hPoll => ?_, fun b hPoll hNe => ?_, State.awaitPoll_no_byte hHalt hAbort⟩
    · exact State.awaitPoll_matched hHalt hAbort hPoll (by simp)
    · exact State.awaitPoll_dropped hHalt hAbort hPoll (by simp [hWild, hNe])

/-- Settles O23: a running AWAITANY has `WILD` set, so every byte matches. -/
theorem awaitanyTurns : Obligations.AwaitanyTurns := by
  refine ⟨fun s hReady => exec_awaitany_ready hReady, fun s hr hHalt hAbort => ?aborts, ?turns⟩
  case aborts => rw [exec_awaitany_running hr, State.awaitPoll, State.pollOnce,
    State.sampled_aborted _ hr hHalt hAbort]
  case turns =>
    rintro s ⟨hr, hHalt, hAbort⟩
    have hWild : s.wild = true := State.wild_of_awaitany hr
    rw [exec_awaitany_running hr]
    refine ⟨fun b hPoll => ?_, State.awaitPoll_no_byte hHalt hAbort⟩
    exact State.awaitPoll_matched hHalt hAbort hPoll (by simp [hWild])

/-! ### The one call of TRYWR, DRAIN and FLUSH (41_channel.md R153 to R155) -/

theorem Channel.tryWrite_written {c : Channel} (b : Byte) (h : c.writeDraw = .written) :
    c.tryWrite b = (.written, c.tried.setQueued (c.queued ++ [b])) := by
  rw [Channel.tryWrite, h]

theorem Channel.tryWrite_busy {c : Channel} (b : Byte) (h : c.writeDraw = .busy) :
    c.tryWrite b = (.busy, c.tried) := by
  rw [Channel.tryWrite, h]

theorem Channel.tryWrite_fault {c : Channel} {taken : Bool} (b : Byte)
    (h : c.writeDraw = .fault taken) :
    c.tryWrite b = (.wFault, c.tried.setQueued (if taken then c.queued ++ [b] else c.queued)) := by
  rw [Channel.tryWrite, h]

theorem Channel.drain_done {c : Channel} (h : c.drainDraw = .done) :
    c.drain = (.done, (c.drainTried.setSent (c.sent ++ c.queued)).setQueued []) := by
  rw [Channel.drain, h]

theorem Channel.drain_fault {c : Channel} {left : Nat} {keep : List Bool}
    (h : c.drainDraw = .fault left keep) : c.drain.1 = .failed := by
  rw [Channel.drain, h]

theorem Channel.flush_done {c : Channel} (h : c.flushDraw = .done) :
    c.flush = (.done, (c.flushTried.setUnread []).setQueued []) := by
  rw [Channel.flush, h]

theorem Channel.flush_fault {c : Channel} {keepUnread keepQueued : List Bool}
    (h : c.flushDraw = .fault keepUnread keepQueued) : c.flush.1 = .failed := by
  rw [Channel.flush, h]

/-- Settles O24: the draw of the write attempt tells the answer and what is queued. -/
theorem trywrAttemptsOnce : Obligations.TrywrAttemptsOnce := by
  refine ⟨fun s hReady => exec_trywr_ready hReady, fun s hr hHalt hAbort => ?aborts, ?call⟩
  case aborts => rw [exec_trywr_running hr, State.writeOnce,
    State.sampled_aborted _ hr hHalt hAbort]
  case call =>
    rintro s ⟨hr, hHalt, hAbort⟩
    rw [exec_trywr_running hr, State.writeOnce, State.sampled_running _ hHalt hAbort]
    refine ⟨fun hDraw => ?_, fun hDraw => ?_, fun taken hDraw => ?_⟩
    · rw [Channel.tryWrite_written s.b hDraw]
      rfl
    · rw [Channel.tryWrite_busy s.b hDraw]
      rfl
    · rw [Channel.tryWrite_fault s.b hDraw]
      rfl

/-- Settles O25: the draw of the drain tells the answer; on DONE the whole queue is on the line. -/
theorem drainSendsAllQueued : Obligations.DrainSendsAllQueued := by
  refine ⟨fun s hReady => exec_drain_ready hReady, fun s hr hHalt hAbort => ?aborts, ?call⟩
  case aborts => rw [exec_drain_running hr, State.drainOnce,
    State.sampled_aborted _ hr hHalt hAbort]
  case call =>
    rintro s ⟨hr, hHalt, hAbort⟩
    rw [exec_drain_running hr, State.drainOnce, State.sampled_running _ hHalt hAbort]
    refine ⟨fun hDraw => ?_, fun left keep hDraw => ?_⟩
    · rw [Channel.drain_done hDraw]
      rfl
    · rw [Channel.drain_fault hDraw]
      rfl

/-- Settles O26: the draw of the flush tells the answer; on DONE both queues are empty. -/
theorem flushEmptiesBothQueues : Obligations.FlushEmptiesBothQueues := by
  refine ⟨fun s hReady => exec_flush_ready hReady, fun s hr hHalt hAbort => ?aborts, ?call⟩
  case aborts => rw [exec_flush_running hr, State.flushOnce,
    State.sampled_aborted _ hr hHalt hAbort]
  case call =>
    rintro s ⟨hr, hHalt, hAbort⟩
    rw [exec_flush_running hr, State.flushOnce, State.sampled_running _ hHalt hAbort]
    refine ⟨fun hDraw => ?_, fun keepUnread keepQueued hDraw => ?_⟩
    · rw [Channel.flush_done hDraw]
      rfl
    · rw [Channel.flush_fault hDraw]
      rfl

end Sys2Proof.Machine

namespace Sys2Proof.Machine

/-! ### The handshakes: start, and the next step by phase (42_handshake.md R171, R177 to R179) -/

theorem exec_hsinit_ready {s : State} (h : s.Ready) :
    exec .hsinit s = .next (s.startHandshake .initial) := by
  rw [exec, execHsinit, if_neg (h.not_running _), State.accept_ready _ h]

theorem exec_hspost_ready {s : State} (h : s.Ready) :
    exec .hspost s = .next (s.startHandshake .postload) := by
  rw [exec, execHspost, if_neg (h.not_running _), State.accept_ready _ h]

theorem exec_handshake_running {s : State} {i : Instr} (hi : i = .hsinit ∨ i = .hspost)
    (hr : s.running = some i) : exec i s = s.hsStep := by
  rcases hi with rfl | rfl
  · rw [exec, execHsinit, if_pos hr]
  · rw [exec, execHspost, if_pos hr]

theorem State.hsStep_flush {s : State} (hPhase : s.phase = .hsFlush) : s.hsStep = s.hsStepFlush := by
  rw [State.hsStep, hPhase]

theorem State.hsStep_attn_initial {s : State} (hPhase : s.phase = .hsAttn)
    (hMode : s.mode = .initial) : s.hsStep = s.hsStepAttnInitial := by
  rw [State.hsStep, hPhase, hMode]

/-! ### Steps 1 and 2 of an attempt, answer by answer (42_handshake.md R172, R173) -/

/-- Settles O30: both commands start alike but for `MODE`, and share step 1, where the draw of the
flush tells the answer. -/
theorem handshakeStepOneFlushes : Obligations.HandshakeStepOneFlushes := by
  refine ⟨fun s hReady => ⟨exec_hsinit_ready hReady, exec_hspost_ready hReady⟩, ?stepOne⟩
  case stepOne =>
    rintro i s hi ⟨hr, hHalt, hAbort⟩ hPhase
    rw [exec_handshake_running hi hr, State.hsStep_flush hPhase, State.hsStepFlush,
      State.sampled_running _ hHalt hAbort]
    refine ⟨fun hDraw => ?_, fun keepUnread keepQueued hDraw => ?_⟩
    · rw [Channel.flush_done hDraw]
      rfl
    · rw [Channel.flush_fault hDraw]
      rfl

/-- Settles O31: a running HSINIT is in initial-contact mode, so step 2 is the one write attempt; its
draw tells the answer, and WRITTEN and BUSY both enter the wait for `BANNER[0]`, which is `K`. -/
theorem handshakeSendsAttention : Obligations.HandshakeSendsAttention := by
  rintro s ⟨hr, hHalt, hAbort⟩ hPhase
  have hMode : s.mode = .initial := (State.mode_of_handshake hr).1 rfl
  rw [exec_handshake_running (.inl rfl) hr, State.hsStep_attn_initial hPhase hMode,
    State.hsStepAttnInitial, State.sampled_running _ hHalt hAbort]
  refine ⟨fun hDraw => ?_, fun hDraw => ?_, fun taken hDraw => ?_⟩
  · rw [Channel.tryWrite_written _ hDraw]
    rfl
  · rw [Channel.tryWrite_busy _ hDraw]
    rfl
  · rw [Channel.tryWrite_fault _ hDraw]
    rfl

end Sys2Proof.Machine

namespace Sys2Proof.Machine

/-! ### Decoding and encoding (30_encoding.md R100 to R102) -/

/-- The code of every command decodes to it, by the round trips of its row. -/
theorem decodeByte_encodeByte (i : Instr) : decodeByte (encodeByte i) = some i := by
  have hRow : Laws.RoundTrip.Statement i := by
    cases i with
    | encd => exact Laws.RoundTrip.encd
    | ence => exact Laws.RoundTrip.ence
    | encx => exact Laws.RoundTrip.encx
    | await => exact Laws.RoundTrip.await
    | awaitany => exact Laws.RoundTrip.awaitany
    | trywr => exact Laws.RoundTrip.trywr
    | drain => exact Laws.RoundTrip.drain
    | flush => exact Laws.RoundTrip.flush
    | hsinit => exact Laws.RoundTrip.hsinit
    | hspost => exact Laws.RoundTrip.hspost
  obtain ⟨-, -, hDecodes⟩ := hRow
  exact hDecodes

theorem lookupCode_eq_some {c : Byte} {i : Instr} {rows : List OpcodeRow}
    (h : lookupCode c rows = some i) : ∃ r ∈ rows, r.code = c ∧ r.instr = i := by
  induction rows with
  | nil => cases h
  | cons r rows ih =>
    by_cases hc : r.code = c
    · rw [lookupCode, if_pos hc] at h
      exact ⟨r, List.mem_cons_self, hc, Option.some.inj h⟩
    · rw [lookupCode, if_neg hc] at h
      obtain ⟨r', hMem, hr'⟩ := ih h
      exact ⟨r', List.mem_cons_of_mem r hMem, hr'⟩

/-- Only a command's own code decodes to it: each row of the opcode map holds its command's code. -/
theorem decodeByte_eq_some_iff {c : Byte} {i : Instr} :
    decodeByte c = some i ↔ c = encodeByte i := by
  refine ⟨fun h => ?_, fun h => h ▸ decodeByte_encodeByte i⟩
  have hRows : ∀ r ∈ opcodeTable, r.code = encodeByte r.instr := by decide
  obtain ⟨r, hMem, rfl, rfl⟩ := lookupCode_eq_some h
  exact hRows r hMem

theorem decode_cons_eq_ok_iff {c : Byte} {bs rest : List Byte} {i : Instr} :
    decode (c :: bs) = .ok (i, rest) ↔ c = encodeByte i ∧ bs = rest := by
  rw [← decodeByte_eq_some_iff, decode]
  cases decodeByte c with
  | none => simp
  | some j => simp

/-- Settles O1: a first byte decodes to a command exactly if it is that command's code. -/
theorem decodeEncodeAgree : Obligations.DecodeEncodeAgree := by
  refine ⟨fun i rest => decode_cons_eq_ok_iff.mpr ⟨rfl, rfl⟩, fun bs rest i h => ?_⟩
  cases bs with
  | nil => cases h
  | cons c bs =>
    obtain ⟨rfl, rfl⟩ := decode_cons_eq_ok_iff.mp h
    rfl

/-- Settles O2: each of the ten words is its command's code. -/
theorem mapWordsDecode : Obligations.MapWordsDecode := by
  simp only [Obligations.MapWordsDecode, decode_cons_eq_ok_iff]
  decide

/-- A code without a command is the code of no row, and the ten rows hold every other value. -/
theorem unassigned_of_decodeByte {c : Byte} (h : decodeByte c = none) : UnassignedCode c := by
  have hNe (i : Instr) : c.toNat ≠ (encodeByte i).toNat := by
    intro hc
    rw [BitVec.eq_of_toNat_eq hc, decodeByte_encodeByte] at h
    cases h
  have h01 : c.toNat ≠ 0x01 := hNe .encd
  have h02 : c.toNat ≠ 0x02 := hNe .ence
  have h03 : c.toNat ≠ 0x03 := hNe .encx
  have h10 : c.toNat ≠ 0x10 := hNe .await
  have h11 : c.toNat ≠ 0x11 := hNe .awaitany
  have h12 : c.toNat ≠ 0x12 := hNe .trywr
  have h13 : c.toNat ≠ 0x13 := hNe .drain
  have h14 : c.toNat ≠ 0x14 := hNe .flush
  have h20 : c.toNat ≠ 0x20 := hNe .hsinit
  have h21 : c.toNat ≠ 0x21 := hNe .hspost
  omega

theorem decode_cons_eq_unassigned_iff {c : Byte} {rest : List Byte} :
    decode (c :: rest) = .error (.unassigned c) ↔ decodeByte c = none := by
  rw [decode]
  cases decodeByte c with
  | none => simp
  | some i => simp

/-- Settles O3: the decoder rejects a value exactly if it is the code of no row. -/
theorem unassignedCodesRejected : Obligations.UnassignedCodesRejected := by
  intro c rest
  rw [decode_cons_eq_unassigned_iff]
  exact ⟨decodeByte_of_unassigned, unassigned_of_decodeByte⟩

/-! ### The arithmetic and the content of a data record (40_codec.md R134, R135, 30_encoding.md R98) -/

/-- Settles O6: each data byte adds at most 255. -/
theorem checksumNeverWraps : Obligations.ChecksumNeverWraps := by
  intro a ds hLow hHigh sum
  have hAddr := a.isLt
  have hData : (ds.map BitVec.toNat).sum ≤ ds.length * 255 := by
    have hByte : ∀ x ∈ ds.map BitVec.toNat, x ≤ 255 := by
      intro x hx
      obtain ⟨b, -, rfl⟩ := List.mem_map.mp hx
      exact Nat.le_of_lt_succ b.isLt
    simpa using List.sum_le_card_nsmul _ 255 hByte
  have hLarge : sum ≤ 0x19FE := by omega
  refine ⟨?_, by omega, hLarge⟩
  rw [checksum_toNat]
  exact Nat.mod_eq_of_lt (by omega)

/-- Settles O7: neither the count nor the sum of the data depends on the order. -/
theorem checksumIgnoresOrder : Obligations.ChecksumIgnoresOrder := by
  intro a ds es hPerm
  rw [checksum, checksum, hPerm.length_eq, (hPerm.map BitVec.toNat).sum_eq]

/-- Hex pairs have one length, so a run of them is read back pair by pair. -/
theorem flatMap_hex2_injective : Function.Injective (List.flatMap hex2) := by
  intro bs
  induction bs with
  | nil =>
    intro cs h
    cases cs with
    | nil => rfl
    | cons c cs => cases h
  | cons b bs ih =>
    intro cs h
    cases cs with
    | nil => cases h
    | cons c cs =>
      rw [List.flatMap_cons, List.flatMap_cons] at h
      obtain ⟨hHead, hTail⟩ := List.append_inj h rfl
      rw [hex2_injective hHead, ih hTail]

theorem word_ext {a a' : Word} (hHi : hi8 a = hi8 a') (hLo : lo8 a = lo8 a') : a = a' := by
  have hHi' := congrArg BitVec.toNat hHi
  have hLo' := congrArg BitVec.toNat hLo
  rw [hi8_toNat, hi8_toNat] at hHi'
  rw [lo8_toNat, lo8_toNat] at hLo'
  exact BitVec.eq_of_toNat_eq (by omega)

/-- Settles O8: equal records hold the same byte values, and these begin with the address and the
data. -/
theorem recordDeterminesContent : Obligations.RecordDeterminesContent := by
  intro a a' ds ds' _ _ _ _ h
  rw [dataRecord_eq_pairs, dataRecord_eq_pairs] at h
  have hBytes : recordBytes a ds = recordBytes a' ds' :=
    flatMap_hex2_injective (List.append_cancel_right (List.tail_eq_of_cons_eq h))
  simp only [recordBytes, List.cons_append, List.nil_append, List.cons.injEq] at hBytes
  obtain ⟨-, hHi, hLo, hData⟩ := hBytes
  exact ⟨word_ext hHi hLo, List.append_inj_left' hData rfl⟩

theorem getElem?_concat_eq_last_iff {α : Type} {l : List α} {x : α} (hx : x ∉ l) (i : Nat) :
    (l ++ [x])[i]? = some x ↔ i = l.length := by
  refine ⟨fun h => ?_, fun h => by simp [h]⟩
  rcases Nat.lt_or_ge i l.length with hi | hi
  · rw [List.getElem?_append_left hi] at h
    exact absurd (List.mem_of_getElem? h) hx
  · obtain ⟨hBound, -⟩ := List.getElem?_eq_some_iff.mp h
    rw [List.length_append, List.length_singleton] at hBound
    omega

theorem newline_not_mem_hex2 (b : Byte) : Config.recEnd ∉ hex2 b := by
  have hDigit : ∀ x : BitVec 4, Config.recEnd ≠ hexDigit x := by decide
  simp only [hex2, List.mem_cons, List.not_mem_nil, or_false, not_or]
  exact ⟨hDigit _, hDigit _⟩

/-- Settles O9: before its last byte a record is the start symbol and hex pairs, none a newline. -/
theorem recordEndsAtFirstNewline : Obligations.RecordEndsAtFirstNewline := by
  intro a ds _ _ i
  have hBody : Config.recEnd ∉ Config.recStart :: (recordBytes a ds).flatMap hex2 := by
    simp only [List.mem_cons, List.mem_flatMap, not_or, not_exists, not_and]
    exact ⟨by decide, fun b _ => newline_not_mem_hex2 b⟩
  have hLength : (Config.recStart :: (recordBytes a ds).flatMap hex2).length = 11 + 2 * ds.length := by
    simp [recordBytes]
    omega
  rw [dataRecord_eq_pairs, ← List.cons_append, getElem?_concat_eq_last_iff hBody, hLength]

/-! ### What an encode command can do (40_codec.md R130) -/

/-- The next states of an encode command: it never runs on, and it starts no other command. -/
theorem exec_encode_outcome {i : Instr} {s t : State} (hi : i = .encd ∨ i = .ence ∨ i = .encx)
    (h : exec i s = .next t) :
    (¬ s.Ready ∧ (t = s ∨ (s.abort = true ∧ t = s.takeAbort) ∨ t = s.refuseFaulted)) ∨
    t = s.raiseUsage ∨
    ∃ w, (∀ x ∈ w, wireSymbol x = true) ∧ legalLength w.length ∧ t = (s.setObuf w).finish .ok := by
  have hNotRunning : s.running ≠ some i := by
    obtain ⟨hEncd, hEnce, hEncx⟩ := s.running_not_encode
    rcases hi with rfl | rfl | rfl <;> assumption
  have hOther (j : Instr) (hj : j ≠ .encd ∧ j ≠ .ence ∧ j ≠ .encx) : i ≠ j := by
    rintro rfl
    tauto
  cases exec_outcome h with
  | unchanged hb e => exact .inl ⟨by rintro ⟨h1, -, h2, -⟩; simp [h1, h2] at hb, .inl e⟩
  | abortIdle _ ha _ e => exact .inl ⟨by rintro ⟨-, h1, -⟩; simp [h1] at ha, .inr (.inl ⟨ha, e⟩)⟩
  | refused _ _ _ hf e => exact .inl ⟨by rintro ⟨-, -, -, h1⟩; simp [h1] at hf, .inr (.inr e)⟩
  | usage _ _ e => exact .inr (.inl e)
  | encoded w _ _ hc hl e => exact .inr (.inr ⟨w, hc, hl, e⟩)
  | startsAwait hj | startsAwaitany hj | startsTrywr hj | startsDrain hj | startsFlush hj
  | startsHsinit hj | startsHspost hj => exact absurd hj (hOther _ (by decide))
  | aborted hr | waits _ hr | wrote _ _ hr | writeFailed _ hr | drained _ hr | drainFailed _ hr
  | flushed _ hr | flushFailed _ hr | hsFlushed _ hr | hsFlushFailed _ hr | attnSent _ hr
  | attnFailed _ hr | counted _ hr | exhausted _ hr | bannerWait _ hr | silenceWait _ hr =>
    exact absurd hr hNotRunning

theorem wireSymbol_lt {x : Byte} (h : wireSymbol x = true) : x.toNat < 128 := by
  simp only [wireSymbol, Bool.or_eq_true, Bool.and_eq_true, decide_eq_true_eq] at h
  rcases h with (((rfl | rfl) | rfl) | h) | h
  · decide
  · decide
  · decide
  · omega
  · omega

/-- Settles O10: the result is OK, so the command wrote its record, which holds wire symbols only. -/
theorem encodersWriteSevenBitSymbols : Obligations.EncodersWriteSevenBitSymbols := by
  intro i s t hi hReady h hOk x hx
  rcases exec_encode_outcome hi h with ⟨hNotReady, -⟩ | rfl | ⟨w, hClean, -, rfl⟩
  · exact absurd hReady hNotReady
  · cases hOk
  · exact ⟨hClean x hx, wireSymbol_lt (hClean x hx)⟩

/-- A range is not read past its first cell without a value. -/
theorem Memory.readRange_error {m : List Host.Cell} {i j n : Nat} (hj : j < n)
    (hNone : Memory.read m (i + j) = none) (hBelow : ∀ l, l < j → Memory.read m (i + l) ≠ none) :
    Memory.readRange m i n = .error (i + j) := by
  induction n generalizing i j with
  | zero => omega
  | succ n ih =>
    cases j with
    | zero =>
      rw [Nat.add_zero] at hNone
      simp only [Memory.readRange, hNone, Nat.add_zero]
    | succ j =>
      obtain ⟨v, hv⟩ := Option.ne_none_iff_exists'.mp (hBelow 0 (Nat.succ_pos j))
      rw [Nat.add_zero] at hv
      have hShift (l : Nat) : i + 1 + l = i + (l + 1) := by omega
      have hRest : Memory.readRange m (i + 1) n = .error (i + 1 + j) :=
        ih (Nat.lt_of_succ_lt_succ hj) (by rw [hShift, hNone])
          fun l hl => hShift l ▸ hBelow (l + 1) (Nat.succ_lt_succ hl)
      simp only [Memory.readRange, hv, hRest, hShift]

theorem exec_encd_unwritten {s : State} {k : Nat} (hReady : s.Ready) (hCount : s.countLegal = true)
    (hData : s.dataBytes = .error k) : exec .encd s = .fault (.dbufUnwritten k) := by
  rw [exec, execEncd, State.accept_ready _ hReady, if_pos hCount, hData]

/-- Settles O12: the read of the data bytes stops at the first cell without a value. -/
theorem encdStopsOnUnwrittenCell : Obligations.EncdStopsOnUnwrittenCell := by
  intro s k hReady hHigh hk hNone hBelow
  have hRead (j : Nat) : Memory.read s.dbuf (0 + j) = s.dbufRead j := by
    rw [Nat.zero_add, State.dbufRead]
  have hData : s.dataBytes = .error (0 + k) :=
    Memory.readRange_error hk (hRead k ▸ hNone) fun j hj => hRead j ▸ hBelow j hj
  rw [Nat.zero_add] at hData
  exact exec_encd_unwritten hReady (s.countLegal_iff.mpr ⟨by omega, hHigh⟩) hData

/-- Settles O15: of an encode command's outcomes only the OK end writes `OBUF`, and none writes more
than the result and the end of the command beside it. -/
theorem encodeCommandsFrame : Obligations.EncodeCommandsFrame := by
  intro i s t hi _ hAbort h
  simp only [State.SameOperands, State.SameSequencing, State.SameOutside, State.SameOutput,
    State.dbufRead]
  rcases exec_encode_outcome hi h with
    ⟨-, rfl | ⟨ha, -⟩ | rfl⟩ | rfl | ⟨w, -, -, rfl⟩
  · simp
  · simp [hAbort] at ha
  · simp
  · simp
  · simp

end Sys2Proof.Machine

namespace Sys2Proof.Machine

/-! ### What the next step is (60_exceptions.md R238, log 13) -/

theorem step_of_reset {s : State} {rest : List Input} (hi : s.inputs = .reset :: rest) :
    step s = .next (s.clearPulse.withInputs rest).blockReset := by
  simp only [step_eq, route, State.nextMove, State.clearPulse_inputs, hi]
  rfl

theorem step_of_abortDue {s : State} (hd : s.abortDue = true) (hi : s.inputs.head? ≠ some .reset) :
    step s = .next s.clearPulse.takeAbort := by
  have hd' : s.clearPulse.abortDue = true := hd
  rw [step_eq, route, State.nextMove]
  split
  case h_1 rest hReset => exact absurd (congrArg List.head? hReset) hi
  case h_2 => rw [if_pos hd']; rfl
  case h_3 => rw [if_pos hd']; rfl

theorem step_of_no_input {s : State} (hd : s.abortDue = false) (hi : s.inputs = []) :
    step s = s.clearPulse.ownMove.outcome := by
  have hd' : s.clearPulse.abortDue = false := hd
  simp only [step_eq, route, State.nextMove, State.clearPulse_inputs, hi, hd', Bool.false_eq_true,
    if_false]

theorem step_of_input {s : State} {ev : Input} {rest : List Input} (hd : s.abortDue = false)
    (hi : s.inputs = ev :: rest) (hev : ev ≠ .reset) :
    step s = ((s.clearPulse.withInputs rest).takeInput ev).outcome := by
  have hd' : s.clearPulse.abortDue = false := hd
  rw [step_eq, route, State.nextMove, State.clearPulse_inputs, hi]
  split
  case h_1 hReset => exact absurd (List.head_eq_of_cons_eq hReset) hev
  case h_2 hNil => cases hNil
  case h_3 hCons =>
    obtain ⟨rfl, rfl⟩ := List.cons.inj hCons
    simp only [hd', Bool.false_eq_true, if_false]

theorem step_of_run {s : State} {rest : List Input} (hd : s.abortDue = false)
    (hi : s.inputs = .run :: rest) :
    step s = (s.clearPulse.withInputs rest).ownMove.outcome :=
  step_of_input hd hi nofun

theorem step_of_read {s : State} {r : Nat} {rest : List Input} (hd : s.abortDue = false)
    (hi : s.inputs = .read r :: rest) :
    step s = (s.clearPulse.withInputs rest).portRead r :=
  step_of_input hd hi nofun

/-- On an idle block the host software's next operation is the machine's own move (log 16). -/
theorem State.ownMove_of_prog {s : State} {op : HostOp} {ops : List HostOp} (hb : s.busy = false)
    (hp : s.host.prog = op :: ops) : s.ownMove = (s.withHost (s.host.setProg ops)).hostMove op := by
  simp only [State.ownMove, hb, Bool.false_eq_true, if_false, hp]

theorem State.ownMove_of_running {s : State} {i : Instr} (hr : s.running = some i) :
    s.ownMove = .run i s := by
  simp only [State.ownMove, State.busy_of_running hr, if_true, hr]

/-- A code written to `CMD` of an idle block runs its command. -/
theorem State.portWrite_cmd {s : State} {c : Byte} {i : Instr} (hb : s.busy = false)
    (hc : decodeByte c = some i) : s.portWrite cmdReg c = .run i s := by
  simp only [State.portWrite, if_true, State.writeCmd, hb, Bool.false_eq_true, if_false, hc]

theorem State.abortDue_eq_false_of_busy {s : State} (hb : s.busy = true) : s.abortDue = false := by
  simp [State.abortDue, hb]

theorem State.abortDue_eq_false_of_halted {s : State} (h : s.abort = true → s.halt = true) :
    s.abortDue = false := by
  cases ha : s.abort with
  | false => simp [State.abortDue, ha]
  | true => simp [State.abortDue, h ha]

/-- Settles O16: an event or an operation that writes a command's code routes to that command, and so
does the machine's own move while the command runs. -/
theorem stepRunsTheDecodedCommand : Obligations.StepRunsTheDecodedCommand := by
  intro s c i
  refine ⟨fun rest hi hc hb ha => ?_, fun ops hi hp hc hb ha => ?_, fun hi hr => ?_,
    fun rest hi hr => ?_⟩
  · obtain ⟨hCode, -⟩ := decode_cons_eq_ok_iff.mp hc
    rw [step_of_write (State.abortDue_eq_false_of_halted ha) hi,
      State.portWrite_cmd (s := s.clearPulse.withInputs rest) hb (decodeByte_eq_some_iff.mpr hCode)]
    rfl
  · obtain ⟨hCode, -⟩ := decode_cons_eq_ok_iff.mp hc
    rw [step_of_no_input (State.abortDue_eq_false_of_halted ha) hi,
      State.ownMove_of_prog (s := s.clearPulse) hb hp, State.hostMove, State.clearPulse_host,
      State.portWrite_cmd (s := s.clearPulse.withHost (s.host.setProg ops)) hb
        (decodeByte_eq_some_iff.mpr hCode)]
    rfl
  · rw [step_of_running hr hi]
    rfl
  · have hd : s.abortDue = false := State.abortDue_eq_false_of_busy (State.busy_of_running hr)
    rw [step_of_run hd hi, State.ownMove_of_running (s := s.clearPulse.withInputs rest) hr]
    rfl

/-- While `BUSY = 1` a host write does nothing (70_reset_and_hazards.md R270). -/
theorem State.portWrite_busy {s : State} (r : Nat) (v : Byte) (hb : s.busy = true) :
    s.portWrite r v = .done (.next s) := by
  rw [State.portWrite, State.writeCmd, if_pos hb, State.regWrite, if_pos hb, ite_self]

/-- Settles O20: whatever its number, the write is used up and ignored. -/
theorem busyIgnoresHostWrites : Obligations.BusyIgnoresHostWrites := by
  intro s r v rest hb hi
  rw [step_of_write (State.abortDue_eq_false_of_busy hb) hi,
    State.portWrite_busy (s := s.clearPulse.withInputs rest) r v hb]
  rfl

/-- Settles O43: the abort is due, and an idle block keeps its result. -/
theorem abortBetweenCommands : Obligations.AbortBetweenCommands := by
  intro s ha hh hb hi
  have hd : s.abortDue = true := by simp [State.abortDue, ha, hh, hb]
  rw [step_of_abortDue hd hi, State.takeAbort, State.clearPulse_busy, hb, State.clearPulse]
  rfl

/-- Settles O51: the reset event comes first, and the block takes the reset values. -/
theorem resetInputRestoresBlock : Obligations.ResetInputRestoresBlock := by
  intro s rest hi
  refine ⟨_, step_of_reset hi, rfl, rfl, rfl, rfl, rfl, rfl, rfl, rfl, rfl, fun _ => rfl, rfl, rfl,
    rfl, State.blockReset_calls _, ?sent, ?untouched⟩
  case sent =>
    rw [State.blockReset_chan]
    split
    · obtain ⟨u, q, z, hAbandon⟩ := (s.clearPulse.withInputs rest).chan.abandon_frame
      rw [hAbandon]
      exact List.prefix_append _ _
    · exact List.prefix_rfl
  case untouched =>
    intro hCall
    rw [State.blockReset_chan, if_neg (by simp [hCall])]
    rfl

/-! ### The host register port (10_state.md R43) -/

theorem State.regRead_dbuf (s : State) {i : Nat} (h : i < 24) :
    s.regRead (0x20 + i) = s.dbufRead i := by
  simp only [State.regRead, Config.maxData]
  repeat rw [if_neg (by omega)]
  rw [if_pos (by omega), Nat.add_sub_cancel_left]

theorem State.regRead_obuf (s : State) {i : Nat} (h : i < s.olen.toNat) :
    s.regRead (0x40 + i) = s.obuf[i]? := by
  simp only [State.regRead, Config.maxData]
  repeat rw [if_neg (by omega)]
  rw [if_pos (by omega), Nat.add_sub_cancel_left]

theorem State.statByte_bits (s : State) :
    s.statByte.getLsbD 0 = s.busy ∧ s.statByte.getLsbD 1 = s.fault ∧ s.statByte.getLsbD 2 = s.halt ∧
      s.statByte.toNat < 8 := by
  rw [State.statByte]
  cases s.halt <;> cases s.fault <;> cases s.busy <;> decide

/-- Settles O52: each number's line of the map, and the step that answers a read from it. -/
theorem registerMapReads : Obligations.RegisterMapReads := by
  refine ⟨fun s => ⟨⟨_, rfl, s.statByte_bits⟩, fun hb => ?result, rfl, rfl, rfl, rfl, ?olen,
    fun i hi => s.regRead_dbuf hi, fun i hi => s.regRead_obuf hi⟩, fun s r v rest hi hd hv => ?step⟩
  case result =>
    have hRead : s.regRead 0x02 = some s.resultByte := by simp [State.regRead, hb]
    rw [hRead, State.resultByte]
    cases s.result <;> rfl
  case olen =>
    have hRead : s.regRead 0x07 = some s.olenByte := rfl
    rw [hRead, State.olenByte, BitVec.ofNat_toNat]
  case step =>
    have hv' : (s.clearPulse.withInputs rest).regRead r = some v := hv
    rw [step_of_read hd hi, State.portRead, hv']
    rfl

theorem State.regRead_eq_none {s : State} {r : Nat}
    (h : r = 0 ∨ (r = 2 ∧ s.busy = true) ∨ (8 ≤ r ∧ r < 0x20) ∨
      (0x20 ≤ r ∧ r < 0x38 ∧ s.dbufRead (r - 0x20) = none) ∨ (0x38 ≤ r ∧ r < 0x40) ∨
      0x40 + s.olen.toNat ≤ r) : s.regRead r = none := by
  rcases h with rfl | ⟨rfl, hb⟩ | h | ⟨hLow, hHigh, hCell⟩ | h | h
  · rfl
  · simp [State.regRead, hb]
  · simp only [State.regRead, Config.maxData]
    repeat rw [if_neg (by omega)]
  · obtain ⟨i, rfl⟩ := Nat.exists_eq_add_of_le hLow
    rw [s.regRead_dbuf (by omega), ← hCell, Nat.add_sub_cancel_left]
  · simp only [State.regRead, Config.maxData]
    repeat rw [if_neg (by omega)]
  · simp only [State.regRead, Config.maxData]
    repeat rw [if_neg (by omega)]

/-- Settles O53: none of these numbers has a value. -/
theorem readsWithoutValueAreRefused : Obligations.ReadsWithoutValueAreRefused := by
  intro s r rest hi hd hr
  have hNone : (s.clearPulse.withInputs rest).regRead r = none := State.regRead_eq_none (s := s) hr
  rw [step_of_read hd hi, State.portRead, hNone]


theorem toNat_append_byte (hi lo : Byte) : (hi ++ lo).toNat = hi.toNat * 256 + lo.toNat := by
  rw [BitVec.toNat_append, ← Nat.shiftLeft_add_eq_or_of_lt lo.isLt, Nat.shiftLeft_eq]

/-- With no abort to take, a host write to a number other than `CMD` is the port's write. -/
theorem step_of_regWrite {s : State} {r : Nat} {v : Byte} {rest : List Input}
    (hd : s.abortDue = false) (hi : s.inputs = .write r v :: rest) (hr : r ≠ cmdReg) :
    step s = .next ((s.clearPulse.withInputs rest).regWrite r v) := by
  rw [step_of_write hd hi, State.portWrite, if_neg hr]
  rfl

theorem State.regWrite_dbuf {s : State} {i : Nat} (v : Byte) (hb : s.busy = false) (hi : i < 24) :
    s.regWrite (0x20 + i) v = { s with dbuf := Memory.write s.dbuf i v } := by
  rw [State.regWrite, if_neg (by simp [hb])]
  simp only [Config.maxData]
  repeat rw [if_neg (by omega)]
  rw [if_pos (by omega), Nat.add_sub_cancel_left, State.dbufWrite, if_pos hi]

/-- A number that names no operand register and no `DBUF` cell takes no write. -/
theorem State.regWrite_ignored {s : State} {r : Nat} (v : Byte)
    (hr : r = 0x01 ∨ r = 0x02 ∨ (0x07 ≤ r ∧ r < 0x20) ∨ 0x38 ≤ r) : s.regWrite r v = s := by
  rw [State.regWrite]
  split
  · rfl
  · simp only [Config.maxData]
    repeat rw [if_neg (by omega)]

/-- Settles O54: each number's line of the map, the cell by read after write. -/
theorem registerMapWrites : Obligations.RegisterMapWrites := by
  intro s r v rest hi hb hd u
  have hb' : (s.clearPulse.withInputs rest).busy = false := hb
  have hStep (hr : r ≠ cmdReg) := step_of_regWrite hd hi hr
  refine ⟨?b, ?n, ?aLow, ?aHigh, ?cell, ?ignored⟩
  case b | n =>
    rintro rfl
    rw [hStep (by decide), State.regWrite, if_neg (by simp [hb])]
    rfl
  case aLow =>
    rintro rfl
    refine ⟨hi8 s.a ++ v, ?_, by rw [toNat_append_byte, hi8_toNat]⟩
    rw [hStep (by decide), State.regWrite, if_neg (by simp [hb])]
    rfl
  case aHigh =>
    rintro rfl
    refine ⟨v ++ lo8 s.a, ?_, by rw [toNat_append_byte, lo8_toNat]⟩
    rw [hStep (by decide), State.regWrite, if_neg (by simp [hb])]
    rfl
  case cell =>
    rintro i hCell rfl
    refine ⟨Memory.write s.dbuf i v, ?_, Memory.read_write_same _ _ _,
      fun j hj => Memory.read_write_other _ _ hj⟩
    rw [hStep (by simp only [cmdReg]; omega), State.regWrite_dbuf v hb' hCell]
    rfl
  case ignored =>
    intro hr
    rw [hStep (by simp only [cmdReg]; omega), State.regWrite_ignored v hr]
    rfl

/-! ### The host software (43_host_sequences.md) -/

section Software

variable {s : State} {op : HostOp} {ops : List HostOp}

/-- On an idle block with no event and no abort to take, the step is the software's next operation. -/
theorem step_of_softwareOp (hd : s.abortDue = false) (hi : s.inputs = []) (hb : s.busy = false)
    (hp : s.host.prog = op :: ops)
    (hop : ∀ u : State, u.hostMove op = .done (.next (u.softwareOp op))) :
    step s = .next ((s.clearPulse.withHost (s.host.setProg ops)).softwareOp op) := by
  rw [step_of_no_input hd hi, State.ownMove_of_prog (s := s.clearPulse) hb hp, hop]
  rfl

theorem State.afterCommand_goesOn {goOn : State → State} (hh : s.halt = false)
    (hr : s.result ≠ .ioError) : s.afterCommand goOn = goOn s := by
  simp [State.afterCommand, hh, hr]

theorem State.afterCommand_ioError {goOn : State → State} (hh : s.halt = false)
    (hr : s.result = .ioError) : s.afterCommand goOn = s.endSession .ioFault := by
  simp [State.afterCommand, hh, hr]

end Software

theorem State.abortDue_eq_false {s : State} (ha : s.abort = false) : s.abortDue = false := by
  simp [State.abortDue, ha]

/-- Settles O55: the check after the write attempt, result by result. -/
theorem writeAllRetriesBusyBytes : Obligations.WriteAllRetriesBusyBytes := by
  intro s ops hi hb hh ha hp
  rw [step_of_softwareOp (State.abortDue_eq_false ha) hi hb hp fun _ => rfl, State.softwareOp]
  have hh' : (s.clearPulse.withHost (s.host.setProg ops)).halt = false := hh
  refine ⟨fun hr => ?_, fun hr => ?_, fun hr => ?_⟩
  · rw [State.afterCommand_goesOn hh' (by simp [hr]), if_pos (by simp [hr])]
    rfl
  · rw [State.afterCommand_goesOn hh' (by simp [hr]), if_neg (by simp [hr])]
    rfl
  · rw [State.afterCommand_ioError hh' (by simp [hr])]
    rfl

/-- Settles O56: the check after the echo wait; the progress tick is the newline's. -/
theorem relayDiesOnlyWhenBothFail : Obligations.RelayDiesOnlyWhenBothFail := by
  intro s x wrote ops hi hb hh ha hp hr
  rw [step_of_softwareOp (State.abortDue_eq_false ha) hi hb hp fun _ => rfl, State.softwareOp]
  have hh' : (s.clearPulse.withHost (s.host.setProg ops)).halt = false := hh
  rw [State.afterCommand_goesOn hh' (by simpa using hr)]
  refine ⟨fun ⟨hWrote, hEcho⟩ => ?dies, fun hSome => ?goesOn⟩
  case dies =>
    rw [if_pos (by simp [hWrote, hEcho])]
    rfl
  case goesOn =>
    rw [if_neg (by rcases hSome with h | h <;> simp [h])]
    by_cases hx : x = Config.recEnd
    · rw [if_pos hx, if_pos hx]
      rfl
    · rw [if_neg hx, if_neg hx]
      rfl

theorem fitWord_of_lt {x : Nat} (policy : OverflowPolicy) (h : x < 65536) :
    fitWord x policy = some (BitVec.ofNat 16 x) := by
  simp only [fitWord, if_pos h]

theorem setData_eq_mapIdx (i : Nat) (xs : List Byte) :
    setData i xs = xs.mapIdx fun j x => .set (0x20 + (i + j)) x := by
  induction xs generalizing i with
  | nil => rfl
  | cons x xs ih =>
    rw [setData, ih, List.mapIdx_cons]
    simp only [Nat.add_zero, Nat.add_right_comm i 1, Nat.add_assoc i]

/-- Settles O57: the chunk is the first 24 bytes of the source, and the rest is what is left. -/
theorem chunkingRebuildsTheSource : Obligations.ChunkingRebuildsTheSource := by
  intro s t tasks hAddr
  refine ⟨fun hEmpty => ?empty, fun hSource => ⟨t.source.take 24, t.source.drop 24,
    (List.take_append_drop 24 t.source).symm, ?low, List.length_take_le 24 _, ?short, ?ops⟩⟩
  case empty => simp [State.loadChunk, hEmpty, Config.maxData]
  case low =>
    have hPos := List.length_pos_iff.mpr hSource
    rw [List.length_take]
    omega
  case short =>
    intro hShort
    rw [List.length_take] at hShort
    exact List.drop_eq_nil_of_le (by omega)
  case ops =>
    have hNonempty : (t.source.take Config.maxData).length ≠ 0 := by
      simpa [Config.maxData] using hSource
    have hEncd : encodeByte .encd = 0x01 := rfl
    have hDrain : encodeByte .drain = 0x13 := rfl
    simp only [State.loadChunk, if_neg hNonempty, fitWord_of_lt _ hAddr, setData_eq_mapIdx,
      Nat.zero_add]
    simp [setA, sendRecord, issue, Config.maxData, hEncd, hDrain]

/-- Settles O58: the contradiction is seen before anything else of the session. -/
theorem usageErrorBeforeAnyChannelCall : Obligations.UsageErrorBeforeAnyChannelCall := by
  intro s cfg ops hi hb ha hp hRelay hTasks
  have hContra : cfg.contradictory = true := by
    simp [SessionConfig.contradictory, hRelay, hTasks]
  rw [step_of_softwareOp (State.abortDue_eq_false_of_halted ha) hi hb hp fun _ => rfl,
    State.softwareOp, State.startSession, if_pos hContra]
  rfl

/-- Settles O59: the flow is the session's own expansion; the mode, the load and the trigger are those
of the configuration. -/
theorem sessionFollowsTheFlow : Obligations.SessionFollowsTheFlow := by
  intro s hi hb hh ha
  have hd := State.abortDue_eq_false ha
  refine ⟨fun cfg ops hp hSound => ?flow, fun ops hp hr => ?confirm, fun ops hp => ?success⟩
  case flow =>
    have hContra : ¬ cfg.contradictory = true := by
      rcases hSound with h | h <;> simp [SessionConfig.contradictory, h]
    rw [step_of_softwareOp hd hi hb hp fun _ => rfl, State.softwareOp, State.startSession,
      if_neg hContra]
    refine ⟨_, _, _, rfl, ?_⟩
    cases cfg.relay <;> cases cfg.exec <;> simp
  case confirm =>
    rw [step_of_softwareOp hd hi hb hp fun _ => rfl, State.softwareOp,
      State.afterCommand_goesOn (by simpa using hh) (by simp [hr]), if_pos (by simpa using hr)]
    rfl
  case success =>
    rw [step_of_softwareOp hd hi hb hp fun _ => rfl]
    rfl

/-- Settles O60: the trigger's own expansion, with the codes of its commands. -/
theorem executeTriggerSequence : Obligations.ExecuteTriggerSequence := by
  intro s a ops hi hb ha hp
  rw [step_of_softwareOp (State.abortDue_eq_false_of_halted ha) hi hb hp fun _ => rfl]
  rfl

end Sys2Proof.Machine

namespace Sys2Proof.Machine

/-! ### What every command leaves alone (10_state.md R21 to R25, 41_channel.md R156) -/

/-- The operand registers, the `DBUF` data, the `abort` pin and the events to come are as before. -/
def State.Keeps (s t : State) : Prop :=
  t.a = s.a ∧ t.n = s.n ∧ t.b = s.b ∧ t.dbuf = s.dbuf ∧ t.abort = s.abort ∧ t.inputs = s.inputs

theorem State.Keeps.sameOperands {s t : State} (h : s.Keeps t) : s.SameOperands t := by
  obtain ⟨ha, hn, hb, hd, -, -⟩ := h
  exact ⟨ha, hn, hb, fun i => by rw [State.dbufRead, State.dbufRead, hd]⟩

section PollOutcome

variable {s t : State} {onMatch onTimeout : State → State}

theorem PollOutcome.keeps (h : PollOutcome s t onMatch onTimeout)
    (hm : ∀ u : State, u.Keeps (onMatch u) ∧ u.SameOutput (onMatch u))
    (ho : ∀ u : State, u.Keeps (onTimeout u) ∧ u.SameOutput (onTimeout u)) :
    s.Keeps t ∧ s.SameOutput t := by
  cases h with
  | matched _ _ _ _ _ e => exact e ▸ hm (s.withChan s.chan.poll.2)
  | spent _ _ _ _ e => exact e ▸ ho (s.withChan s.chan.poll.2).spendTick
  | halted _ e | aborted _ _ e | failed _ _ _ e | dropped _ _ _ _ _ e | ticked _ _ _ _ e =>
    subst e
    simp [State.Keeps, State.SameOutput]

theorem PollOutcome.chan_cases (h : PollOutcome s t onMatch onTimeout)
    (hm : ∀ u : State, (onMatch u).chan = u.chan) (ho : ∀ u : State, (onTimeout u).chan = u.chan) :
    t.chan = s.chan ∨ (s.abort = true ∧ t.chan = s.chan.flush.2) ∨ t.chan = s.chan.poll.2 := by
  cases h with
  | halted _ e => exact .inl (e ▸ rfl)
  | aborted _ ha e => exact .inr (.inl ⟨ha, e ▸ rfl⟩)
  | matched _ _ _ _ _ e => exact .inr (.inr (e ▸ hm _))
  | spent _ _ _ _ e => exact .inr (.inr (e ▸ ho _))
  | failed _ _ _ e | dropped _ _ _ _ _ e | ticked _ _ _ _ e => exact .inr (.inr (e ▸ rfl))

/-- No turn clears `FAULT`; `HALT` is set by an asserted `abort` alone, and once set stops the turn. -/
theorem PollOutcome.flags (h : PollOutcome s t onMatch onTimeout)
    (hm : ∀ u : State, (onMatch u).halt = u.halt ∧ (onMatch u).fault = u.fault)
    (ho : ∀ u : State, (onTimeout u).halt = u.halt ∧ (onTimeout u).fault = u.fault) :
    (s.abort = false → t.halt = s.halt) ∧ (s.halt = true → t = s) ∧
      (s.fault = true → t.fault = true) := by
  cases h with
  | matched hh _ _ _ _ e =>
    obtain ⟨hHalt, hFault⟩ := hm (s.withChan s.chan.poll.2)
    simp [e, hh, hHalt, hFault]
  | spent hh _ _ _ e =>
    obtain ⟨hHalt, hFault⟩ := ho (s.withChan s.chan.poll.2).spendTick
    simp [e, hh, hHalt, hFault]
  | halted _ e => simp [e]
  | aborted hh ha e => simp [e, hh, ha]
  | failed hh _ _ e | dropped hh _ _ _ _ e | ticked hh _ _ _ e => simp [e, hh]

end PollOutcome

/-- No command writes an operand register, `DBUF`, the pin or the events; an encode command that
ends OK writes `OBUF` and `OLEN` together, and nothing else does. -/
theorem exec_keeps {i : Instr} {s t : State} (h : exec i s = .next t) :
    s.Keeps t ∧ (s.SameOutput t ∨
      (i = .encd ∨ i = .ence ∨ i = .encx) ∧ t.result = .ok ∧ t.olen.toNat = t.obuf.length) := by
  cases exec_outcome h with
  | encoded w hi _ _ hl e =>
    have hShort : w.length < 64 := by
      simp only [legalLength, Config.obufCap, Config.maxData] at hl
      omega
    subst e
    refine ⟨by simp [State.Keeps], .inr ⟨hi, rfl, ?_⟩⟩
    simpa using Nat.mod_eq_of_lt hShort
  | waits _ _ _ hp | bannerWait _ _ _ hp | silenceWait _ _ _ hp =>
    have hKeeps := hp.keeps (by simp [State.Keeps, State.SameOutput])
      (by simp [State.Keeps, State.SameOutput])
    exact ⟨hKeeps.1, .inl hKeeps.2⟩
  | _ =>
    rename_i e
    subst e
    simp [State.Keeps, State.SameOutput]

/-- Settles O47: the frame of every command. -/
theorem commandsKeepOperandsAndOutput : Obligations.CommandsKeepOperandsAndOutput := by
  intro i s t h
  obtain ⟨hKeeps, hOutput⟩ := exec_keeps h
  exact ⟨hKeeps.sameOperands, hOutput⟩

/-! ### The channel calls of a command (20_memory.md R71, 41_channel.md R156) -/

/-- What a command has done to the channel: nothing, or the one primitive call its kind makes. -/
inductive ChannelOutcome (i : Instr) (s t : State) : Prop
  | none (e : t.chan = s.chan)
  | flushed (hi : s.abort = true ∨ i = .flush ∨ i = .hsinit ∨ i = .hspost)
      (e : t.chan = s.chan.flush.2)
  | polled (hi : i = .await ∨ i = .awaitany ∨ i = .hsinit ∨ i = .hspost)
      (e : t.chan = s.chan.poll.2)
  | tried (b : Byte) (hi : i = .trywr ∨ i = .hsinit) (e : t.chan = (s.chan.tryWrite b).2)
  | drained (hi : i = .drain) (e : t.chan = s.chan.drain.2)

theorem PollOutcome.channelOutcome {i : Instr} {s t : State} {onMatch onTimeout : State → State}
    (h : PollOutcome s t onMatch onTimeout)
    (hi : i = .await ∨ i = .awaitany ∨ i = .hsinit ∨ i = .hspost)
    (hm : ∀ u : State, (onMatch u).chan = u.chan) (ho : ∀ u : State, (onTimeout u).chan = u.chan) :
    ChannelOutcome i s t := by
  rcases h.chan_cases hm ho with e | ⟨ha, e⟩ | e
  · exact .none e
  · exact .flushed (.inl ha) e
  · exact .polled hi e

theorem exec_channelOutcome {i : Instr} {s t : State} (h : exec i s = .next t) :
    ChannelOutcome i s t := by
  cases exec_outcome h with
  | abortIdle _ ha _ e | aborted _ _ ha e => exact .flushed (.inl ha) (e ▸ rfl)
  | waits hi _ _ hp | bannerWait hi _ _ hp | silenceWait hi _ _ hp =>
    exact hp.channelOutcome (by tauto) (by simp) (by simp)
  | wrote _ hi _ _ _ _ e => exact .tried s.b (.inl hi) (e ▸ rfl)
  | writeFailed hi _ _ _ e => exact .tried s.b (.inl hi) (e ▸ rfl)
  | drained hi _ _ _ e | drainFailed hi _ _ _ e => exact .drained hi (e ▸ rfl)
  | flushed hi _ _ _ e | flushFailed hi _ _ _ e => exact .flushed (.inr (.inl hi)) (e ▸ rfl)
  | hsFlushed hi _ _ _ _ e | hsFlushFailed hi _ _ _ _ e => exact .flushed (.inr (.inr hi)) (e ▸ rfl)
  | attnSent hi _ _ _ _ _ e | attnFailed hi _ _ _ _ _ e =>
    exact .tried Config.attn (.inr hi) (e ▸ rfl)
  | _ =>
    rename_i e
    exact .none (e ▸ rfl)

theorem exec_calls_le {i : Instr} {s t : State} (h : exec i s = .next t) :
    t.chan.calls ≤ s.chan.calls + 1 := by
  cases exec_channelOutcome h with
  | none e | flushed _ e | polled _ e | tried _ _ e | drained _ e => simp [e]

/-! ### What a step does besides a command (60_exceptions.md R238, log 13) -/

/-- The sequencing of the block, its flags and its output are as before and no primitive has been
called. `RESULT` may have changed on an idle block; with `FAULT` set it then shows it. -/
structure State.SameControl (s t : State) : Prop where
  phase : t.phase = s.phase
  busy : t.busy = s.busy
  fault : t.fault = s.fault
  halt : t.halt = s.halt
  sequencing : s.SameSequencing t
  output : s.SameOutput t
  retryTick : t.retryTick = false
  calls : t.chan.calls = s.chan.calls
  dbufWf : Memory.wf s.dbuf = true → Memory.wf t.dbuf = true
  result : t.result = s.result ∨ (s.busy = false ∧ (s.fault = true → t.result = .ioError))

/-- The next states of a step, by what matters to the block: a reset, an abort between commands, a
command's meaning, or a move that is none of the block's own. -/
inductive StepKind (s t : State) : Prop
  | reset (es : List Input) (hi : s.inputs = .reset :: es)
      (e : t = (s.clearPulse.withInputs es).blockReset)
  | abort (hi : s.inputs.head? ≠ some .reset) (hd : s.abortDue = true) (e : t = s.clearPulse.takeAbort)
  | command (i : Instr) (es : List Input) (h : HostSide) (hd : s.abortDue = false)
      (hr : s.running = some i ∨ s.busy = false)
      (hx : exec i ((s.clearPulse.withInputs es).withHost h) = .next t)
  | other (h : s.SameControl t)

/-- A host write to the port touches operands and data only. -/
theorem State.regWrite_cases (s : State) (r : Nat) (v : Byte) :
    (∃ a n b, s.regWrite r v = { s with a := a, n := n, b := b }) ∨
    ∃ i, s.regWrite r v = s.dbufWrite i v := by
  unfold State.regWrite
  split
  · exact .inl ⟨_, _, _, rfl⟩
  split
  · exact .inl ⟨_, _, _, rfl⟩
  split
  · exact .inl ⟨_, _, _, rfl⟩
  split
  · exact .inl ⟨_, _, _, rfl⟩
  split
  · exact .inl ⟨_, _, _, rfl⟩
  split
  · exact .inr ⟨_, rfl⟩
  · exact .inl ⟨_, _, _, rfl⟩

theorem State.sameControl_regWrite (s : State) (es : List Input) (h : HostSide) (r : Nat) (v : Byte) :
    s.SameControl (((s.clearPulse.withInputs es).withHost h).regWrite r v) := by
  rcases State.regWrite_cases ((s.clearPulse.withInputs es).withHost h) r v with ⟨a, n, b, e⟩ |
    ⟨i, e⟩ <;>
    rw [e]
  · constructor <;> simp [State.SameSequencing, State.SameOutput]
  · have hWf := State.dbufWrite_wf (s := (s.clearPulse.withInputs es).withHost h) i v
    constructor <;> simp_all [State.SameSequencing, State.SameOutput]

/-- An unassigned code on an idle block changes `RESULT` at most (60 R234, R236). -/
theorem State.sameControl_illegal {s t : State} {es : List Input} {h : HostSide}
    (hd : s.abortDue = false) (hb : s.busy = false)
    (hx : ((s.clearPulse.withInputs es).withHost h).accept (fun s => .next s.raiseIllegal) = .next t) :
    s.SameControl t := by
  have hNoAbort (hh : s.halt = false) : s.abort = false := by
    simpa [State.abortDue, hb, hh] using hd
  rcases State.accept_cases ((s.clearPulse.withInputs es).withHost h)
    (fun s => .next s.raiseIllegal) with
    ⟨-, e⟩ | ⟨hh, ha, -, -⟩ | ⟨-, hBusy, -⟩ | ⟨-, -, -, -, e⟩ | ⟨⟨-, -, -, hf⟩, e⟩
  · cases e.symm.trans hx
    constructor <;> simp [State.SameSequencing, State.SameOutput]
  · simp [hNoAbort hh] at ha
  · simp [hb] at hBusy
  · cases e.symm.trans hx
    constructor <;> simp [State.SameSequencing, State.SameOutput, hb]
  · cases e.symm.trans hx
    have hf' : s.fault = false := hf
    constructor <;> simp [State.SameSequencing, State.SameOutput, hb, hf']

theorem step_kind {s t : State} (h : step s = .next t) : StepKind s t := by
  cases step_outcome h with
  | reset es hi e => exact .reset es hi e
  | abort hi hd e => exact .abort hi hd e
  | running i es hd hr hx => exact .command i es s.host hd (.inl hr) hx
  | command i es h hd hb hx => exact .command i es h hd (.inr hb) hx
  | illegal es h hd hb hx => exact .other (State.sameControl_illegal hd hb hx)
  | registerWrite es h r v e => exact .other (e ▸ State.sameControl_regWrite s es h r v)
  | hostOnly es h e | abortPin es l e =>
    subst e
    refine .other ?_
    constructor <;> simp [State.SameSequencing, State.SameOutput]
  | channelEvent es c hc e =>
    subst e
    refine .other ?_
    constructor <;> simp [State.SameSequencing, State.SameOutput, hc]

/-- Settles O46: a step is a command, with at most one call, or makes at most the flush of `abort`. -/
theorem oneChannelCallPerStep : Obligations.OneChannelCallPerStep := by
  intro s t h
  cases step_kind h with
  | reset es _ e =>
    rw [e, State.blockReset_calls]
    exact Nat.le_succ _
  | abort _ _ e => simp [e]
  | command i es h _ _ hx => simpa using exec_calls_le hx
  | other h => exact Nat.le_succ_of_le h.calls.le

/-! ### `HALT` and `FAULT` (10_state.md R30, 60_exceptions.md R234, R237, R238) -/

/-- A command that is not running is no more than the priority chain and its own start, and only ENCD's
can stop the machine. -/
theorem exec_eq_accept {i : Instr} {s : State} (h : s.running ≠ some i) :
    ∃ begins, exec i s = s.accept begins ∧ (i ≠ .encd → ∀ u, ∃ t, begins u = .next t) := by
  cases i with
  | encd =>
    rw [exec, execEncd]
    exact ⟨_, rfl, fun hi => absurd rfl hi⟩
  | ence =>
    rw [exec, execEnce]
    exact ⟨_, rfl, fun _ u => ⟨_, rfl⟩⟩
  | encx =>
    rw [exec, execEncx]
    exact ⟨_, rfl, fun _ u => ⟨_, rfl⟩⟩
  | await | awaitany | trywr | drain | flush | hsinit | hspost =>
    exact ⟨_, if_neg h, fun _ u => ⟨_, rfl⟩⟩

theorem State.running_of_idle {s : State} (hb : s.busy = false) : s.running = none := by
  simp [State.running, hb]

theorem State.accept_halted {s : State} (f : State → Result) (hh : s.halt = true) :
    s.accept f = .next s := by
  simp [State.accept, hh]

theorem exec_idle_halted (i : Instr) {s : State} (hb : s.busy = false) (hh : s.halt = true) :
    exec i s = .next s := by
  obtain ⟨f, e, -⟩ := exec_eq_accept (i := i) (s := s) (by simp [State.running_of_idle hb])
  rw [e, State.accept_halted f hh]

theorem exec_idle_faulted (i : Instr) {s : State} (hh : s.halt = false) (ha : s.abort = false)
    (hb : s.busy = false) (hf : s.fault = true) : exec i s = .next s.refuseFaulted := by
  obtain ⟨f, e, -⟩ := exec_eq_accept (i := i) (s := s) (by simp [State.running_of_idle hb])
  rw [e, State.accept_faulted f hh ha hb hf]

/-- A write to `CMD` of a halted block changes nothing, whatever the value. -/
theorem State.portWrite_cmd_halted {s : State} (c : Byte) (hh : s.halt = true) :
    (s.portWrite cmdReg c).outcome = .next s := by
  rw [State.portWrite, if_pos rfl, State.writeCmd]
  split
  · rfl
  next hb =>
    cases decodeByte c with
    | none => exact State.accept_halted (fun s => .next s.raiseIllegal) hh
    | some i => exact exec_idle_halted i (Bool.not_eq_true _ ▸ hb) hh

/-- A write to `CMD` of a faulted idle block is answered IO_ERROR, whatever the value. -/
theorem State.portWrite_cmd_faulted {s : State} (c : Byte) (hh : s.halt = false) (ha : s.abort = false)
    (hb : s.busy = false) (hf : s.fault = true) :
    (s.portWrite cmdReg c).outcome = .next s.refuseFaulted := by
  rw [State.portWrite, if_pos rfl, State.writeCmd, if_neg (by simp [hb])]
  cases decodeByte c with
  | none => exact State.accept_faulted (fun s => .next s.raiseIllegal) hh ha hb hf
  | some i => exact exec_idle_faulted i hh ha hb hf

/-- With `HALT = 1` a command does nothing but count an attempt, which needs no call (10 R30). -/
theorem exec_halted {i : Instr} {s t : State} (hh : s.halt = true) (h : exec i s = .next t) :
    t.chan = s.chan ∧ t.halt = true ∧ (t.busy = true → s.busy = true) := by
  have hNotReady : ¬ s.Ready := by rintro ⟨h1, -⟩; simp [hh] at h1
  have hNot : s.halt ≠ false := by simp [hh]
  cases exec_outcome h with
  | unchanged _ e => simp [e, hh]
  | counted _ _ _ _ _ e | exhausted _ _ _ _ _ e => simp [e, hh]
  | waits _ _ _ hp | bannerWait _ _ _ hp | silenceWait _ _ _ hp =>
    obtain ⟨-, hSame, -⟩ := hp.flags (by simp) (by simp)
    simp [hSame hh, hh]
  | _ => contradiction

/-- Settles O17: a halted block answers every write to `CMD` with nothing, and a step is an outside
move, a reset, or a command that does no more than count an attempt. -/
theorem haltStopsTheBlock : Obligations.HaltStopsTheBlock := by
  intro s hh
  refine ⟨fun c rest hi => ?ignored, fun t h => ?kept⟩
  case ignored =>
    have hd : s.abortDue = false := State.abortDue_eq_false_of_halted fun _ => hh
    rw [step_of_write hd hi, State.portWrite_cmd_halted (s := s.clearPulse.withInputs rest) c hh]
    rfl
  case kept =>
    cases step_kind h with
    | reset es hi e =>
      rw [e, State.blockReset_calls]
      exact ⟨rfl, nofun, by simp [hi]⟩
    | abort _ hd _ => simp [State.abortDue, hh] at hd
    | command i es h _ _ hx =>
      obtain ⟨hChan, hHalt, hBusy⟩ :=
        exec_halted (s := (s.clearPulse.withInputs es).withHost h) hh hx
      exact ⟨by rw [hChan]; rfl, hBusy, fun _ => hHalt⟩
    | other h => exact ⟨h.calls, fun hb => h.busy ▸ hb, fun _ => h.halt.trans hh⟩

/-- No command clears `FAULT`, and none writes `HALT` but to take an asserted `abort`. -/
theorem exec_flags {i : Instr} {s t : State} (h : exec i s = .next t) :
    (s.abort = false → t.halt = s.halt) ∧ (s.fault = true → t.fault = true) := by
  cases exec_outcome h with
  | waits _ _ _ hp | bannerWait _ _ _ hp | silenceWait _ _ _ hp =>
    obtain ⟨hHalt, -, hFault⟩ := hp.flags (by simp) (by simp)
    exact ⟨hHalt, hFault⟩
  | abortIdle _ ha _ e | aborted _ _ ha e => simp [e, ha]
  | _ =>
    rename_i e
    simp [e]

/-- Settles O18: the priority chain answers the write, no command and no other move clears `FAULT`,
and the abort between commands leaves it. -/
theorem faultIsSticky : Obligations.FaultIsSticky := by
  intro s hf
  refine ⟨fun c rest hh ha hb hi => ?refused, fun t h hi => ?kept, fun hh ha hb hi => ?aborts⟩
  case refused =>
    rw [step_of_write (State.abortDue_eq_false ha) hi,
      State.portWrite_cmd_faulted (s := s.clearPulse.withInputs rest) c hh ha hb hf]
    rfl
  case kept =>
    cases step_kind h with
    | reset es hi' _ => simp [hi'] at hi
    | abort _ _ e => simpa [e] using hf
    | command i es h _ _ hx =>
      obtain ⟨-, hFault⟩ := exec_flags hx
      exact hFault hf
    | other h => exact h.fault.trans hf
  case aborts => exact abortBetweenCommands s ha hh hb hi

/-- Settles O45: no abort is due, and every command written is refused or ignored. -/
theorem faultStopsChannelAndStarts : Obligations.FaultStopsChannelAndStarts := by
  intro s t h hf hb ha
  cases step_kind h with
  | reset es _ e =>
    rw [e, State.blockReset_calls]
    exact ⟨rfl, rfl⟩
  | abort _ hd _ => simp [State.abortDue, ha] at hd
  | command i es h _ _ hx =>
    cases hh : s.halt with
    | true =>
      rw [exec_idle_halted (s := (s.clearPulse.withInputs es).withHost h) i hb hh] at hx
      cases hx
      exact ⟨by simp, by simpa using hb⟩
    | false =>
      rw [exec_idle_faulted (s := (s.clearPulse.withInputs es).withHost h) i hh ha hb hf] at hx
      cases hx
      exact ⟨by simp, by simpa using hb⟩
  | other h => exact ⟨h.calls, h.busy.trans hb⟩

/-! ### The restart of an attempt and its pulse (42_handshake.md R181, log 19) -/

theorem State.restarts_iff {s t : State} {i : Instr} : s.restarts i t = true ↔
    s.running = some i ∧ (s.phase = .hsMatch ∨ s.phase = .hsQuiet) ∧ t.phase = .hsFlush := by
  simp [State.restarts, and_assoc]

theorem State.bannerMatched_phase_ne (s : State) : s.bannerMatched.phase ≠ .hsFlush := by
  by_cases h : s.idx = 5
  · simp [State.bannerMatched_last h]
  · simp [State.bannerMatched_next h]

/-- A step from `s` to `t` by command `i` pulses `retry_tick`, and the caller sees it, exactly if it
restarts an attempt. -/
def State.PulsesOnRestart (s : State) (i : Instr) (t : State) : Prop :=
  if s.restarts i t then t.host = s.host.seeRetry ∧ t.retryTick = true
  else t.host = s.host ∧ t.retryTick = s.retryTick

theorem State.pulses_of_restart {s t : State} {i : Instr} (hr : s.running = some i)
    (hp : s.phase = .hsMatch ∨ s.phase = .hsQuiet) (ht : t.phase = .hsFlush)
    (hHost : t.host = s.host.seeRetry) (hTick : t.retryTick = true) : s.PulsesOnRestart i t := by
  rw [State.PulsesOnRestart, if_pos (State.restarts_iff.mpr ⟨hr, hp, ht⟩)]
  exact ⟨hHost, hTick⟩

theorem State.pulses_of_no_restart {s t : State} {i : Instr}
    (h : s.phase ≠ .hsFlush → t.phase ≠ .hsFlush ∨ s.running ≠ some i ∨
      (s.phase ≠ .hsMatch ∧ s.phase ≠ .hsQuiet))
    (hHost : t.host = s.host) (hTick : t.retryTick = s.retryTick) : s.PulsesOnRestart i t := by
  have hNot : ¬ s.restarts i t = true := by
    rw [State.restarts_iff]
    rintro ⟨hr, hp, ht⟩
    have := h (by rcases hp with hp | hp <;> simp [hp])
    tauto
  rw [State.PulsesOnRestart, if_neg hNot]
  exact ⟨hHost, hTick⟩

theorem exec_pulses {i : Instr} {s t : State} (h : exec i s = .next t) : s.PulsesOnRestart i t := by
  cases exec_outcome h with
  | bannerWait _ hr hp hw =>
    cases hw with
    | spent _ _ _ _ e =>
      exact State.pulses_of_restart hr (.inl hp) (by simp [e]) (by simp [e]) (by simp [e])
    | matched _ _ _ _ _ e =>
      refine State.pulses_of_no_restart (fun _ => .inl ?_) (by simp [e]) (by simp [e])
      exact e ▸ State.bannerMatched_phase_ne _
    | halted _ e | aborted _ _ e | failed _ _ _ e | dropped _ _ _ _ _ e | ticked _ _ _ _ e =>
      exact State.pulses_of_no_restart (by simp [e, hp]) (by simp [e]) (by simp [e])
  | silenceWait _ hr hp hw =>
    cases hw with
    | matched _ _ _ _ _ e =>
      exact State.pulses_of_restart hr (.inr hp) (by simp [e]) (by simp [e]) (by simp [e])
    | spent _ _ _ _ e | halted _ e | aborted _ _ e | failed _ _ _ e | dropped _ _ _ _ _ e
    | ticked _ _ _ _ e =>
      exact State.pulses_of_no_restart (by simp [e, hp]) (by simp [e]) (by simp [e])
  | waits _ _ hp hw =>
    cases hw with
    | matched _ _ _ _ _ e | spent _ _ _ _ e | halted _ e | aborted _ _ e | failed _ _ _ e
    | dropped _ _ _ _ _ e | ticked _ _ _ _ e =>
      exact State.pulses_of_no_restart (by simp [hp]) (by simp [e]) (by simp [e])
  | startsHsinit _ hr e | startsHspost _ hr e =>
    exact State.pulses_of_no_restart (fun _ => .inr (.inl (hr.not_running i))) (by simp [e])
      (by simp [e])
  | _ =>
    rename_i e
    exact State.pulses_of_no_restart (by simp +contextual [e]) (by simp [e]) (by simp [e])

/-- Settles O35: a command pulses on a restart and nothing else does; the step takes the pulse back
before anything is looked at. -/
theorem retryTickMarksFailedAttempts : Obligations.RetryTickMarksFailedAttempts := by
  refine ⟨fun s t h => ?_, fun s v => rfl⟩
  cases step_kind h with
  | reset es _ e => simp [e, State.reset]
  | abort _ _ e => simp [e]
  | command i es h _ hr hx =>
    have hPulse := exec_pulses hx
    rw [State.PulsesOnRestart] at hPulse
    split at hPulse
    next hRestart =>
      obtain ⟨hRunning, hPhase, ht⟩ := State.restarts_iff.mp hRestart
      exact iff_of_true hPulse.2 ⟨State.busy_of_running hRunning, hPhase, ht⟩
    next hNot =>
      refine iff_of_false (by simp [hPulse.2]) fun ⟨hb, hPhase, ht⟩ => hNot (State.restarts_iff.mpr ?_)
      exact ⟨hr.resolve_right (by simp [hb]), hPhase, ht⟩
  | other h =>
    rw [h.retryTick, h.phase]
    refine iff_of_false (by decide) ?_
    rintro ⟨-, hp | hp, ht⟩ <;> simp [hp] at ht

/-! ### The frames of the channel and handshake commands (41_channel.md R156, 42_handshake.md R177,
R178) -/

/-- A turn that ends the command is an abort, a fault, or what follows the last TICK. -/
theorem PollOutcome.ended {s t : State} {onMatch onTimeout : State → State}
    (h : PollOutcome s t onMatch onTimeout) (hm : ∀ u : State, (onMatch u).busy = u.busy)
    (hb : s.busy = true) (hEnd : t.busy = false) :
    t.result = .aborted ∨ t.result = .ioError ∨
      t = onTimeout (s.withChan s.chan.poll.2).spendTick := by
  cases h with
  | aborted _ _ e => exact .inl (by simp [e, hb])
  | failed _ _ _ e => exact .inr (.inl (by simp [e]))
  | spent _ _ _ _ e => exact .inr (.inr e)
  | matched _ _ _ _ _ e => simp [e, hm, hb] at hEnd
  | halted _ e | dropped _ _ _ _ _ e | ticked _ _ _ _ e => simp [e, hb] at hEnd

/-- Settles O36: a wait of HSINIT times out into a restart or the OK end, and only HSPOST counts its
attempts. -/
theorem hsinitNeverTimesOut : Obligations.HsinitNeverTimesOut := by
  intro s t hr h hEnd
  have hb := State.busy_of_running hr
  cases exec_outcome h with
  | aborted _ _ _ e => exact .inr (.inr (by simp [e, hb]))
  | hsFlushFailed _ _ _ _ _ e | attnFailed _ _ _ _ _ _ e => exact .inr (.inl (by simp [e]))
  | bannerWait _ _ _ hw =>
    rcases hw.ended (by simp) hb hEnd with hAborted | hIo | e
    · exact .inr (.inr hAborted)
    · exact .inr (.inl hIo)
    · simp [e, hb] at hEnd
  | silenceWait _ _ _ hw =>
    rcases hw.ended (by simp) hb hEnd with hAborted | hIo | e
    · exact .inr (.inr hAborted)
    · exact .inr (.inl hIo)
    · exact .inl (by simp [e])
  | _ => simp_all

theorem mem_of_mem_keepBy {α : Type} {m : List Bool} {xs : List α} {x : α} (h : x ∈ keepBy m xs) :
    x ∈ xs := by
  induction m generalizing xs with
  | nil => simp [keepBy] at h
  | cons b m ih =>
    cases xs with
    | nil => cases b <;> simp [keepBy] at h
    | cons y ys =>
      cases b with
      | false => exact List.mem_cons_of_mem y (ih h)
      | true =>
        rcases List.mem_cons.mp h with rfl | h
        · exact List.mem_cons_self
        · exact List.mem_cons_of_mem y (ih h)

/-- A flush queues nothing new. -/
theorem Channel.mem_of_mem_flush_queued {c : Channel} {x : Byte} (h : x ∈ c.flush.2.queued) :
    x ∈ c.queued := by
  cases hd : c.flushDraw with
  | done => simp [Channel.flush_done hd] at h
  | fault keepUnread keepQueued =>
    simp only [Channel.flush, hd, Channel.setQueued_queued] at h
    exact mem_of_mem_keepBy h

/-- Settles O37: HSPOST only flushes and polls. -/
theorem hspostSendsNothing : Obligations.HspostSendsNothing := by
  intro s t h
  cases exec_channelOutcome h with
  | none e => simp [e]
  | flushed _ e =>
    simp only [e, Channel.flush_writeCalls, Channel.flush_drainCalls, Channel.flush_sent, true_and]
    exact fun x => Channel.mem_of_mem_flush_queued
  | polled _ e => simp [e]
  | tried _ hi _ => simp at hi
  | drained hi _ => cases hi

/-- Settles O38: the frame of every command, its flags, its calls and its pulse. -/
theorem handshakeCommandsFrame : Obligations.HandshakeCommandsFrame := by
  intro i s t hi h
  obtain ⟨hKeeps, hOutput⟩ := exec_keeps h
  obtain ⟨hHalt, -⟩ := exec_flags h
  have ⟨_, _, _, _, hAbort, hInputs⟩ := hKeeps
  have hSame : s.SameOutput t := hOutput.resolve_right (by rcases hi with rfl | rfl <;> simp)
  have hLine : t.chan.drainCalls = s.chan.drainCalls ∧ t.chan.sent = s.chan.sent := by
    cases exec_channelOutcome h with
    | none e | flushed _ e | polled _ e | tried _ _ e => simp [e]
    | drained hd _ => subst hd; simp at hi
  obtain ⟨hCalls, hSent⟩ := hLine
  exact ⟨hKeeps.sameOperands, hSame, hAbort, hInputs, hCalls, hSent, hHalt, exec_pulses h⟩

/-- The channel commands write no register of the handshake, and those without a wait none of the
waits'. -/
theorem exec_channel_sequencing {i : Instr} {s t : State}
    (hi : i = .await ∨ i = .awaitany ∨ i = .trywr ∨ i = .drain ∨ i = .flush) (h : exec i s = .next t) :
    (t.mode = s.mode ∧ t.att = s.att ∧ t.idx = s.idx) ∧
    (i = .trywr ∨ i = .drain ∨ i = .flush → t.tmr = s.tmr ∧ t.wild = s.wild ∧ t.expb = s.expb) := by
  cases exec_outcome h with
  | waits hw _ _ hp =>
    have hNoOther : ¬ (i = .trywr ∨ i = .drain ∨ i = .flush) := by rcases hw with rfl | rfl <;> simp
    cases hp <;> simp_all
  | bannerWait hj | silenceWait hj => exact absurd hi (by rcases hj with rfl | rfl <;> simp)
  | _ => simp_all

/-- Only a handshake waits in step 3 or step 4. -/
theorem State.handshake_of_restarts {s t : State} {i : Instr} (h : s.restarts i t = true) :
    i = .hsinit ∨ i = .hspost := by
  obtain ⟨hr, hp, -⟩ := State.restarts_iff.mp h
  have hPhase : s.phase.handshake = true := by rcases hp with hp | hp <;> rw [hp] <;> rfl
  have hMode := hr.symm.trans (State.running_of_handshake (State.busy_of_running hr) hPhase)
  cases hm : s.mode <;> simp [hm] at hMode <;> simp [hMode]

/-- With `abort` clear an await makes no call but polls, the other channel commands none. -/
theorem exec_channel_calls {i : Instr} {s t : State}
    (hi : i = .await ∨ i = .awaitany ∨ i = .trywr ∨ i = .drain ∨ i = .flush) (ha : s.abort = false)
    (h : exec i s = .next t) :
    (i = .await ∨ i = .awaitany → t.chan.queued = s.chan.queued ∧ t.chan.sent = s.chan.sent ∧
      t.chan.writeCalls = s.chan.writeCalls ∧ t.chan.drainCalls = s.chan.drainCalls ∧
      t.chan.flushCalls = s.chan.flushCalls) ∧
    (i = .trywr ∨ i = .drain ∨ i = .flush → t.chan.pollCalls = s.chan.pollCalls) := by
  cases exec_channelOutcome h with
  | none e => simp [e]
  | flushed hj e =>
    refine ⟨?_, by simp [e]⟩
    rintro (rfl | rfl) <;> simp [ha] at hj
  | polled hj e =>
    refine ⟨by simp [e], ?_⟩
    rintro (rfl | rfl | rfl) <;> simp at hj
  | tried b hj e =>
    refine ⟨?_, by simp [e]⟩
    rintro (rfl | rfl) <;> simp at hj
  | drained hj e => simp [hj, e]

/-- Settles O27: the frame of every command, its flags, its calls and its sequencing. -/
theorem channelCommandsFrame : Obligations.ChannelCommandsFrame := by
  intro i s t hi h
  obtain ⟨hKeeps, hOutput⟩ := exec_keeps h
  obtain ⟨hHalt, -⟩ := exec_flags h
  obtain ⟨⟨hMode, hAtt, hIdx⟩, hWaits⟩ := exec_channel_sequencing hi h
  have ⟨_, _, _, _, hAbort, hInputs⟩ := hKeeps
  have hSame : s.SameOutput t :=
    hOutput.resolve_right (by rcases hi with rfl | rfl | rfl | rfl | rfl <;> simp)
  have hNoRestart : ¬ s.restarts i t = true := fun hRestart => by
    rcases State.handshake_of_restarts hRestart with rfl | rfl <;> simp at hi
  have hPulse := exec_pulses h
  rw [State.PulsesOnRestart, if_neg hNoRestart] at hPulse
  obtain ⟨hHost, hTick⟩ := hPulse
  refine ⟨hKeeps.sameOperands, hSame, ⟨hAbort, hInputs, hHost⟩, hMode, hAtt, hIdx, hTick, fun ha => ?_⟩
  obtain ⟨hAwait, hOther⟩ := exec_channel_calls hi ha h
  exact ⟨hHalt ha, hAwait, fun hj => ⟨hOther hj, hWaits hj⟩⟩

end Sys2Proof.Machine

namespace Sys2Proof.Machine

/-! ### The machine invariant, in its parts (10_state.md sections 3 to 5) -/

/-- The part of the invariant that speaks of the buffers. -/
def State.BufferInv (s : State) : Prop :=
  Memory.wf s.dbuf = true ∧ s.olen.toNat = s.obuf.length ∧ legalLength s.obuf.length ∧
    ∀ x ∈ s.obuf, wireSymbol x = true

/-- The part of the invariant that speaks of the waits and the handshakes of a running command. -/
structure State.SequencingInv (s : State) : Prop where
  budget : s.phase.waiting = true → 1 ≤ s.tmr ∧ s.tmr ≤ Config.tTicks
  matchSelector : s.phase = .hsMatch → s.wild = false ∧ s.expb = bannerByte s.idx
  quietSelector : s.phase = .hsQuiet → s.wild = true
  initialAtt : s.phase.handshake = true → s.mode = .initial → s.att = 0
  postloadAtt : s.phase.handshake = true → s.att.toNat ≤ Config.postloadAttempts
  countedAttempt : (s.phase = .hsMatch ∨ s.phase = .hsQuiet) → s.mode = .postload → 1 ≤ s.att.toNat

theorem State.Inv.bufferInv {s : State} (h : s.Inv) : s.BufferInv :=
  ⟨h.dbufWf, h.olenIsLength, h.lengthLegal, h.obufClean⟩

theorem State.Inv.sequencingInv {s : State} (h : s.Inv) : s.SequencingInv :=
  ⟨h.budget, h.matchSelector, h.quietSelector, h.initialAtt, h.postloadAtt, h.countedAttempt⟩

/-- An idle block: nothing is asked of the waits and the handshakes. -/
theorem State.inv_of_idle {t : State} (hBuf : t.BufferInv) (hb : t.busy = false) (hp : t.phase = .idle)
    (hf : t.fault = true → t.result = .ioError) (hAtt : t.att.toNat ≤ Config.postloadAttempts + 1)
    (ht : t.retryTick = false) : t.Inv := by
  obtain ⟨hWf, hLength, hLegal, hClean⟩ := hBuf
  exact {
    dbufWf := hWf
    olenIsLength := hLength
    lengthLegal := hLegal
    obufClean := hClean
    busyIffPhase := by simp [hb, hp]
    noEncodePhase := by simp [hp]
    busyClean := by simp [hb]
    faultResult := hf
    attBound := hAtt
    budget := by simp [hp, Phase.waiting]
    matchSelector := by simp [hp]
    quietSelector := by simp [hp]
    initialAtt := by simp [hp, Phase.handshake]
    postloadAtt := by simp [hp, Phase.handshake]
    countedAttempt := by simp [hp]
    pulseRestarts := by simp [ht] }

/-- A running command: no fault and no halt, and the sequencing is sound. -/
theorem State.inv_of_busy {t : State} (hBuf : t.BufferInv) (hb : t.busy = true)
    (hp : t.phase ≠ .idle ∧ t.phase ≠ .encode) (hClean : t.fault = false ∧ t.halt = false)
    (hAtt : t.att.toNat ≤ Config.postloadAttempts + 1) (hSeq : t.SequencingInv)
    (ht : t.retryTick = true → t.phase = .hsFlush) : t.Inv := by
  obtain ⟨hWf, hLength, hLegal, hSymbols⟩ := hBuf
  obtain ⟨hBudget, hMatch, hQuiet, hInitial, hPostload, hCounted⟩ := hSeq
  exact {
    dbufWf := hWf
    olenIsLength := hLength
    lengthLegal := hLegal
    obufClean := hSymbols
    busyIffPhase := by simp [hb, hp]
    noEncodePhase := hp.2
    busyClean := fun _ => hClean
    faultResult := by simp [hClean]
    attBound := hAtt
    budget := hBudget
    matchSelector := hMatch
    quietSelector := hQuiet
    initialAtt := hInitial
    postloadAtt := hPostload
    countedAttempt := hCounted
    pulseRestarts := ht }

/-- No command spoils the buffers: only an encode command writes, and it writes a record. -/
theorem exec_bufferInv {i : Instr} {s t : State} (hInv : s.Inv) (h : exec i s = .next t) :
    t.BufferInv := by
  obtain ⟨⟨-, -, -, hData, -⟩, hOutput⟩ := exec_keeps h
  rcases hOutput with ⟨hObuf, hOlen⟩ | ⟨hi, hOk, hLength⟩
  · rw [State.BufferInv, hData, hObuf, hOlen]
    exact hInv.bufferInv
  · refine ⟨hData ▸ hInv.dbufWf, hLength, ?_⟩
    rcases exec_encode_outcome hi h with ⟨-, rfl | ⟨-, rfl⟩ | rfl⟩ | rfl | ⟨w, hClean, hLegal, rfl⟩
    · exact ⟨hInv.lengthLegal, hInv.obufClean⟩
    · exact ⟨hInv.lengthLegal, hInv.obufClean⟩
    · exact ⟨hInv.lengthLegal, hInv.obufClean⟩
    · exact ⟨hInv.lengthLegal, hInv.obufClean⟩
    · exact ⟨hLegal, hClean⟩

theorem tTicks_pos : 1 ≤ Config.tTicks := Nat.le_add_left 1 _

/-- With an attempt to spare the 4-bit count does not wrap (10 R32). -/
theorem State.countAttempt_att_toNat {s : State} (h : s.att.toNat ≤ Config.postloadAttempts) :
    s.countAttempt.att.toNat = s.att.toNat + 1 := by
  have hOne : (1 : BitVec 4).toNat = 1 := rfl
  rw [State.countAttempt_att, BitVec.toNat_add, hOne]
  simp only [Config.postloadAttempts] at h
  omega

/-- After the sixth banner byte step 4 waits for any byte, before it step 3 for the next. -/
theorem State.bannerMatched_sequencing {s : State} (h : s.SequencingInv) (hp : s.phase = .hsMatch) :
    s.bannerMatched.SequencingInv ∧
      s.bannerMatched.phase ≠ .idle ∧ s.bannerMatched.phase ≠ .encode := by
  have hT := tTicks_pos
  have hInitial := h.initialAtt (by rw [hp]; rfl)
  have hPostload := h.postloadAtt (by rw [hp]; rfl)
  have hCounted := h.countedAttempt (.inl hp)
  by_cases hLast : s.idx = 5
  · rw [State.bannerMatched_last hLast]
    refine ⟨?_, by simp, by simp⟩
    constructor <;> simp_all
  · rw [State.bannerMatched_next hLast]
    refine ⟨?_, by simp, by simp⟩
    constructor <;> simp_all

theorem State.Inv.busy_of_phase {s : State} (h : s.Inv) (hp : s.phase ≠ .idle) : s.busy = true :=
  h.busyIffPhase.mpr hp

/-- Steps 1 and 2 of an attempt ask nothing of the waits. -/
theorem State.sequencing_of_early {s : State} (hp : s.phase = .hsFlush ∨ s.phase = .hsAttn)
    (hInitial : s.mode = .initial → s.att = 0) (hPostload : s.att.toNat ≤ Config.postloadAttempts) :
    s.SequencingInv := by
  rcases hp with hp | hp <;> constructor <;> simp_all [Phase.waiting]

/-- What the budget of a wait allows: a TICK that is not its last leaves some of it. -/
theorem State.spendTick_sequencing {s : State} (h : s.SequencingInv) (hw : s.phase.waiting = true)
    (hLeft : 1 < s.tmr) : s.spendTick.SequencingInv := by
  obtain ⟨hBudget, hMatch, hQuiet, hInitial, hPostload, hCounted⟩ := h
  have := hBudget hw
  have hSpent : 1 ≤ s.tmr - 1 ∧ s.tmr - 1 ≤ Config.tTicks := by omega
  exact ⟨fun _ => hSpent, hMatch, hQuiet, hInitial, hPostload, hCounted⟩

theorem State.withChan_sequencing {s : State} (h : s.SequencingInv) (c : Channel) :
    (s.withChan c).SequencingInv := by
  obtain ⟨hBudget, hMatch, hQuiet, hInitial, hPostload, hCounted⟩ := h
  exact ⟨hBudget, hMatch, hQuiet, hInitial, hPostload, hCounted⟩

/-! ### Every command keeps the invariant -/

section ExecInv

variable {s t : State}

/-- The command ends, or is ended: the block is idle, and a fault it has shows. -/
theorem State.Inv.ended (h : s.Inv) (hBuf : t.BufferInv) (hb : t.busy = false) (hp : t.phase = .idle)
    (hf : t.fault = true → t.result = .ioError) (hAtt : t.att = s.att) (ht : t.retryTick = false) :
    t.Inv :=
  State.inv_of_idle hBuf hb hp hf (hAtt ▸ h.attBound) ht

/-- The command goes on in a phase of its own: nothing but its sequencing is new. -/
theorem State.Inv.goesOn (h : s.Inv) (hBuf : t.BufferInv) (hb : s.busy = true) (hb' : t.busy = s.busy)
    (hClean : t.fault = s.fault ∧ t.halt = s.halt) (hp : t.phase ≠ .idle ∧ t.phase ≠ .encode)
    (hAtt : t.att = s.att) (hSeq : t.SequencingInv) (ht : t.retryTick = true → t.phase = .hsFlush) :
    t.Inv := by
  obtain ⟨hFault, hHalt⟩ := h.busyClean hb
  exact State.inv_of_busy hBuf (hb'.trans hb) hp ⟨hClean.1.trans hFault, hClean.2.trans hHalt⟩
    (hAtt ▸ h.attBound) hSeq ht

/-- A ready block starts a command. -/
theorem State.inv_of_started (hBuf : t.BufferInv) (hr : s.Ready) (hb : t.busy = true)
    (hClean : t.fault = s.fault ∧ t.halt = s.halt) (hp : t.phase ≠ .idle ∧ t.phase ≠ .encode)
    (hAtt : t.att.toNat ≤ Config.postloadAttempts + 1) (hSeq : t.SequencingInv)
    (ht : t.retryTick = false) : t.Inv := by
  obtain ⟨hHalt, -, -, hFault⟩ := hr
  exact State.inv_of_busy hBuf hb hp ⟨hClean.1.trans hFault, hClean.2.trans hHalt⟩ hAtt hSeq
    (by simp [ht])

/-- A turn of a wait keeps the invariant if the ends of the wait do. -/
theorem PollOutcome.inv {onMatch onTimeout : State → State} (h : PollOutcome s t onMatch onTimeout)
    (hInv : s.Inv) (hBuf : t.BufferInv) (hw : s.phase.waiting = true) (ht : s.retryTick = false)
    (hm : t = onMatch (s.withChan s.chan.poll.2) → t.Inv)
    (ho : t = onTimeout (s.withChan s.chan.poll.2).spendTick → t.Inv) : t.Inv := by
  have hNotIdle : s.phase ≠ .idle := fun hp => by simp [hp, Phase.waiting] at hw
  have hPhase : s.phase ≠ .idle ∧ s.phase ≠ .encode := ⟨hNotIdle, hInv.noEncodePhase⟩
  have hb : s.busy = true := hInv.busy_of_phase hNotIdle
  have hFault : s.fault = false := (hInv.busyClean hb).1
  have hSeq := State.withChan_sequencing hInv.sequencingInv s.chan.poll.2
  cases h with
  | halted _ e => exact e ▸ hInv
  | aborted _ _ e | failed _ _ _ e => subst e; exact hInv.ended hBuf rfl rfl (by simp [hFault]) rfl ht
  | matched _ _ _ _ _ e => exact hm e
  | spent _ _ _ _ e => exact ho e
  | dropped _ _ _ _ _ e =>
    subst e
    exact hInv.goesOn hBuf hb rfl ⟨rfl, rfl⟩ hPhase rfl hSeq (by simp [ht])
  | ticked _ _ _ hLeft e =>
    subst e
    exact hInv.goesOn hBuf hb rfl ⟨rfl, rfl⟩ hPhase rfl (State.spendTick_sequencing hSeq hw hLeft)
      (by simp [ht])

/-- In front of step 3 the wait for `BANNER[0]` is loaded (42 R175). -/
theorem State.enterMatch_sequencing (hInitial : s.mode = .initial → s.att = 0)
    (hPostload : s.att.toNat ≤ Config.postloadAttempts)
    (hCounted : s.mode = .postload → 1 ≤ s.att.toNat) :
    s.enterMatch.SequencingInv := by
  have hT := tTicks_pos
  constructor <;> simp_all

/-- Every command keeps the invariant, from a state whose pulse has been taken back. -/
theorem exec_inv {i : Instr} (hInv : s.Inv) (ht : s.retryTick = false) (h : exec i s = .next t) :
    t.Inv := by
  have hBuf := exec_bufferInv hInv h
  have hT := tTicks_pos
  have hSeq := hInv.sequencingInv
  have hInitial := hSeq.initialAtt
  have hPostload := hSeq.postloadAtt
  have hNoFault (hr : s.running = some i) : s.fault = false :=
    (hInv.busyClean (State.busy_of_running hr)).1
  cases exec_outcome h with
  | unchanged _ e => exact e ▸ hInv
  | abortIdle _ _ hb e =>
    subst e
    exact hInv.ended hBuf rfl rfl (by simpa [hb] using hInv.faultResult) rfl ht
  | refused _ _ hb _ e =>
    subst e
    have hIdle : s.phase = .idle := by simpa [hb] using hInv.busyIffPhase
    exact hInv.ended hBuf hb hIdle (fun _ => rfl) rfl ht
  | encoded _ _ hr _ _ e | usage _ hr e =>
    obtain ⟨-, -, -, hFault⟩ := hr
    subst e
    exact hInv.ended hBuf rfl rfl (by simp [hFault]) rfl ht
  | startsAwait _ hr e | startsAwaitany _ hr e | startsTrywr _ hr e | startsDrain _ hr e
  | startsFlush _ hr e =>
    subst e
    refine State.inv_of_started hBuf hr rfl ⟨rfl, rfl⟩ (by simp) hInv.attBound ?_ ht
    constructor <;> simp [Phase.waiting, Phase.handshake, hT]
  | startsHsinit _ hr e | startsHspost _ hr e =>
    subst e
    exact State.inv_of_started hBuf hr rfl ⟨rfl, rfl⟩ (by simp) (by simp)
      (State.sequencing_of_early (.inl rfl) (fun _ => rfl) (Nat.zero_le _)) ht
  | aborted hr _ _ e | wrote _ _ hr _ _ _ e | writeFailed _ hr _ _ e | drained _ hr _ _ e
  | drainFailed _ hr _ _ e | flushed _ hr _ _ e | flushFailed _ hr _ _ e
  | hsFlushFailed _ hr _ _ _ e | attnFailed _ hr _ _ _ _ e =>
    subst e
    exact hInv.ended hBuf rfl rfl (by simp [hNoFault hr]) rfl ht
  | hsFlushed _ hr hp _ _ e =>
    subst e
    exact hInv.goesOn hBuf (State.busy_of_running hr) rfl ⟨rfl, rfl⟩ (by simp) rfl
      (State.sequencing_of_early (.inr rfl) (hInitial (hp ▸ rfl)) (hPostload (hp ▸ rfl)))
      (by simp [ht])
  | attnSent _ hr hp hm _ _ e =>
    subst e
    exact hInv.goesOn hBuf (State.busy_of_running hr) rfl ⟨rfl, rfl⟩ (by simp) rfl
      (State.enterMatch_sequencing (hInitial (hp ▸ rfl)) (hPostload (hp ▸ rfl)) (by simp [hm]))
      (by simp [ht])
  | counted _ hr hp hm hn e =>
    subst e
    have hb := State.busy_of_running hr
    have hAtt := State.countAttempt_att_toNat (hPostload (hp ▸ rfl))
    have hBound : s.countAttempt.att.toNat ≤ Config.postloadAttempts + 1 := Nat.le_succ_of_le hn
    have hCounted : 1 ≤ s.countAttempt.att.toNat := by omega
    exact State.inv_of_busy hBuf hb (by simp) (by simpa using hInv.busyClean hb) hBound
      (State.enterMatch_sequencing (by simp [hm]) hn fun _ => hCounted) (by simp [ht])
  | exhausted _ hr hp _ _ e =>
    subst e
    have hAtt := State.countAttempt_att_toNat (hPostload (hp ▸ rfl))
    have hBound : s.countAttempt.att.toNat ≤ Config.postloadAttempts + 1 := by
      rw [hAtt]
      exact Nat.succ_le_succ (hPostload (hp ▸ rfl))
    exact State.inv_of_idle hBuf rfl rfl (by simp [hNoFault hr]) hBound ht
  | waits _ hr hp hw =>
    refine hw.inv hInv hBuf (by rw [hp]; rfl) ht (fun e => ?_) (fun e => ?_) <;> subst e <;>
      exact hInv.ended hBuf rfl rfl (by simp [hNoFault hr]) rfl ht
  | bannerWait _ hr hp hw =>
    have hb := State.busy_of_running hr
    refine hw.inv hInv hBuf (by rw [hp]; rfl) ht (fun e => ?matched) (fun e => ?spent)
    case matched =>
      obtain ⟨hSeq', hPhase⟩ := State.bannerMatched_sequencing
        (State.withChan_sequencing hSeq s.chan.poll.2) hp
      subst e
      exact hInv.goesOn hBuf hb (by simp) (by simp) hPhase (by simp) hSeq' (by simp [ht])
    case spent =>
      subst e
      exact hInv.goesOn hBuf hb (by simp) (by simp) (by simp) (by simp)
        (State.sequencing_of_early (by simp) (by simpa using hInitial (hp ▸ rfl))
          (by simpa using hPostload (hp ▸ rfl))) (by simp)
  | silenceWait _ hr hp hw =>
    refine hw.inv hInv hBuf (by rw [hp]; rfl) ht (fun e => ?matched) (fun e => ?spent)
    case matched =>
      subst e
      exact hInv.goesOn hBuf (State.busy_of_running hr) (by simp) (by simp) (by simp) (by simp)
        (State.sequencing_of_early (by simp) (by simpa using hInitial (hp ▸ rfl))
          (by simpa using hPostload (hp ▸ rfl))) (by simp)
    case spent =>
      subst e
      exact hInv.ended hBuf rfl rfl (by simp [hNoFault hr]) rfl ht

end ExecInv

/-! ### Every step keeps the invariant -/

/-- Taking back the pulse, using up an event, and the host's own state do not matter to the
invariant. -/
theorem State.Inv.handed {s : State} (h : s.Inv) (es : List Input) (host : HostSide) :
    ((s.clearPulse.withInputs es).withHost host).Inv := by
  exact ⟨h.dbufWf, h.olenIsLength, h.lengthLegal, h.obufClean, h.busyIffPhase, h.noEncodePhase,
    h.busyClean,
    h.faultResult, h.attBound, h.budget, h.matchSelector, h.quietSelector, h.initialAtt, h.postloadAtt,
    h.countedAttempt, nofun⟩

/-- A move that is none of the block's own keeps the invariant. -/
theorem State.SameControl.inv {s t : State} (h : s.SameControl t) (hInv : s.Inv) : t.Inv := by
  obtain ⟨hPhase, hBusy, hFault, hHalt, ⟨hMode, hAtt, hIdx, hTmr, hWild, hExpb⟩, ⟨hObuf, hOlen⟩,
    hTick, -,
    hWf, hResult⟩ := h
  have hFaultResult : t.fault = true → t.result = .ioError := by
    intro hf
    rw [hFault] at hf
    rcases hResult with e | ⟨-, e⟩
    · exact e.trans (hInv.faultResult hf)
    · exact e hf
  obtain ⟨_, _, _, _, _, _, _, _, _, _, _, _, _, _, _, _⟩ := hInv
  constructor <;> simp_all

/-- Settles O49: the reset state is idle, with empty buffers. -/
theorem resetIsSound : Obligations.ResetIsSound :=
  State.inv_of_idle ⟨rfl, rfl, .inl rfl, by simp [State.reset]⟩ rfl rfl nofun (by decide) rfl

/-- The invariant of a reset block is that of the reset state. -/
theorem State.blockReset_inv (s : State) : s.blockReset.Inv :=
  State.inv_of_idle ⟨rfl, rfl, .inl rfl, by simp [State.reset]⟩ rfl rfl
    nofun (by simp [State.reset]) rfl

/-- Settles O48: a reset, an abort between commands, a command and every other move keep the
invariant. -/
theorem stepKeepsTheMachineSound : Obligations.StepKeepsTheMachineSound := by
  intro s t hInv h
  cases step_kind h with
  | reset es _ e => exact e ▸ State.blockReset_inv _
  | abort _ hd e =>
    have hb : s.busy = false := by
      simp only [State.abortDue, Bool.and_eq_true, Bool.not_eq_true'] at hd
      exact hd.2
    subst e
    exact State.inv_of_idle hInv.bufferInv rfl rfl (by simpa [hb] using hInv.faultResult)
      hInv.attBound rfl
  | command i es h _ _ hx => exact exec_inv (hInv.handed es h) rfl hx
  | other h => exact h.inv hInv

end Sys2Proof.Machine

namespace Sys2Proof.Machine

/-! ### Where a step can stop (93_implementation_defined.md U3, U4, logs 3, 4) -/

theorem State.accept_next {f : State → Result} (hf : ∀ u, ∃ t, f u = .next t) (s : State) :
    ∃ t, s.accept f = .next t := by
  rcases s.accept_cases f with ⟨-, e⟩ | ⟨-, -, -, e⟩ | ⟨-, -, e⟩ | ⟨-, -, -, -, e⟩ | ⟨-, e⟩
  · exact ⟨_, e⟩
  · exact ⟨_, e⟩
  · exact ⟨_, e⟩
  · exact ⟨_, e⟩
  · exact e ▸ hf s

theorem State.sampled_next {call : State → Result} (hf : ∀ u, ∃ t, call u = .next t) (s : State) :
    ∃ t, s.sampled call = .next t := by
  rcases s.sampled_cases call with ⟨-, e⟩ | ⟨-, -, e⟩ | ⟨-, -, e⟩
  · exact ⟨_, e⟩
  · exact ⟨_, e⟩
  · exact e ▸ hf s

theorem State.pollOnce_next (s : State) (onMatch onTimeout : State → State) :
    ∃ t, s.pollOnce onMatch onTimeout = .next t := by
  refine State.sampled_next (fun u => ?_) s
  dsimp only
  cases u.chan.poll.1 with
  | rxFault => exact ⟨_, rfl⟩
  | rx b => dsimp only; split <;> exact ⟨_, rfl⟩
  | tick => dsimp only; split <;> exact ⟨_, rfl⟩

theorem State.phase_of_handshake {s : State} {i : Instr} (hr : s.running = some i)
    (hi : i = .hsinit ∨ i = .hspost) : s.phase.handshake = true := by
  rw [State.running, if_pos (State.busy_of_running hr)] at hr
  cases hp : s.phase with
  | hsFlush | hsAttn | hsMatch | hsQuiet => rfl
  | idle | encode => simp [hp] at hr
  | wait => cases hw : s.wild <;> rcases hi with rfl | rfl <;> simp [hp, hw] at hr
  | write | draining | flushing => rcases hi with rfl | rfl <;> simp [hp] at hr

theorem State.hsStep_next {s : State} (hp : s.phase.handshake = true) : ∃ t, s.hsStep = .next t := by
  rw [State.hsStep]
  cases h : s.phase with
  | idle | encode | wait | write | draining | flushing => simp [h, Phase.handshake] at hp
  | hsFlush =>
    refine State.sampled_next (fun u => ?_) s
    dsimp only
    cases u.chan.flush.1 <;> exact ⟨_, rfl⟩
  | hsAttn =>
    cases s.mode with
    | initial =>
      refine State.sampled_next (fun u => ?_) s
      dsimp only
      cases (u.chan.tryWrite Config.attn).1 <;> exact ⟨_, rfl⟩
    | postload =>
      simp only [State.hsStepAttnPostload]
      split <;> exact ⟨_, rfl⟩
  | hsMatch => exact s.pollOnce_next _ _
  | hsQuiet => exact s.pollOnce_next _ _

/-- A running command always has a next step. -/
theorem exec_running_next {i : Instr} {s : State} (hr : s.running = some i) :
    ∃ t, exec i s = .next t := by
  obtain ⟨hEncd, hEnce, hEncx⟩ := s.running_not_encode
  cases i with
  | encd => exact absurd hr hEncd
  | ence => exact absurd hr hEnce
  | encx => exact absurd hr hEncx
  | await => exact exec_await_running hr ▸ s.pollOnce_next _ _
  | awaitany => exact exec_awaitany_running hr ▸ s.pollOnce_next _ _
  | trywr =>
    rw [exec_trywr_running hr]
    refine State.sampled_next (fun u => ?_) s
    dsimp only
    cases (u.chan.tryWrite u.b).1 <;> exact ⟨_, rfl⟩
  | drain =>
    rw [exec_drain_running hr]
    refine State.sampled_next (fun u => ?_) s
    dsimp only
    cases u.chan.drain.1 <;> exact ⟨_, rfl⟩
  | flush =>
    rw [exec_flush_running hr]
    refine State.sampled_next (fun u => ?_) s
    dsimp only
    cases u.chan.flush.1 <;> exact ⟨_, rfl⟩
  | hsinit =>
    rw [exec_handshake_running (.inl rfl) hr]
    exact State.hsStep_next (State.phase_of_handshake hr (.inl rfl))
  | hspost =>
    rw [exec_handshake_running (.inr rfl) hr]
    exact State.hsStep_next (State.phase_of_handshake hr (.inr rfl))

/-- The cell a range read stops at is one of the range, and holds no value. -/
theorem Memory.readRange_error_cell {m : List Host.Cell} {i n k : Nat}
    (h : Memory.readRange m i n = .error k) : k < i + n ∧ Memory.read m k = none := by
  induction n generalizing i with
  | zero => cases h
  | succ n ih =>
    rw [Memory.readRange] at h
    split at h
    next hNone =>
      cases h
      exact ⟨by omega, hNone⟩
    next =>
      split at h
      next => cases h
      next hRest =>
        cases h
        obtain ⟨hBound, hNone⟩ := ih hRest
        exact ⟨by omega, hNone⟩

/-- ENCD stops with a legal count at a cell below it that holds no value. -/
def State.StopsAtCell (s : State) (k : Nat) : Prop :=
  k < s.n.toNat ∧ s.n.toNat ≤ 24 ∧ s.dbufRead k = none

/-- A command written to an idle block has a next step, or it is ENCD and stops at a cell. -/
theorem exec_idle_next (i : Instr) {s : State} (hb : s.busy = false) :
    (∃ t, exec i s = .next t) ∨
      (i = .encd ∧ ∃ k, exec i s = .fault (.dbufUnwritten k) ∧ s.StopsAtCell k) := by
  by_cases hi : i = .encd
  · subst hi
    by_cases hr : s.Ready
    · by_cases hCount : s.countLegal = true
      · cases hData : s.dataBytes with
        | ok ds => exact .inl ⟨_, exec_encd_ok hr hCount hData⟩
        | error k =>
          obtain ⟨hBound, hNone⟩ := Memory.readRange_error_cell hData
          obtain ⟨-, hHigh⟩ := s.countLegal_iff.mp hCount
          exact .inr ⟨rfl, k, exec_encd_unwritten hr hCount hData, by omega, hHigh, hNone⟩
      · exact .inl ⟨_, exec_encd_usage hr hCount⟩
    · rw [exec, execEncd]
      rcases s.accept_cases _ with ⟨-, e⟩ | ⟨-, -, -, e⟩ | ⟨-, -, e⟩ | ⟨-, -, -, -, e⟩ | ⟨hReady, -⟩
      · exact .inl ⟨_, e⟩
      · exact .inl ⟨_, e⟩
      · exact .inl ⟨_, e⟩
      · exact .inl ⟨_, e⟩
      · exact absurd hReady hr
  · obtain ⟨f, e, hNext⟩ := exec_eq_accept (i := i) (s := s) (by simp [State.running_of_idle hb])
    exact .inl (e ▸ State.accept_next (hNext hi) s)

/-- A host write stops only as the write of ENCD. -/
theorem State.portWrite_next (s : State) (r : Nat) (v : Byte) :
    (∃ t, (s.portWrite r v).outcome = .next t) ∨
    (r = cmdReg ∧ v = 0x01 ∧ ∃ k, (s.portWrite r v).outcome = .fault (.dbufUnwritten k) ∧
      s.StopsAtCell k) := by
  rw [State.portWrite]
  by_cases hr : r = cmdReg
  · rw [if_pos hr, State.writeCmd]
    cases hb : s.busy with
    | true => exact .inl ⟨s, rfl⟩
    | false =>
      cases hc : decodeByte v with
      | none => exact .inl (State.accept_next (fun u => ⟨u.raiseIllegal, rfl⟩) s)
      | some i =>
        rcases exec_idle_next i hb with hNext | ⟨rfl, k, hFault, hCell⟩
        · exact .inl hNext
        · exact .inr ⟨hr, decodeByte_eq_some_iff.mp hc, k, hFault, hCell⟩
  · rw [if_neg hr]
    exact .inl ⟨_, rfl⟩

/-- A host read stops only for want of a value. -/
theorem State.portRead_next (s : State) (r : Nat) :
    (∃ t, s.portRead r = .next t) ∨
      (s.portRead r = .refused (.readNoValue r) ∧ s.regRead r = none) := by
  rw [State.portRead]
  cases h : s.regRead r with
  | some v => exact .inl ⟨_, rfl⟩
  | none => exact .inr ⟨rfl, rfl⟩

/-- A busy block that meets the invariant runs a command (no stray phase). -/
theorem State.Inv.running_of_busy {s : State} (h : s.Inv) (hb : s.busy = true) :
    ∃ i, s.running = some i := by
  have hIdle := h.busyIffPhase.mp hb
  have hEncode := h.noEncodePhase
  rw [State.running, if_pos hb]
  cases hp : s.phase with
  | idle => exact absurd hp hIdle
  | encode => exact absurd hp hEncode
  | wait => cases s.wild <;> exact ⟨_, rfl⟩
  | write | draining | flushing => exact ⟨_, rfl⟩
  | hsFlush | hsAttn | hsMatch | hsQuiet => cases s.mode <;> exact ⟨_, rfl⟩

/-- What the machine's own move can stop at: an operation of the software on an idle block. -/
theorem State.ownMove_next {s : State} (hInv : s.Inv) :
    (∃ t, s.ownMove.outcome = .next t) ∨
    (s.busy = false ∧ (∃ ops, s.host.prog = .set cmdReg 0x01 :: ops) ∧
      ∃ k, s.ownMove.outcome = .fault (.dbufUnwritten k) ∧ s.StopsAtCell k) ∨
    ∃ r, s.busy = false ∧ (∃ ops, s.host.prog = .rd r :: ops) ∧
      s.ownMove.outcome = .refused (.readNoValue r) ∧ s.regRead r = none := by
  cases hb : s.busy with
  | true =>
    obtain ⟨i, hr⟩ := hInv.running_of_busy hb
    rw [State.ownMove_of_running hr]
    exact .inl (exec_running_next hr)
  | false =>
    cases hp : s.host.prog with
    | nil =>
      simp only [State.ownMove, hb, hp]
      exact .inl ⟨s, rfl⟩
    | cons op ops =>
      rw [State.ownMove_of_prog hb hp]
      cases op with
      | set r v =>
        rcases State.portWrite_next (s.withHost (s.host.setProg ops)) r v with hNext |
          ⟨rfl, rfl, k, hFault, hCell⟩
        · exact .inl hNext
        · exact .inr (.inl ⟨rfl, ⟨ops, rfl⟩, k, hFault, hCell⟩)
      | rd r =>
        rcases State.portRead_next (s.withHost (s.host.setProg ops)) r with hNext | ⟨hRefused, hNone⟩
        · exact .inl hNext
        · exact .inr (.inr ⟨r, rfl, ⟨ops, rfl⟩, hRefused, hNone⟩)
      | _ => exact .inl ⟨_, rfl⟩

/-- The step of `s` has a next state, or stops as O50 says. -/
def State.StopsOnlyByName (s : State) : Prop :=
  (∃ t, step s = .next t) ∨
  (∃ k, step s = .fault (.dbufUnwritten k) ∧ s.hostWrites cmdReg 0x01 ∧ s.StopsAtCell k) ∨
  ∃ r, step s = .refused (.readNoValue r) ∧ s.hostReads r ∧ s.regRead r = none

theorem State.stopsOnlyByName_of_ownMove {s : State} {es : List Input} (hInv : s.Inv)
    (hes : s.inputs = [] ∨ ∃ rest, s.inputs = .run :: rest)
    (hStep : step s = (s.clearPulse.withInputs es).ownMove.outcome) : s.StopsOnlyByName := by
  have hInv' : (s.clearPulse.withInputs es).Inv := hInv.handed es s.host
  rw [State.StopsOnlyByName, hStep]
  rcases State.ownMove_next hInv' with hNext | ⟨hb, hp, k, hFault, hCell⟩ |
    ⟨r, hb, hp, hRefused, hNone⟩
  · exact .inl hNext
  · exact .inr (.inl ⟨k, hFault, .inr ⟨hes, hb, hp⟩, hCell⟩)
  · exact .inr (.inr ⟨r, hRefused, .inr ⟨hes, hb, hp⟩, hNone⟩)

/-- Settles O50: event by event; only a write to `CMD`, a read, and the machine's own move can stop. -/
theorem stepStopsOnlyByName : Obligations.StepStopsOnlyByName := by
  intro s hInv
  by_cases hReset : s.inputs.head? = some .reset
  · obtain ⟨rest, hi⟩ := List.head?_eq_some_iff.mp hReset
    exact .inl ⟨_, step_of_reset hi⟩
  cases hd : s.abortDue with
  | true => exact .inl ⟨_, step_of_abortDue hd hReset⟩
  | false =>
    cases hi : s.inputs with
    | nil => exact State.stopsOnlyByName_of_ownMove hInv (.inl hi) (step_of_no_input hd hi)
    | cons ev rest =>
      cases ev with
      | reset => simp [hi] at hReset
      | run => exact State.stopsOnlyByName_of_ownMove hInv (.inr ⟨rest, hi⟩) (step_of_run hd hi)
      | write r v =>
        rw [step_of_write hd hi]
        rcases State.portWrite_next (s.clearPulse.withInputs rest) r v with hNext |
          ⟨rfl, rfl, k, hFault, hCell⟩
        · exact .inl hNext
        · exact .inr (.inl ⟨k, hFault, .inl ⟨rest, hi⟩, hCell⟩)
      | read r =>
        rw [step_of_read hd hi]
        rcases State.portRead_next (s.clearPulse.withInputs rest) r with hNext | ⟨hRefused, hNone⟩
        · exact .inl hNext
        · exact .inr (.inr ⟨r, hRefused, .inl ⟨rest, hi⟩, hNone⟩)
      | abort | arrive | lose | lineSend | launch =>
        rw [step_of_input hd hi (by simp)]
        exact .inl ⟨_, rfl⟩

/-! ### The TICKs a post-load handshake can still consume (42_handshake.md R183) -/

/-- The TICKs of the attempts after the one in progress. -/
def State.laterTicks (s : State) : Nat :=
  (Config.postloadAttempts - s.att.toNat) * (7 * Config.tTicks - 6)

theorem State.tickBudget_early {s : State} (hp : s.phase = .hsFlush ∨ s.phase = .hsAttn) :
    s.tickBudget = s.laterTicks := by
  rcases hp with hp | hp <;> rw [State.tickBudget, hp] <;> rfl

theorem State.tickBudget_match {s : State} (hp : s.phase = .hsMatch) :
    s.tickBudget = (s.tmr - 1) + (5 - s.idx.val) * (Config.tTicks - 1) + Config.tTicks +
      s.laterTicks := by
  rw [State.tickBudget, hp]
  rfl

theorem State.tickBudget_quiet {s : State} (hp : s.phase = .hsQuiet) :
    s.tickBudget = s.tmr + s.laterTicks := by
  rw [State.tickBudget, hp]
  rfl

theorem State.tickBudget_idle {s : State} (hp : s.phase = .idle) : s.tickBudget = 0 := by
  rw [State.tickBudget, hp]

theorem State.laterTicks_congr {s t : State} (h : t.att = s.att) : t.laterTicks = s.laterTicks := by
  rw [State.laterTicks, State.laterTicks, h]

/-- An attempt that is counted takes its own TICKs from those of the attempts to come. -/
theorem State.laterTicks_countAttempt {s t : State}
    (h : s.countAttempt.att.toNat ≤ Config.postloadAttempts)
    (hs : s.att.toNat ≤ Config.postloadAttempts) (ht : t.att = s.countAttempt.att) :
    t.laterTicks + (7 * Config.tTicks - 6) = s.laterTicks := by
  have hAtt := State.countAttempt_att_toNat hs
  rw [State.laterTicks, State.laterTicks, ht, hAtt]
  rw [hAtt] at h
  have hSplit : Config.postloadAttempts - s.att.toNat
      = Config.postloadAttempts - (s.att.toNat + 1) + 1 := by omega
  rw [hSplit, Nat.add_mul, Nat.one_mul]

/-- A banner byte that matches moves on: the waits of the bytes before are no longer to come. -/
theorem State.tickBudget_bannerMatched {s : State} (hp : s.phase = .hsMatch) :
    s.bannerMatched.tickBudget ≤ s.tickBudget := by
  have hLater := State.laterTicks_congr (State.bannerMatched_att s)
  rw [State.tickBudget_match hp]
  by_cases hLast : s.idx = 5
  · rw [State.tickBudget_quiet (by rw [State.bannerMatched_last hLast]; rfl),
      State.bannerMatched_tmr, hLater]
    omega
  · have hIdx : s.idx.val < 5 := by omega
    have hNext : s.bannerMatched.idx.val = s.idx.val + 1 := by
      rw [State.bannerMatched_next hLast, State.atBanner_idx, Fin.val_add_one_of_lt]
      exact Fin.lt_def.mpr hIdx
    rw [State.tickBudget_match (by rw [State.bannerMatched_next hLast]; rfl),
      State.bannerMatched_tmr, hLater, hNext]
    have hSplit : 5 - s.idx.val = 5 - (s.idx.val + 1) + 1 := by omega
    rw [hSplit, Nat.add_mul]
    omega

/-- A turn of the wait of step 3. -/
theorem State.tickBudget_bannerWait {s t : State} (hHalt : s.halt = false) (ha : s.abort = false)
    (hp : s.phase = .hsMatch) (h : PollOutcome s t State.bannerMatched State.retry) :
    t.tickBudget ≤ s.tickBudget ∧ (s.chan.poll.1 = .tick → t.tickBudget + 1 ≤ s.tickBudget) := by
  have hT := tTicks_pos
  cases h with
  | halted hh | aborted _ hh => simp_all
  | failed _ _ hPoll e =>
    rw [State.tickBudget_idle (by simp [e])]
    exact ⟨Nat.zero_le _, by simp [hPoll]⟩
  | matched _ _ _ hPoll _ e =>
    subst e
    exact ⟨State.tickBudget_bannerMatched (s := s.withChan s.chan.poll.2) hp, by simp [hPoll]⟩
  | dropped _ _ _ hPoll _ e =>
    subst e
    exact ⟨Nat.le_refl _, by simp [hPoll]⟩
  | spent _ _ _ _ e =>
    have hLater : t.laterTicks = s.laterTicks := State.laterTicks_congr (by simp [e])
    rw [State.tickBudget_early (.inl (by simp [e])), State.tickBudget_match hp, hLater]
    omega
  | ticked _ _ _ hLeft e =>
    have hLater : t.laterTicks = s.laterTicks := State.laterTicks_congr (by simp [e])
    have hTmr : t.tmr = s.tmr - 1 := by simp [e]
    have hIdx : t.idx = s.idx := by simp [e]
    rw [State.tickBudget_match (by simp [e, hp]), State.tickBudget_match hp, hLater, hTmr, hIdx]
    omega

/-- A turn of the wait of step 4. -/
theorem State.tickBudget_silenceWait {s t : State} (hHalt : s.halt = false) (ha : s.abort = false)
    (hp : s.phase = .hsQuiet) (hTmr : 1 ≤ s.tmr) (h : PollOutcome s t State.retry (·.finish .ok)) :
    t.tickBudget ≤ s.tickBudget ∧ (s.chan.poll.1 = .tick → t.tickBudget + 1 ≤ s.tickBudget) := by
  rw [State.tickBudget_quiet hp]
  cases h with
  | halted hh | aborted _ hh => simp_all
  | failed _ _ hPoll e =>
    rw [State.tickBudget_idle (by simp [e])]
    exact ⟨Nat.zero_le _, by simp [hPoll]⟩
  | matched _ _ _ hPoll _ e =>
    have hLater : t.laterTicks = s.laterTicks := State.laterTicks_congr (by simp [e])
    rw [State.tickBudget_early (.inl (by simp [e])), hLater]
    exact ⟨Nat.le_add_left _ _, by simp [hPoll]⟩
  | dropped _ _ _ hPoll _ e =>
    subst e
    exact ⟨(State.tickBudget_quiet (s := s.withChan s.chan.poll.2) hp).le, by simp [hPoll]⟩
  | spent _ _ _ _ e =>
    rw [State.tickBudget_idle (by simp [e])]
    omega
  | ticked _ _ _ hLeft e =>
    have hLater : t.laterTicks = s.laterTicks := State.laterTicks_congr (by simp [e])
    have hTmr' : t.tmr = s.tmr - 1 := by simp [e]
    rw [State.tickBudget_quiet (by simp [e, hp]), hLater, hTmr']
    omega

/-- Settles O42: the start has ten attempts to come; each step of an attempt keeps or lowers what is to
come, and each TICK is one of them. -/
theorem hspostTickBudgetBounds : Obligations.HspostTickBudgetBounds := by
  refine ⟨fun s t hReady h => ?start, fun s t hInv hr ha h => ?step⟩
  case start =>
    cases (exec_hspost_ready hReady).symm.trans h
    rfl
  case step =>
    have hb := State.busy_of_running hr
    have hHalt : s.halt = false := (hInv.busyClean hb).2
    cases exec_outcome h with
    | bannerWait _ _ hp hw =>
      obtain ⟨hLe, hTick⟩ := State.tickBudget_bannerWait hHalt ha hp hw
      exact ⟨hLe, fun _ => hTick⟩
    | silenceWait _ _ hp hw =>
      obtain ⟨hTmr, -⟩ := hInv.budget (by rw [hp]; rfl)
      obtain ⟨hLe, hTick⟩ := State.tickBudget_silenceWait hHalt ha hp hTmr hw
      exact ⟨hLe, fun _ => hTick⟩
    | hsFlushed _ _ hp _ _ e =>
      have hLater : t.laterTicks = s.laterTicks := State.laterTicks_congr (by simp [e])
      rw [State.tickBudget_early (.inl hp), State.tickBudget_early (.inr (by simp [e])), hLater]
      exact ⟨Nat.le_refl _, by simp [hp, Phase.waiting]⟩
    | hsFlushFailed _ _ hp _ _ e =>
      rw [State.tickBudget_idle (s := t) (by simp [e])]
      exact ⟨Nat.zero_le _, by simp [hp, Phase.waiting]⟩
    | exhausted _ _ hp _ _ e =>
      rw [State.tickBudget_idle (s := t) (by simp [e])]
      exact ⟨Nat.zero_le _, by simp [hp, Phase.waiting]⟩
    | counted _ _ hp _ hn e =>
      have hLater := State.laterTicks_countAttempt hn (hInv.postloadAtt (by rw [hp]; rfl)) (t := t)
        (by simp [e])
      have hTmr : t.tmr = Config.tTicks := by simp [e]
      have hIdx : t.idx = 0 := by simp [e]
      have hT := tTicks_pos
      rw [State.tickBudget_early (.inr hp), State.tickBudget_match (by simp [e]), hTmr, hIdx, ← hLater]
      refine ⟨?_, by simp [hp, Phase.waiting]⟩
      simp only [Fin.val_zero]
      omega
    | startsHspost _ hReady => exact absurd hr (hReady.not_running _)
    | _ => simp_all

end Sys2Proof.Machine

namespace Sys2Proof.Machine

/-! ### Polls in a row (20_memory.md R66, R70) -/

theorem Channel.afterPolls_poll (c : Channel) (k : Nat) :
    (c.afterPolls k).poll.2 = c.afterPolls (k + 1) := by
  induction k generalizing c with
  | zero => rfl
  | succ k ih => exact ih c.poll.2

theorem Channel.afterPolls_add (c : Channel) (j k : Nat) :
    (c.afterPolls j).afterPolls k = c.afterPolls (j + k) := by
  induction j generalizing c with
  | zero => rw [Nat.zero_add, Channel.afterPolls]
  | succ j ih =>
    rw [Nat.add_right_comm]
    exact ih c.poll.2

/-- From every channel a TICK comes: each silence before it delivers one of the unread bytes. -/
theorem Channel.tick_comes (c : Channel) : ∃ k, (c.afterPolls k).poll.1 = .tick := by
  induction hn : c.unread.length using Nat.strong_induction_on generalizing c with
  | _ n ih =>
    obtain ⟨k, hQuiet⟩ := c.quiet_comes
    rcases Channel.poll_quiet_cases hQuiet with hTick | hShorter
    · exact ⟨k, hTick⟩
    · have hLength := Channel.afterPolls_unread_length_le k c
      rw [Channel.afterPolls_poll] at hShorter
      obtain ⟨j, hTick⟩ := ih (c.afterPolls (k + 1)).unread.length (by omega) (c.afterPolls (k + 1))
        rfl
      rw [Channel.afterPolls_add] at hTick
      exact ⟨k + 1 + j, hTick⟩

/-- Settles O21: what each draw of a poll delivers, and the fairness of the free draws. -/
theorem pollDeliversInOrder : Obligations.PollDeliversInOrder := by
  refine ⟨fun c => ⟨fun b hb => ?delivers, fun hTick => ?tick, c.poll_queued, c.poll_sent,
    c.poll_pollCalls⟩,
    Channel.tick_comes⟩
  case delivers =>
    rcases c.poll_cases with ⟨new, x, rest, hd, hu, e⟩ | ⟨x, rest, hd, hu, e⟩ | ⟨-, -, e⟩ |
      ⟨keep, -, e⟩ <;>
      rw [e] at hb <;> cases hb
    · exact .inr ⟨new, hd, by simp [hu, e]⟩
    · exact .inl ⟨hd, by simp [hu, e]⟩
  case tick =>
    obtain ⟨hQuiet, hu⟩ := c.poll_tick_iff.mp hTick
    exact ⟨hu, by simp [Channel.poll_quiet hQuiet hu, hu]⟩

/-! ### The turns of a wait, with the whole next state (41_channel.md R150) -/

section Turns

variable {s : State} {onMatch onTimeout : State → State}

theorem State.pollOnce_matched {b : Byte} (hHalt : s.halt = false) (hAbort : s.abort = false)
    (hPoll : s.chan.poll.1 = .rx b) (hMatch : (s.wild || b == s.expb) = true) :
    s.pollOnce onMatch onTimeout = .next (onMatch (s.withChan s.chan.poll.2)) := by
  rw [State.pollOnce_rx hHalt hAbort hPoll, if_pos hMatch]

theorem State.pollOnce_dropped {b : Byte} (hHalt : s.halt = false) (hAbort : s.abort = false)
    (hPoll : s.chan.poll.1 = .rx b) (hMatch : ¬ (s.wild || b == s.expb) = true) :
    s.pollOnce onMatch onTimeout = .next { s with chan := s.chan.poll.2 } := by
  rw [State.pollOnce_rx hHalt hAbort hPoll, if_neg hMatch]
  rfl

theorem State.pollOnce_ticked (hHalt : s.halt = false) (hAbort : s.abort = false)
    (hPoll : s.chan.poll.1 = .tick) (hTmr : 1 < s.tmr) :
    s.pollOnce onMatch onTimeout = .next { s with chan := s.chan.poll.2, tmr := s.tmr - 1 } := by
  rw [State.pollOnce_tick hHalt hAbort hPoll, if_neg (by omega)]
  rfl

theorem State.pollOnce_spent (hHalt : s.halt = false) (hAbort : s.abort = false)
    (hPoll : s.chan.poll.1 = .tick) (hTmr : s.tmr = 1) :
    s.pollOnce onMatch onTimeout = .next (onTimeout { s with chan := s.chan.poll.2, tmr := 0 }) := by
  rw [State.pollOnce_tick hHalt hAbort hPoll, if_pos (by omega), State.spendTick,
    State.withChan_tmr, hTmr]
  rfl

end Turns

/-! ### Steps 2 to 4 of an attempt, answer by answer (42_handshake.md R174 to R176) -/

theorem State.hsStep_attn_postload {s : State} (hPhase : s.phase = .hsAttn)
    (hMode : s.mode = .postload) :
    s.hsStep = s.hsStepAttnPostload := by
  rw [State.hsStep, hPhase, hMode]

theorem State.hsStep_match {s : State} (hPhase : s.phase = .hsMatch) :
    s.hsStep = s.pollOnce State.bannerMatched State.retry := by
  rw [State.hsStep, hPhase]

theorem State.hsStep_quiet {s : State} (hPhase : s.phase = .hsQuiet) :
    s.hsStep = s.pollOnce State.retry (·.finish .ok) := by
  rw [State.hsStep, hPhase]

theorem State.hsStepAttnPostload_counted {s : State} (h : s.att.toNat ≤ 9) :
    s.hsStepAttnPostload = .next s.countAttempt.enterMatch := by
  have hAtt := State.countAttempt_att_toNat (s := s) (by simp only [Config.postloadAttempts]; omega)
  rw [State.hsStepAttnPostload, if_neg (by rw [hAtt]; simp only [Config.postloadAttempts]; omega)]

theorem State.hsStepAttnPostload_exhausted {s : State} (h : s.att = 10) :
    s.hsStepAttnPostload = .next (s.countAttempt.finish .timedOut) := by
  have hAtt : s.countAttempt.att = 11 := by rw [State.countAttempt_att, h]; rfl
  rw [State.hsStepAttnPostload, if_pos (by rw [hAtt]; decide)]

/-- Settles O32: step 2 of post-load mode counts, and compares the count with ten. -/
theorem handshakeCountsAttempts : Obligations.HandshakeCountsAttempts := by
  intro s hr _ hPhase
  have hMode : s.mode = .postload := (State.mode_of_handshake hr).2 rfl
  rw [exec_handshake_running (.inr rfl) hr, State.hsStep_attn_postload hPhase hMode]
  refine ⟨fun hLow => ?counted, fun hTen => ?exhausted⟩
  case counted =>
    rw [State.hsStepAttnPostload_counted hLow]
    rfl
  case exhausted =>
    rw [State.hsStepAttnPostload_exhausted hTen, State.countAttempt, hTen]
    rfl

/-- Before the sixth byte: the next byte of the banner is awaited with a fresh budget (R175). -/
theorem State.bannerMatched_eq_next {s : State} (hPhase : s.phase = .hsMatch) (hWild : s.wild = false)
    (h : s.idx.val < 5) : s.bannerMatched = { s with
      idx := ⟨s.idx.val + 1, by omega⟩
      expb := #v[(0x4B : Byte), 0x49, 0x4D, 0x0A, 0x20, 0x20][s.idx.val + 1]'(by omega)
      tmr := Config.tTicks } := by
  have hIdx : s.idx + 1 = ⟨s.idx.val + 1, by omega⟩ :=
    Fin.ext (Fin.val_add_one_of_lt (Fin.lt_def.mpr h))
  rw [State.bannerMatched_next (fun h5 => by simp [h5] at h), hIdx]
  simp only [State.loadExact, State.atBanner, hPhase, hWild]
  rfl

/-- Settles O33: the entry is the one of step 2; in step 3 the selector is exact, so a byte matches
exactly when it is `EXPB`. -/
theorem handshakeMatchesBanner : Obligations.HandshakeMatchesBanner := by
  refine ⟨fun i s t hi hRunning hPhase h hp => ?entry, ?turns⟩
  case entry =>
    obtain ⟨hr, hHalt, hAbort⟩ := hRunning
    have hNot : s.halt ≠ true := by simp [hHalt]
    cases exec_outcome h with
    | attnSent _ _ _ _ _ _ e | counted _ _ _ _ _ e =>
      subst e
      exact ⟨rfl, rfl, rfl, rfl⟩
    | _ => simp_all
  case turns =>
    rintro i s hi ⟨hr, hHalt, hAbort⟩ hPhase hWild
    rw [exec_handshake_running hi hr, State.hsStep_match hPhase]
    refine ⟨fun hPoll hIdx => ?next, fun hPoll hIdx => ?last, fun b hPoll hNe => ?dropped,
      State.pollOnce_ticked hHalt hAbort, fun hPoll hTmr => ?restarts, fun hPoll => ?fails⟩
    case next =>
      rw [State.pollOnce_matched hHalt hAbort hPoll (by simp),
        State.bannerMatched_eq_next (s := s.withChan s.chan.poll.2) hPhase hWild hIdx]
      rfl
    case last =>
      rw [State.pollOnce_matched hHalt hAbort hPoll (by simp),
        State.bannerMatched_last (s := s.withChan s.chan.poll.2) (Fin.ext hIdx)]
      rfl
    case dropped => exact State.pollOnce_dropped hHalt hAbort hPoll (by simp [hWild, hNe])
    case restarts =>
      rw [State.pollOnce_spent hHalt hAbort hPoll hTmr]
      rfl
    case fails =>
      rw [State.pollOnce_rxFault hHalt hAbort hPoll]
      rfl

/-- Settles O34: step 4 is entered by the sixth banner byte only; in it every byte matches. -/
theorem handshakeAwaitsSilence : Obligations.HandshakeAwaitsSilence := by
  refine ⟨fun i s t hi hRunning hPhase h hp => ?entry, ?turns⟩
  case entry =>
    obtain ⟨hr, hHalt, hAbort⟩ := hRunning
    rw [exec_handshake_running hi hr, State.hsStep_match hPhase] at h
    cases State.pollOnce_outcome h with
    | matched _ _ _ _ _ e =>
      subst e
      by_cases hLast : (s.withChan s.chan.poll.2).idx = 5
      · rw [State.bannerMatched_last hLast]
        exact ⟨rfl, rfl⟩
      · rw [State.bannerMatched_next hLast] at hp
        cases hp
    | halted _ e | aborted _ _ e | failed _ _ _ e | dropped _ _ _ _ _ e | ticked _ _ _ _ e
    | spent _ _ _ _ e => simp [e, hPhase] at hp
  case turns =>
    rintro i s hi ⟨hr, hHalt, hAbort⟩ hPhase hWild
    rw [exec_handshake_running hi hr, State.hsStep_quiet hPhase]
    refine ⟨fun b hPoll => ?restarts, State.pollOnce_ticked hHalt hAbort, fun hPoll hTmr => ?succeeds,
      fun hPoll => ?fails⟩
    case restarts =>
      rw [State.pollOnce_matched hHalt hAbort hPoll (by simp [hWild])]
      rfl
    case succeeds =>
      rw [State.pollOnce_spent hHalt hAbort hPoll hTmr]
      rfl
    case fails =>
      rw [State.pollOnce_rxFault hHalt hAbort hPoll]
      rfl

/-! ### `abort` in front of a call of a running command (60_exceptions.md R237) -/

/-- Every phase of a running handshake samples `abort`, but step 2 of post-load mode (log 11). -/
theorem State.hsStep_aborted {s : State} {i : Instr} (hi : i = .hsinit ∨ i = .hspost)
    (hr : s.running = some i) (hHalt : s.halt = false) (hAbort : s.abort = true)
    (hCall : ¬ (s.phase = .hsAttn ∧ s.mode = .postload)) :
    s.hsStep = .next { s with
      chan := s.chan.flush.2, halt := true, result := .aborted, busy := false, phase := .idle } := by
  have hPhase := State.phase_of_handshake hr hi
  cases hp : s.phase with
  | idle | encode | wait | write | draining | flushing => simp [hp, Phase.handshake] at hPhase
  | hsFlush => rw [State.hsStep_flush hp, State.hsStepFlush, State.sampled_aborted _ hr hHalt hAbort]
  | hsAttn =>
    cases hm : s.mode with
    | initial =>
      rw [State.hsStep_attn_initial hp hm, State.hsStepAttnInitial,
        State.sampled_aborted _ hr hHalt hAbort,
        hm]
    | postload => exact absurd ⟨hp, hm⟩ hCall
  | hsMatch => rw [State.hsStep_match hp, State.pollOnce, State.sampled_aborted _ hr hHalt hAbort]
  | hsQuiet => rw [State.hsStep_quiet hp, State.pollOnce, State.sampled_aborted _ hr hHalt hAbort]

/-- Settles O44: command by command the next thing is the sampling of `abort`; the flush is the one
call. -/
theorem abortEndsRunningCommand : Obligations.AbortEndsRunningCommand := by
  intro s i hr hAbort hHalt hCall
  obtain ⟨hEncd, hEnce, hEncx⟩ := s.running_not_encode
  refine ⟨?ends, by simp, by simp, by simp, by simp⟩
  cases i with
  | encd => exact absurd hr hEncd
  | ence => exact absurd hr hEnce
  | encx => exact absurd hr hEncx
  | await =>
    rw [exec_await_running hr, State.awaitPoll, State.pollOnce,
      State.sampled_aborted _ hr hHalt hAbort]
  | awaitany =>
    rw [exec_awaitany_running hr, State.awaitPoll, State.pollOnce,
      State.sampled_aborted _ hr hHalt hAbort]
  | trywr => rw [exec_trywr_running hr, State.writeOnce, State.sampled_aborted _ hr hHalt hAbort]
  | drain => rw [exec_drain_running hr, State.drainOnce, State.sampled_aborted _ hr hHalt hAbort]
  | flush => rw [exec_flush_running hr, State.flushOnce, State.sampled_aborted _ hr hHalt hAbort]
  | hsinit | hspost =>
    rw [exec_handshake_running (by simp) hr, State.hsStep_aborted (by simp) hr hHalt hAbort hCall]

end Sys2Proof.Machine

namespace Sys2Proof.Machine

/-! ### Several steps in a row -/

theorem run_add {s t : State} {j : Nat} (k : Nat) (h : run j s = .next t) :
    run (j + k) s = run k t := by
  induction j generalizing s with
  | zero =>
    cases h
    rw [Nat.zero_add]
  | succ j ih =>
    rw [run] at h
    cases hStep : step s with
    | fault r => simp [hStep] at h
    | refused r => simp [hStep] at h
    | next u =>
      rw [hStep] at h
      rw [Nat.add_right_comm, run_succ _ hStep]
      exact ih h

/-- What a step does never depends on the pulse before it, so neither does a run of at least one. -/
theorem run_clearPulse (k : Nat) (s : State) : run (k + 1) s.clearPulse = run (k + 1) s := rfl

/-! ### A wait over a script of draws (41_channel.md R150, R156) -/

/-- Where a matched wait goes on: the end of an await, the next banner byte, a restart. -/
def Phase.onMatch : Phase → State → State
  | .hsMatch => State.bannerMatched
  | .hsQuiet => State.retry
  | _ => (·.finish .ok)

/-- Where a wait goes on that has spent its budget. -/
def Phase.onTimeout : Phase → State → State
  | .hsMatch => State.retry
  | .hsQuiet => (·.finish .ok)
  | _ => (·.finish .timedOut)

theorem step_of_waiting {s : State} (hb : s.busy = true) (hw : s.phase.waiting = true)
    (hi : s.inputs = []) :
    step s = s.clearPulse.pollOnce s.phase.onMatch s.phase.onTimeout := by
  cases hp : s.phase with
  | idle | encode | write | draining | flushing | hsFlush | hsAttn => simp [hp, Phase.waiting] at hw
  | wait => exact step_of_wait hb hp hi
  | hsMatch =>
    rw [step_of_handshake hb (by rw [hp]; rfl) hi, State.hsStep_match (s := s.clearPulse) hp]
    rfl
  | hsQuiet =>
    rw [step_of_handshake hb (by rw [hp]; rfl) hi, State.hsStep_quiet (s := s.clearPulse) hp]
    rfl

/-- A wait is in progress, nothing from outside interferes, nothing is unread, and these are the
draws of the next polls. -/
structure State.Listens (s : State) (script : List PollDraw) : Prop where
  busy : s.busy = true
  waiting : s.phase.waiting = true
  halt : s.halt = false
  abort : s.abort = false
  inputs : s.inputs = []
  unread : s.chan.unread = []
  script : s.chan.pollScript = script

/-- The state after the draws `ds`, when none of them has ended the wait. -/
def State.waited (s : State) (ds : List PollDraw) : State :=
  { s with
    chan := { s.chan with
      pollScript := s.chan.pollScript.drop ds.length, pollCalls := s.chan.pollCalls + ds.length }
    tmr := s.tmr - quiets ds }

theorem State.waited_nil (s : State) : s.waited [] = s := rfl

@[simp] theorem State.waited_tmr (s : State) (ds : List PollDraw) :
    (s.waited ds).tmr = s.tmr - quiets ds := rfl

@[simp] theorem State.waited_phase (s : State) (ds : List PollDraw) :
    (s.waited ds).phase = s.phase := rfl

@[simp] theorem State.waited_mode (s : State) (ds : List PollDraw) : (s.waited ds).mode = s.mode := rfl

@[simp] theorem State.waited_att (s : State) (ds : List PollDraw) : (s.waited ds).att = s.att := rfl

@[simp] theorem State.waited_idx (s : State) (ds : List PollDraw) : (s.waited ds).idx = s.idx := rfl

@[simp] theorem State.waited_busy (s : State) (ds : List PollDraw) : (s.waited ds).busy = s.busy := rfl

@[simp] theorem State.waited_host (s : State) (ds : List PollDraw) : (s.waited ds).host = s.host := rfl

@[simp] theorem State.waited_unread (s : State) (ds : List PollDraw) :
    (s.waited ds).chan.unread = s.chan.unread := rfl

theorem Channel.setUnread_self {c : Channel} {u : List Byte} (h : c.unread = u) :
    c.setUnread u = c := by
  subst h
  rfl

section Listens

variable {s : State} {d : PollDraw} {ds rest : List PollDraw} {b : Byte}

theorem State.Listens.poll_arrives (h : s.Listens (.arrives b :: rest)) :
    s.chan.poll = (.rx b, s.chan.polled) := by
  rw [Channel.poll_arrives (Channel.pollDraw_cons h.script) h.unread,
    Channel.setUnread_self (show s.chan.polled.unread = [] from h.unread)]

theorem State.Listens.poll_quiet (h : s.Listens (.quiet :: rest)) :
    s.chan.poll = (.tick, s.chan.polled) :=
  Channel.poll_quiet (Channel.pollDraw_cons h.script) h.unread

theorem State.Listens.clearPulse (h : s.Listens ds) : s.clearPulse.Listens ds := by
  obtain ⟨h1, h2, h3, h4, h5, h6, h7⟩ := h
  exact ⟨h1, h2, h3, h4, h5, h6, h7⟩

theorem State.Listens.waited (h : s.Listens (ds ++ rest)) : (s.waited ds).Listens rest := by
  obtain ⟨h1, h2, h3, h4, h5, h6, h7⟩ := h
  refine ⟨h1, h2, h3, h4, h5, h6, ?_⟩
  rw [State.waited, h7, List.drop_left]

/-- A matching byte ends the wait. -/
theorem State.Listens.step_matched (h : s.Listens (.arrives b :: rest))
    (hMatch : (s.wild || b == s.expb) = true) :
    step s = .next (s.phase.onMatch (s.clearPulse.withChan s.chan.polled)) := by
  have hPoll := h.clearPulse.poll_arrives
  rw [step_of_waiting h.busy h.waiting h.inputs,
    State.pollOnce_matched h.clearPulse.halt h.clearPulse.abort (congrArg Prod.fst hPoll) hMatch,
      hPoll]
  rfl

/-- The TICK that spends the budget ends the wait. -/
theorem State.Listens.step_spent (h : s.Listens (.quiet :: rest)) (hTmr : s.tmr = 1) :
    step s = .next (s.phase.onTimeout { s.clearPulse with chan := s.chan.polled, tmr := 0 }) := by
  have hPoll := h.clearPulse.poll_quiet
  rw [step_of_waiting h.busy h.waiting h.inputs,
    State.pollOnce_spent h.clearPulse.halt h.clearPulse.abort (congrArg Prod.fst hPoll) hTmr, hPoll]
  rfl

/-- A draw that leaves the wait in progress. -/
theorem State.Listens.step_waited (h : s.Listens (d :: rest)) (hLeaves : s.leavesWaiting d = true)
    (hTmr : quiets [d] < s.tmr) : step s = .next (s.clearPulse.waited [d]) := by
  rw [step_of_waiting h.busy h.waiting h.inputs]
  have hDrop : s.chan.pollScript.tail = s.chan.pollScript.drop 1 := List.drop_one.symm
  cases d with
  | fault keep => cases hLeaves
  | quiet =>
    have hPoll := h.clearPulse.poll_quiet
    rw [State.pollOnce_ticked h.clearPulse.halt h.clearPulse.abort (congrArg Prod.fst hPoll) hTmr,
      hPoll]
    simp only [State.waited, Channel.polled, State.clearPulse_chan, hDrop]
    rfl
  | arrives x =>
    have hPoll := h.clearPulse.poll_arrives
    have hNoMatch : ¬ (s.wild || x == s.expb) = true := by simpa [State.leavesWaiting] using hLeaves
    rw [State.pollOnce_dropped h.clearPulse.halt h.clearPulse.abort (congrArg Prod.fst hPoll)
      hNoMatch, hPoll]
    simp only [State.waited, Channel.polled, State.clearPulse_chan, hDrop]
    rfl

theorem quiets_cons (d : PollDraw) (ds : List PollDraw) :
    quiets (d :: ds) = quiets [d] + quiets ds := by
  rw [quiets, ← List.singleton_append, List.count_append]
  rfl

/-- Draws that leave the wait in progress, with fewer TICKs than the budget, one after the other. -/
theorem State.Listens.run_waited (k : Nat) (h : s.Listens (ds ++ rest))
    (hLeaves : ∀ d ∈ ds, s.leavesWaiting d = true) (hTmr : quiets ds < s.tmr) :
    run (ds.length + (k + 1)) s = run (k + 1) (s.waited ds) := by
  induction ds generalizing s with
  | nil => rw [List.length_nil, Nat.zero_add, State.waited_nil]
  | cons d ds ih =>
    rw [quiets_cons] at hTmr
    obtain ⟨hHead, hTail⟩ := List.forall_mem_cons.mp hLeaves
    have hStep := h.step_waited hHead (by omega)
    have hNext : (s.clearPulse.waited [d]).Listens (ds ++ rest) :=
      State.Listens.waited (ds := [d]) h.clearPulse
    have hBudget : quiets ds < (s.clearPulse.waited [d]).tmr := by
      rw [State.waited_tmr, State.clearPulse_tmr]
      omega
    have hWaited : (s.clearPulse.waited [d]).waited ds = (s.waited (d :: ds)).clearPulse := by
      simp only [State.waited, State.clearPulse, quiets_cons d ds, List.drop_drop, List.length_cons,
        List.length_nil, Nat.sub_sub, Nat.zero_add, Nat.add_comm 1, Nat.add_assoc]
    rw [List.length_cons, Nat.add_right_comm, run_succ _ hStep, ih hNext hTail hBudget, hWaited,
      run_clearPulse]

/-- A whole script up to the matching byte. -/
theorem State.Listens.run_matched (h : s.Listens (ds ++ .arrives b :: rest))
    (hLeaves : ∀ d ∈ ds, s.leavesWaiting d = true) (hTmr : quiets ds < s.tmr)
    (hMatch : (s.wild || b == s.expb) = true) :
    run (ds.length + 1) s =
      .next (s.phase.onMatch ((s.waited ds).clearPulse.withChan (s.waited ds).chan.polled)) := by
  rw [h.run_waited 0 hLeaves hTmr]
  exact run_one (h.waited.step_matched hMatch)

/-- A whole script up to the TICK that spends the budget. -/
theorem State.Listens.run_spent (h : s.Listens (ds ++ .quiet :: rest))
    (hLeaves : ∀ d ∈ ds, s.leavesWaiting d = true) (hTmr : quiets ds + 1 = s.tmr) :
    run (ds.length + 1) s =
      .next (s.phase.onTimeout
        { (s.waited ds).clearPulse with chan := (s.waited ds).chan.polled, tmr := 0 }) := by
  rw [h.run_waited 0 hLeaves (by omega)]
  refine run_one (h.waited.step_spent ?_)
  rw [State.waited_tmr]
  omega

/-- The channel after the script and the draw that ends the wait. -/
theorem State.Listens.polled_script (h : s.Listens (ds ++ d :: rest)) :
    (s.waited ds).chan.polled.pollScript = rest := by
  rw [Channel.polled_pollScript, h.waited.script, List.tail_cons]

end Listens

/-- Settles O28: the draws before it leave the wait in progress, and the matching byte ends it. -/
theorem waitEndsAtFirstMatch : Obligations.WaitEndsAtFirstMatch := by
  intro s ds rest b hb hp hHalt hAbort hi hu hScript hLeaves hTmr hMatch
  have h : s.Listens (ds ++ .arrives b :: rest) :=
    ⟨hb, by rw [hp]; rfl, hHalt, hAbort, hi, hu, hScript⟩
  refine ⟨_, h.run_matched hLeaves hTmr hMatch, ?_⟩
  rw [hp]
  exact ⟨rfl, rfl, rfl, rfl, rfl, h.polled_script, hu, rfl, rfl, rfl⟩

/-- Settles O41: the noise leaves the wait in progress, and the awaited byte moves the attempt on. -/
theorem handshakeToleratesNoise : Obligations.HandshakeToleratesNoise := by
  intro s ds rest hb hp hWild hHalt hAbort hi hu hScript hLeaves hTmr
  have h : s.Listens (ds ++ .arrives s.expb :: rest) :=
    ⟨hb, by rw [hp]; rfl, hHalt, hAbort, hi, hu, hScript⟩
  have hRest := h.polled_script
  refine ⟨_, h.run_matched hLeaves hTmr (by simp), ?_⟩
  rw [hp, Phase.onMatch]
  refine ⟨by simp [hb], by simp, by simp, by simp, by simp, by simp, by simpa using hRest,
    by simp [hu], ?_⟩
  by_cases hLast : s.idx = 5
  · rw [if_pos (by simp [hLast]), State.bannerMatched_last (by simpa using hLast)]
    simp
  · have hBefore : s.idx.val < 5 := by omega
    have hNext : (s.idx + 1).val = s.idx.val + 1 := Fin.val_add_one_of_lt (Fin.lt_def.mpr hBefore)
    rw [if_neg (by omega), State.bannerMatched_next (by simpa using hLast)]
    simpa using hNext

end Sys2Proof.Machine

namespace Sys2Proof.Machine

/-! ### Every wait and every post-load handshake ends (41_channel.md R156, 42_handshake.md R183) -/

/-- Some number of steps leads to an idle block. -/
def State.Ends (s : State) : Prop :=
  ∃ n t, run n s = .next t ∧ t.busy = false

theorem State.ends_of_idle {s : State} (hb : s.busy = false) : s.Ends :=
  ⟨0, s, rfl, hb⟩

theorem State.ends_of_step {s t : State} (h : step s = .next t) (ht : t.Ends) : s.Ends := by
  obtain ⟨n, u, hRun, hb⟩ := ht
  exact ⟨n + 1, u, (run_succ n h).trans hRun, hb⟩

/-- A sound machine that runs an await or a post-load handshake, with no outside event to come. -/
structure State.Bounded (s : State) : Prop where
  inv : s.Inv
  inputs : s.inputs = []
  busy : s.busy = true
  kind : s.phase = .wait ∨ (s.phase.handshake = true ∧ s.mode = .postload)

/-- What is left of the command, apart from the budget of its present wait: it falls with every
phase, every banner byte and every attempt. -/
def State.rank (s : State) : Nat :=
  let later := (Config.postloadAttempts - s.att.toNat) * 9
  match s.phase with
  | .hsMatch => later + (8 - s.idx.val)
  | .hsQuiet => later + 2
  | .hsFlush => later + 1
  | .hsAttn => later
  | _ => 0

/-- A turn of a wait that does not end it: a TICK spends budget, and any other answer uses up a
poll. -/
def State.WaitsOn (s t : State) : Prop :=
  t.rank = s.rank ∧ (t.tmr < s.tmr ∨ (t.tmr = s.tmr ∧ s.chan.poll.1 ≠ .tick ∧ t.chan = s.chan.poll.2))

theorem PollOutcome.progress {s t : State} {onMatch onTimeout : State → State} (hHalt : s.halt = false)
    (h : PollOutcome s t onMatch onTimeout) :
    t.busy = false ∨ t = onMatch (s.withChan s.chan.poll.2) ∨
      t = onTimeout (s.withChan s.chan.poll.2).spendTick ∨
      ((t.phase = s.phase ∧ t.mode = s.mode) ∧ s.WaitsOn t) := by
  cases h with
  | halted hh _ => simp [hHalt] at hh
  | aborted _ _ e | failed _ _ _ e => exact .inl (e ▸ rfl)
  | matched _ _ _ _ _ e => exact .inr (.inl e)
  | spent _ _ _ _ e => exact .inr (.inr (.inl e))
  | dropped _ _ _ hPoll _ e =>
    subst e
    exact .inr (.inr (.inr ⟨⟨rfl, rfl⟩, rfl, .inr ⟨rfl, by simp [hPoll], rfl⟩⟩))
  | ticked _ _ _ hLeft e =>
    subst e
    refine .inr (.inr (.inr ⟨⟨rfl, rfl⟩, rfl, .inl ?_⟩))
    rw [State.spendTick_tmr, State.withChan_tmr]
    omega

theorem State.rank_bannerMatched {s : State} (hp : s.phase = .hsMatch) :
    s.bannerMatched.rank < s.rank ∧ s.bannerMatched.phase.handshake = true := by
  by_cases hLast : s.idx = 5
  · rw [State.bannerMatched_last hLast]
    simp [State.rank, hp, hLast, Phase.handshake]
  · have hNext : (s.idx + 1).val = s.idx.val + 1 :=
      Fin.val_add_one_of_lt (Fin.lt_def.mpr (show s.idx.val < 5 by omega))
    rw [State.bannerMatched_next hLast]
    simp only [State.rank, State.atBanner_phase, State.atBanner_att, State.loadExact_att,
      State.atBanner_idx,
      hNext, hp, Phase.handshake, and_true]
    omega

/-- The command goes on nearer to its end. -/
def State.Nears (s t : State) : Prop :=
  (t.phase = .wait ∨ (t.phase.handshake = true ∧ t.mode = .postload)) ∧ (t.rank < s.rank ∨ s.WaitsOn t)

theorem exec_bounded_progress {i : Instr} {s t : State} (hs : s.Bounded) (hr : s.running = some i)
    (h : exec i s = .next t) : t.busy = false ∨ s.Nears t := by
  have hHalt : s.halt = false := (hs.inv.busyClean hs.busy).2
  have hMode (hp : s.phase.handshake = true) : s.mode = .postload := by
    rcases hs.kind with hw | ⟨-, hm⟩
    · simp [hw, Phase.handshake] at hp
    · exact hm
  cases exec_outcome h with
  | unchanged hb _ => simp [hHalt, hr] at hb
  | hsFlushed _ _ hp _ _ e =>
    refine .inr ⟨.inr ⟨by simp [e, Phase.handshake], by simpa [e] using hMode (by rw [hp]; rfl)⟩,
      .inl ?_⟩
    simp [State.rank, e, hp]
  | counted _ _ hp hm hn e =>
    have hAtt := State.countAttempt_att_toNat (hs.inv.postloadAtt (by rw [hp]; rfl))
    refine .inr ⟨.inr ⟨by simp [e, Phase.handshake], by simpa [e] using hm⟩, .inl ?_⟩
    rw [hAtt] at hn
    simp only [State.rank, e, hp, State.enterMatch_phase, State.enterMatch_att,
      State.enterMatch_idx, hAtt]
    simp only [Config.postloadAttempts] at hn ⊢
    omega
  | attnSent _ _ hp hm => simp [hMode (by rw [hp]; rfl)] at hm
  | waits _ _ hp hw =>
    rcases hw.progress hHalt with hb | e | e | ⟨⟨hp', -⟩, hWaits⟩
    · exact .inl hb
    · exact .inl (e ▸ rfl)
    · exact .inl (e ▸ rfl)
    · exact .inr ⟨.inl (hp'.trans hp), .inr hWaits⟩
  | bannerWait _ _ hp hw =>
    have hm := hMode (by rw [hp]; rfl)
    rcases hw.progress hHalt with hb | e | e | ⟨⟨hp', hm'⟩, hWaits⟩
    · exact .inl hb
    · obtain ⟨hLess, hHandshake⟩ := State.rank_bannerMatched (s := s.withChan s.chan.poll.2) hp
      subst e
      exact .inr ⟨.inr ⟨hHandshake, by simpa using hm⟩, .inl hLess⟩
    · refine .inr ⟨.inr ⟨by simp [e, Phase.handshake], by simpa [e] using hm⟩, .inl ?_⟩
      simp only [State.rank, e, hp, State.retry_phase, State.retry_att, State.spendTick_att,
        State.withChan_att]
      omega
    · exact .inr ⟨.inr ⟨by rw [hp', hp]; rfl, hm'.trans hm⟩, .inr hWaits⟩
  | silenceWait _ _ hp hw =>
    have hm := hMode (by rw [hp]; rfl)
    rcases hw.progress hHalt with hb | e | e | ⟨⟨hp', hm'⟩, hWaits⟩
    · exact .inl hb
    · refine .inr ⟨.inr ⟨by simp [e, Phase.handshake], by simpa [e] using hm⟩, .inl ?_⟩
      simp only [State.rank, e, hp, State.retry_phase, State.retry_att, State.withChan_att]
      omega
    · exact .inl (e ▸ rfl)
    · exact .inr ⟨.inr ⟨by rw [hp', hp]; rfl, hm'.trans hm⟩, .inr hWaits⟩
  | startsAwait _ hReady | startsAwaitany _ hReady | startsTrywr _ hReady | startsDrain _ hReady
  | startsFlush _ hReady | startsHsinit _ hReady | startsHspost _ hReady =>
    exact absurd hr (hReady.not_running i)
  | refused _ _ hb => simp [hs.busy] at hb
  | _ =>
    rename_i e
    exact .inl (by simp [e])

theorem State.Bounded.progress {s : State} (hs : s.Bounded) :
    ∃ t, step s = .next t ∧ (t.busy = false ∨ (t.Bounded ∧ (t.rank < s.rank ∨ s.WaitsOn t))) := by
  obtain ⟨i, hr⟩ := hs.inv.running_of_busy hs.busy
  have hs' : s.clearPulse.Bounded := ⟨hs.inv.handed s.inputs s.host, hs.inputs, hs.busy, hs.kind⟩
  obtain ⟨t, hExec⟩ := exec_running_next (s := s.clearPulse) hr
  have hStep : step s = .next t := (step_of_running hr hs.inputs).trans hExec
  obtain ⟨⟨-, -, -, -, -, hInputs⟩, -⟩ := exec_keeps hExec
  refine ⟨t, hStep, ?_⟩
  rcases exec_bounded_progress hs' hr hExec with hb | ⟨hKind, hNears⟩
  · exact .inl hb
  · have hInv : t.Inv := stepKeepsTheMachineSound s t hs.inv hStep
    have hBusy : t.busy = true := by
      refine hInv.busy_of_phase ?_
      rcases hKind with hp | ⟨hp, -⟩
      · simp [hp]
      · exact fun hIdle => by simp [hIdle, Phase.handshake] at hp
    exact .inr ⟨⟨hInv, hInputs.trans hs.inputs, hBusy, hKind⟩, hNears⟩

/-- By tick fairness a wait comes to its next TICK, if it does not end before. -/
theorem State.Bounded.ends_of_tick {k r m : Nat}
    (hLess : ∀ t : State, t.Bounded → (t.rank < r ∨ (t.rank = r ∧ t.tmr < m)) → t.Ends) {s : State}
    (hs : s.Bounded) (hRank : s.rank = r) (hTmr : s.tmr = m)
    (hTick : (s.chan.afterPolls k).poll.1 = .tick) :
    s.Ends := by
  induction k generalizing s with
  | zero =>
    obtain ⟨t, hStep, hb | ⟨ht, hRankLess | ⟨hSame, hSpent | ⟨-, hNoTick, -⟩⟩⟩⟩ := hs.progress
    · exact State.ends_of_step hStep (State.ends_of_idle hb)
    · exact State.ends_of_step hStep (hLess t ht (.inl (hRank ▸ hRankLess)))
    · exact State.ends_of_step hStep (hLess t ht (.inr ⟨hSame.trans hRank, hTmr ▸ hSpent⟩))
    · exact absurd hTick hNoTick
  | succ k ih =>
    obtain ⟨t, hStep, hb | ⟨ht, hRankLess | ⟨hSame, hSpent | ⟨hTmr', -, hChan⟩⟩⟩⟩ := hs.progress
    · exact State.ends_of_step hStep (State.ends_of_idle hb)
    · exact State.ends_of_step hStep (hLess t ht (.inl (hRank ▸ hRankLess)))
    · exact State.ends_of_step hStep (hLess t ht (.inr ⟨hSame.trans hRank, hTmr ▸ hSpent⟩))
    · exact State.ends_of_step hStep
        (ih ht (hSame.trans hRank) (hTmr'.trans hTmr) (by rw [hChan]; exact hTick))

/-- What is left of the command falls, and where it does not the budget of the wait does. -/
theorem State.Bounded.ends {s : State} (hs : s.Bounded) : s.Ends := by
  obtain ⟨k, hTick⟩ := s.chan.tick_comes
  exact hs.ends_of_tick (fun t ht hLess => ht.ends) rfl rfl hTick
termination_by (s.rank, s.tmr)
decreasing_by
  rcases hLess with h | ⟨hRank, hTmr⟩
  · exact Prod.Lex.left _ _ h
  · rw [hRank]
    exact Prod.Lex.right _ hTmr

/-- Settles O29: a whole script up to its last TICK; and whatever the channel answers the wait ends. -/
theorem waitTimesOutAtLastTick : Obligations.WaitTimesOutAtLastTick := by
  refine ⟨?script, fun s hInv hr hi => ?ends⟩
  case script =>
    intro s ds rest hb hp hHalt hAbort hi hu hScript hLeaves hTmr
    have h : s.Listens (ds ++ .quiet :: rest) := ⟨hb, by rw [hp]; rfl, hHalt, hAbort, hi, hu, hScript⟩
    refine ⟨_, h.run_spent hLeaves hTmr, ?_⟩
    rw [hp]
    exact ⟨rfl, rfl, rfl, rfl, h.polled_script, hu, rfl⟩
  case ends =>
    have hBounded : s.Bounded := by
      rcases hr with hr | hr
      · exact ⟨hInv, hi, State.busy_of_running hr, .inl (State.phase_of_wait hr (.inl rfl))⟩
      · exact ⟨hInv, hi, State.busy_of_running hr, .inl (State.phase_of_wait hr (.inr rfl))⟩
    exact hBounded.ends

/-! ### HSPOST on a silent channel (42_handshake.md R178, R183) -/

/-- From `s`, in step 1 of an attempt, to `t`, `n` failed attempts later: silence spent every
budget. -/
structure State.FailedAttempts (s : State) (n : Nat) (t : State) : Prop where
  phase : t.phase = .hsFlush
  busy : t.busy = s.busy
  mode : t.mode = s.mode
  halt : t.halt = s.halt
  abort : t.abort = s.abort
  inputs : t.inputs = s.inputs
  fault : t.fault = s.fault
  att : t.att.toNat = s.att.toNat + n
  retries : t.host.retries = s.host.retries + n
  flushCalls : t.chan.flushCalls = s.chan.flushCalls + n
  pollCalls : t.chan.pollCalls = s.chan.pollCalls + n * Config.tTicks
  writeCalls : t.chan.writeCalls = s.chan.writeCalls
  unread : s.chan.unread = [] → t.chan.unread = []
  pollScript : t.chan.pollScript = s.chan.pollScript.drop (n * Config.tTicks)
  flushScript : t.chan.flushScript = s.chan.flushScript.drop n

/-- The state after step 1, when the flush is done: both queues are empty. -/
def State.flushedEmpty (s : State) : State :=
  (s.clearPulse.withChan ((s.chan.flushTried.setUnread []).setQueued [])).toPhase .hsAttn

theorem step_hsFlush_done {s : State} {flushes : List FlushDraw} (hb : s.busy = true)
    (hp : s.phase = .hsFlush)
    (hHalt : s.halt = false) (hAbort : s.abort = false) (hi : s.inputs = [])
    (hFlush : s.chan.flushScript = .done :: flushes) : step s = .next s.flushedEmpty := by
  rw [step_of_handshake hb (by rw [hp]; rfl) hi, State.hsStep_flush (s := s.clearPulse) hp,
    State.hsStepFlush,
    State.sampled_running (s := s.clearPulse) _ hHalt hAbort, State.clearPulse_chan,
    Channel.flush_done (Channel.flushDraw_cons hFlush), State.flushedEmpty]

/-- Step 2 of post-load mode with an attempt to spare. -/
theorem step_hsAttn_counted {s : State} (hb : s.busy = true) (hp : s.phase = .hsAttn)
    (hm : s.mode = .postload)
    (hi : s.inputs = []) (hAtt : s.att.toNat ≤ 9) :
    step s = .next s.clearPulse.countAttempt.enterMatch := by
  rw [step_of_handshake hb (by rw [hp]; rfl) hi, State.hsStep_attn_postload (s := s.clearPulse) hp hm,
    State.hsStepAttnPostload_counted (s := s.clearPulse) hAtt]

theorem leavesWaiting_replicate_quiet (s : State) (n : Nat) :
    ∀ d ∈ List.replicate n .quiet, s.leavesWaiting d = true := by
  intro d hd
  rw [List.eq_of_mem_replicate hd]
  rfl

theorem quiets_replicate (n : Nat) : quiets (List.replicate n .quiet) = n :=
  List.count_replicate_self

/-- The state after a silence of T_TICKS, before the wait goes on to what follows its last TICK. -/
def State.silenced (s : State) : State :=
  { s.clearPulse with
    chan := { s.chan with
      pollScript := s.chan.pollScript.drop Config.tTicks
      pollCalls := s.chan.pollCalls + Config.tTicks }
    tmr := 0 }

/-- A wait with its whole budget, on silence. -/
theorem State.Listens.run_silence {s : State} {rest : List PollDraw}
    (h : s.Listens (List.replicate Config.tTicks .quiet ++ rest)) (hTmr : s.tmr = Config.tTicks) :
    run Config.tTicks s = .next (s.phase.onTimeout s.silenced) := by
  obtain ⟨n, hn⟩ : ∃ n, Config.tTicks = n + 1 := ⟨_, rfl⟩
  rw [hn, List.replicate_succ', List.append_assoc, List.singleton_append] at h
  have hRun := h.run_spent (leavesWaiting_replicate_quiet s n) (by rw [quiets_replicate, hTmr, hn])
  rw [List.length_replicate] at hRun
  rw [State.silenced, hn, hRun, State.waited, List.length_replicate]
  simp only [Channel.polled, State.clearPulse, List.tail_drop]
  rfl

/-- One attempt on silence: flush, count, and the whole budget of the wait for `K`. -/
theorem run_failed_attempt {s : State} {polls : List PollDraw} {flushes : List FlushDraw}
    (hb : s.busy = true) (hp : s.phase = .hsFlush) (hm : s.mode = .postload) (hHalt : s.halt = false)
    (hAbort : s.abort = false) (hi : s.inputs = []) (hAtt : s.att.toNat ≤ 9)
    (hPolls : s.chan.pollScript = List.replicate Config.tTicks .quiet ++ polls)
    (hFlushes : s.chan.flushScript = .done :: flushes) :
    ∃ t, run (Config.tTicks + 2) s = .next t ∧ s.FailedAttempts 1 t := by
  have hFlushed := step_hsFlush_done hb hp hHalt hAbort hi hFlushes
  have hCounted : step s.flushedEmpty = .next s.flushedEmpty.clearPulse.countAttempt.enterMatch :=
    step_hsAttn_counted hb rfl hm hi hAtt
  have hListens : s.flushedEmpty.clearPulse.countAttempt.enterMatch.Listens
      (List.replicate Config.tTicks .quiet ++ polls) := by
    constructor <;> simp [State.flushedEmpty, hb, hHalt, hAbort, hi, hPolls, Phase.waiting]
  have hRun := hListens.run_silence (by simp)
  have hAttNext := State.countAttempt_att_toNat (s := s)
    (by simp only [Config.postloadAttempts]; omega)
  refine ⟨_, (run_succ _ hFlushed).trans ((run_succ _ hCounted).trans hRun), ?_⟩
  rw [State.enterMatch_phase, Phase.onTimeout]
  constructor
  case att => simpa [State.silenced, State.flushedEmpty] using hAttNext
  all_goals simp [State.silenced, State.flushedEmpty, hFlushes]

theorem State.FailedAttempts.refl {s : State} (hp : s.phase = .hsFlush) : s.FailedAttempts 0 s := by
  constructor
  case phase => exact hp
  all_goals simp

theorem State.FailedAttempts.trans {s t u : State} {j k : Nat} (h : s.FailedAttempts j t)
    (h' : t.FailedAttempts k u) : s.FailedAttempts (j + k) u := by
  constructor
  case phase => exact h'.phase
  case busy => exact h'.busy.trans h.busy
  case mode => exact h'.mode.trans h.mode
  case halt => exact h'.halt.trans h.halt
  case abort => exact h'.abort.trans h.abort
  case inputs => exact h'.inputs.trans h.inputs
  case fault => exact h'.fault.trans h.fault
  case att => rw [h'.att, h.att, Nat.add_assoc]
  case retries => rw [h'.retries, h.retries, Nat.add_assoc]
  case flushCalls => rw [h'.flushCalls, h.flushCalls, Nat.add_assoc]
  case pollCalls => rw [h'.pollCalls, h.pollCalls, Nat.add_mul, Nat.add_assoc]
  case writeCalls => exact h'.writeCalls.trans h.writeCalls
  case unread => exact fun hu => h'.unread (h.unread hu)
  case pollScript => rw [h'.pollScript, h.pollScript, List.drop_drop, Nat.add_mul]
  case flushScript => rw [h'.flushScript, h.flushScript, List.drop_drop]

/-- Attempt after attempt on silence. -/
theorem run_failed_attempts {s : State} {n : Nat} {polls : List PollDraw} {flushes : List FlushDraw}
    (hb : s.busy = true) (hp : s.phase = .hsFlush) (hm : s.mode = .postload) (hHalt : s.halt = false)
    (hAbort : s.abort = false) (hi : s.inputs = []) (hAtt : s.att.toNat + n ≤ 10)
    (hPolls : s.chan.pollScript = List.replicate (n * Config.tTicks) .quiet ++ polls)
    (hFlushes : s.chan.flushScript = List.replicate n .done ++ flushes) :
    ∃ t, run (n * (Config.tTicks + 2)) s = .next t ∧ s.FailedAttempts n t := by
  induction n generalizing polls flushes with
  | zero => exact ⟨s, by rw [Nat.zero_mul]; rfl, .refl hp⟩
  | succ n ih =>
    rw [Nat.succ_mul, ← List.replicate_append_replicate, List.append_assoc] at hPolls
    rw [List.replicate_succ', List.append_assoc] at hFlushes
    obtain ⟨t, hRun, h⟩ := ih (by omega) hPolls hFlushes
    have hPolls' : t.chan.pollScript = List.replicate Config.tTicks .quiet ++ polls := by
      rw [h.pollScript, hPolls, List.drop_left' List.length_replicate]
    have hFlushes' : t.chan.flushScript = .done :: flushes := by
      rw [h.flushScript, hFlushes, List.drop_left' List.length_replicate]
      rfl
    obtain ⟨u, hRun', h'⟩ := run_failed_attempt (h.busy.trans hb) h.phase (h.mode.trans hm)
      (h.halt.trans hHalt)
      (h.abort.trans hAbort) (h.inputs.trans hi) (by rw [h.att]; omega) hPolls' hFlushes'
    refine ⟨u, ?_, h.trans h'⟩
    rw [Nat.succ_mul, run_add _ hRun, hRun']

/-- Step 2 of post-load mode with no attempt to spare. -/
theorem step_hsAttn_exhausted {s : State} (hb : s.busy = true) (hp : s.phase = .hsAttn)
    (hm : s.mode = .postload)
    (hi : s.inputs = []) (hAtt : s.att = 10) :
    step s = .next (s.clearPulse.countAttempt.finish .timedOut) := by
  rw [step_of_handshake hb (by rw [hp]; rfl) hi, State.hsStep_attn_postload (s := s.clearPulse) hp hm,
    State.hsStepAttnPostload_exhausted (s := s.clearPulse) hAtt]

/-- Settles O39: ten failed attempts, then the flush and the count of an eleventh, which is refused;
and whatever the channel answers, what is left of the command falls. -/
theorem hspostFailsOnSilence : Obligations.HspostFailsOnSilence := by
  refine ⟨?silence, fun s hInv hr hi => ?ends⟩
  case silence =>
    intro s polls flushes hb hp hm hAtt hHalt hAbort hi hu hPolls hFlushes
    rw [List.replicate_succ', List.append_assoc] at hFlushes
    obtain ⟨t, hRun, h⟩ := run_failed_attempts hb hp hm hHalt hAbort hi (by simp [hAtt]) hPolls
      hFlushes
    have hAtt' : t.att = 10 := BitVec.eq_of_toNat_eq (by rw [h.att, hAtt]; rfl)
    have hPolls' : t.chan.pollScript = polls := by
      rw [h.pollScript, hPolls, List.drop_left' List.length_replicate]
    have hFlushes' : t.chan.flushScript = .done :: flushes := by
      rw [h.flushScript, hFlushes, List.drop_left' List.length_replicate]
      rfl
    have hFlushed : step t = .next t.flushedEmpty :=
      step_hsFlush_done (h.busy.trans hb) h.phase (h.halt.trans hHalt) (h.abort.trans hAbort)
        (h.inputs.trans hi) hFlushes'
    have hExhausted : step t.flushedEmpty =
        .next (t.flushedEmpty.clearPulse.countAttempt.finish .timedOut) :=
      step_hsAttn_exhausted (h.busy.trans hb) rfl (h.mode.trans hm) (h.inputs.trans hi) hAtt'
    refine ⟨_, (run_add 2 hRun).trans ((run_succ 1 hFlushed).trans (run_one hExhausted)), ?_⟩
    simp [State.flushedEmpty, hAtt', hPolls', hFlushes', h.fault, h.halt, hHalt, h.flushCalls,
      h.pollCalls,
      h.writeCalls, h.retries]
  case ends =>
    have hPhase := State.phase_of_handshake hr (.inr rfl)
    have hMode : s.mode = .postload := (State.mode_of_handshake hr).2 rfl
    have hBounded : s.Bounded := ⟨hInv, hi, State.busy_of_running hr, .inr ⟨hPhase, hMode⟩⟩
    exact hBounded.ends

/-! ### HSINIT on a clean banner (42_handshake.md R177, R180) -/

/-- The attempt, the flags, the host and the queued output are as before. -/
def State.SameAttempt (s t : State) : Prop :=
  t.att = s.att ∧ t.fault = s.fault ∧ t.host = s.host ∧ t.chan.queued = s.chan.queued

/-- The state after step 2 of initial-contact mode, the attention byte written or refused (R173). -/
def State.attnPassed (s : State) (w : WriteDraw) : State :=
  (s.clearPulse.withChan (s.chan.tried.setQueued
    (if w = .written then s.chan.queued ++ [0x7F] else s.chan.queued))).enterMatch

theorem step_hsAttn_sent {s : State} {w : WriteDraw} {writes : List WriteDraw} (hb : s.busy = true)
    (hp : s.phase = .hsAttn) (hm : s.mode = .initial) (hHalt : s.halt = false)
    (hAbort : s.abort = false)
    (hi : s.inputs = []) (hWrite : s.chan.writeScript = w :: writes) (hw : w = .written ∨ w = .busy) :
    step s = .next (s.attnPassed w) := by
  rw [step_of_handshake hb (by rw [hp]; rfl) hi, State.hsStep_attn_initial (s := s.clearPulse) hp hm,
    State.hsStepAttnInitial, State.sampled_running (s := s.clearPulse) _ hHalt hAbort,
      State.clearPulse_chan]
  rcases hw with rfl | rfl
  · rw [Channel.tryWrite_written _ (Channel.writeDraw_cons hWrite)]
    rfl
  · rw [Channel.tryWrite_busy _ (Channel.writeDraw_cons hWrite)]
    rfl

/-- The banner from byte `i` on: that byte, and the banner after it. -/
theorem banner_drop (i : Fin 6) :
    Config.banner.toList.drop i.val = bannerByte i :: Config.banner.toList.drop (i.val + 1) :=
  List.drop_eq_getElem_cons i.isLt

theorem State.Listens.step_banner {s : State} {rest : List PollDraw} (hp : s.phase = .hsMatch)
    (hExpb : s.expb = bannerByte s.idx)
    (h : s.Listens ((Config.banner.toList.drop s.idx.val).map .arrives ++ rest)) :
    step s = .next (s.clearPulse.withChan s.chan.polled).bannerMatched ∧
      s.chan.pollScript.tail = (Config.banner.toList.drop (s.idx.val + 1)).map .arrives ++ rest := by
  rw [banner_drop, List.map_cons, List.cons_append] at h
  have hStep := h.step_matched (by simp [hExpb])
  rw [hp, Phase.onMatch] at hStep
  exact ⟨hStep, by rw [h.script, List.tail_cons]⟩

/-- The rest of the banner, byte after byte, brings step 3 to step 4. -/
theorem State.Listens.run_banner {s : State} {k : Nat} {rest : List PollDraw} (hp : s.phase = .hsMatch)
    (hk : s.idx.val + k = 5) (hExpb : s.expb = bannerByte s.idx)
    (h : s.Listens ((Config.banner.toList.drop s.idx.val).map .arrives ++ rest)) :
    ∃ t, run (k + 1) s = .next t ∧ t.phase = .hsQuiet ∧ t.tmr = Config.tTicks ∧ t.Listens rest ∧
      s.SameAttempt t ∧ t.chan.pollCalls = s.chan.pollCalls + (k + 1) := by
  induction k generalizing s with
  | zero =>
    obtain ⟨hStep, hTail⟩ := h.step_banner hp hExpb
    obtain ⟨hb, -, hHalt, hAbort, hi, hu, -⟩ := h
    have hLast : s.idx = 5 := Fin.ext hk
    have hNone : Config.banner.toList.drop (s.idx.val + 1) = [] := by rw [hLast]; rfl
    rw [hNone] at hTail
    rw [State.bannerMatched_last (by simpa using hLast)] at hStep
    refine ⟨_, run_one hStep, by simp, by simp, ?_, by simp [State.SameAttempt], by simp⟩
    constructor <;> simp [hb, hHalt, hAbort, hi, hu, hTail, Phase.waiting]
  | succ k ih =>
    obtain ⟨hStep, hTail⟩ := h.step_banner hp hExpb
    obtain ⟨hb, -, hHalt, hAbort, hi, hu, -⟩ := h
    have hNext : (s.idx + 1).val = s.idx.val + 1 :=
      Fin.val_add_one_of_lt (Fin.lt_def.mpr (show s.idx.val < 5 by omega))
    have hNotLast : s.idx ≠ 5 := fun h5 => by simp [h5] at hk
    rw [State.bannerMatched_next (by simpa using hNotLast)] at hStep
    obtain ⟨t, hRun, hPhase, hTmr, hListens, hSame, hCalls⟩ :=
      ih (s := ((s.clearPulse.withChan s.chan.polled).loadExact (bannerByte (s.idx + 1))).atBanner
        (s.idx + 1))
        rfl (by rw [State.atBanner_idx, hNext]; omega) rfl
        (by constructor <;> simp [hb, hHalt, hAbort, hi, hu, hTail, hNext, Phase.waiting])
    refine ⟨t, (run_succ _ hStep).trans hRun, hPhase, hTmr, hListens,
      by simpa [State.SameAttempt] using hSame, ?_⟩
    simp only [State.atBanner_chan, State.loadExact_chan, State.withChan_chan,
      Channel.polled_pollCalls] at hCalls
    omega

/-- Settles O40: the flush, the attention byte, the six bytes of the banner, and the silence. -/
theorem hsinitSucceedsOnCleanBanner : Obligations.HsinitSucceedsOnCleanBanner := by
  intro s polls flushes w writes hb hp hm hHalt hAbort hi hFlushes hWrites hw hPolls
  have hFlushed := step_hsFlush_done hb hp hHalt hAbort hi hFlushes
  have hSent := step_hsAttn_sent (s := s.flushedEmpty) hb rfl hm hHalt hAbort hi hWrites hw
  have hListens : (s.flushedEmpty.attnPassed w).Listens
      ((Config.banner.toList.drop 0).map .arrives ++
        (List.replicate Config.tTicks .quiet ++ polls)) := by
    rw [List.append_assoc] at hPolls
    constructor <;> simp [State.attnPassed, State.flushedEmpty, hb, hHalt, hAbort, hi, Phase.waiting]
    exact hPolls
  obtain ⟨t, hRun, hPhase, hTmr, hSilent, ⟨hAtt, hFault, hHost, hQueued⟩, hCalls⟩ :=
    hListens.run_banner (k := 5) rfl rfl rfl
  have hEnd := hSilent.run_silence hTmr
  rw [hPhase, Phase.onTimeout] at hEnd
  have hLength : 8 + Config.tTicks = 5 + 1 + Config.tTicks + 1 + 1 := by omega
  refine ⟨t.silenced.finish .ok, ?_, ?_⟩
  · rw [hLength, run_succ _ hFlushed, run_succ _ hSent, run_add _ hRun, hEnd]
  · simp [State.silenced, hAtt, hFault, hHost, hQueued, hCalls, hSilent.script, State.attnPassed,
      State.flushedEmpty]

end Sys2Proof.Machine
